-- ==== Sys2Proof/Word.lean ====
section
/-! DEFINITION. The widths of the block's values: unsigned integers of 8, 16, 32 and 64 bits (00_scope.md R8, 20_memory.md R41). -/

namespace Sys2Proof

/-- A byte: the SPI word and the unit of every count (20_memory.md R41). -/
abbrev Byte := BitVec 8

/-- The spec's `u16`. -/
abbrev U16 := BitVec 16

/-- The spec's `u32`. -/
abbrev U32 := BitVec 32

/-- The spec's `u64`. -/
abbrev U64 := BitVec 64

end Sys2Proof
end

