-- ==== Sys2Proof/Config.lean ====
section
/-! DEFINITION. What the spec leaves open as a whole: the draws of 00_scope.md R8 and the open parameter CS_PRESENT, as
constants without a body, so that nothing can be proved of their values. -/

namespace Sys2Proof

/-- The byte the target puts on MISO at the n-th draw (10_state.md R32, 40_transport.md R90; log 5). -/
opaque Config.freeMiso : Nat → Byte

/-- Whether the n-th Exchange or LineWrite fails (40_transport.md R90, R95; log 5). -/
opaque Config.freeIoFail : Nat → Bool

/-- What the clock would show at the end of the n-th timed primitive, were there no lower bound (40_transport.md R90, R94;
log 5). -/
opaque Config.freeClock : Nat → U64

/-- CS_PRESENT (00_scope.md R5, D4): open, no rule depends on it (log 9). -/
opaque Config.csPresent : Bool

end Sys2Proof
end

