-- ==== Sys2Proof/Machine/Bytes.lean ====
section
/-! DEFINITION. Byte order, bit order and the checksum: 20_memory.md R42 to R46, 41_framer.md R110. -/

namespace Sys2Proof.Machine

open Sys2Proof

/-- `be16(v)` (00_scope.md R8). -/
def be16 (v : U16) : List Byte := [v.extractLsb' 8 8, v.extractLsb' 0 8]

/-- `be32(v)`: the most significant byte has the lowest index (20_memory.md R42). -/
def be32 (v : U32) : List Byte :=
  [v.extractLsb' 24 8, v.extractLsb' 16 8, v.extractLsb' 8 8, v.extractLsb' 0 8]

/-- The inverse of `be16` on two bytes. -/
def fromBe16 (a b : Byte) : U16 := a ++ b

/-- `from_be32` on the four bytes of a field (00_scope.md R8). -/
def fromBe32 (a b c d : Byte) : U32 := a ++ b ++ c ++ d

/-- `zeros(n)` (00_scope.md R8). -/
def zeros (n : Nat) : List Byte := List.replicate n 0#8

/-- `CHECKSUM(s)`: each byte added modulo 256, starting from 0 (41_framer.md R110). -/
def checksum (s : List Byte) : Byte := s.foldl (fun acc b => acc + b) 0#8

/-- The bits of one word in the order of transmission: bit 7 first (20_memory.md R43; log 22). -/
def byteBits (b : Byte) : List Bool :=
  [b.getLsbD 7, b.getLsbD 6, b.getLsbD 5, b.getLsbD 4, b.getLsbD 3, b.getLsbD 2, b.getLsbD 1, b.getLsbD 0]

/-- The bits of a byte sequence on MOSI: words in index order (20_memory.md R43, R44). -/
def wireBits (s : List Byte) : List Bool := s.flatMap byteBits

/-- The word captured from bits on MISO: the first bit becomes bit 7 (20_memory.md R43). -/
def byteOfBits (bits : List Bool) : Byte :=
  bits.foldl (fun acc b => (acc <<< 1) ||| (BitVec.ofBool b).setWidth 8) 0#8

end Sys2Proof.Machine
end

