-- ==== Sys2Proof/Syntax.lean ====
section
/-! DEFINITION. The wire items of spec/opcode_table.json, one constructor of `Instr` per row, and the closed sets they are built from. -/

namespace Sys2Proof

/-- StatusValue (30_encoding.md R72): the closed enumeration of status codes. -/
inductive StatusValue where
  | default | success | unknownCmd | invalidCmd | invalidAddr | flashFail
  deriving DecidableEq, Repr

/-- The variants of the table of 30_encoding.md R64: eleven requests, three replies. Any of them may be the shape
PARSE_REPLY expects (R73). -/
inductive Variant where
  | ping | download | getStatus | sendData | reset | sectorErase | crc32 | getChipId
  | memoryRead | memoryWrite | bankErase
  | chipIdReply | crc32Reply | commandStatus
  deriving DecidableEq, Repr

/-- The field types of 30_encoding.md R63 (`u16` is named there and used by no variant). -/
inductive FieldType where
  | u8 | u16 | u32 | bytes | status
  deriving DecidableEq, Repr

/-- The value of one field. -/
inductive FieldValue where
  | u8 (v : Byte)
  | u16 (v : U16)
  | u32 (v : U32)
  | bytes (v : List Byte)
  | status (v : StatusValue)
  deriving DecidableEq, Repr

/-- Who sends a bare ACK: the table's row has both directions (43_commands.md R155; log 12). -/
inductive Sender where
  | target | block
  deriving DecidableEq, Repr

/-- The wire items, one constructor per row of spec/opcode_table.json, operands in declared order (30_encoding.md R75). -/
inductive Instr where
  | ping
  | download (address size : U32)
  | getStatus
  | sendData (data : List Byte)
  | reset
  | sectorErase (address : U32)
  | crc32 (address size repeats : U32)
  | getChipId
  | memoryRead (address : U32) (accessType count : Byte)
  | memoryWrite (address size : U32) (data : List Byte)
  | bankErase
  | chipIdReply (value : U32)
  | crc32Reply (value : U32)
  | commandStatus (value : StatusValue)
  | ack (sender : Sender)
  | nack
  deriving DecidableEq, Repr

/-- What a decoder of wire bytes must be told (30_encoding.md R73: a reply is decoded by expectation, not by
inspection; log 4). -/
inductive Expectation where
  | request | chipIdReply | crc32Reply | commandStatus | sentinel | hostAck
  deriving DecidableEq, Repr

end Sys2Proof
end

