-- ==== Sys2Proof/Machine/Variants.lean ====
section
/-! DEFINITION. The per-variant constants of 30_encoding.md R64, the command byte map of R69, the status byte of R72 and the
constants of the sequencer (44_sequencer.md R193). -/

namespace Sys2Proof.Machine

open Sys2Proof

/-- The ACK sentinel (30_encoding.md R62). -/
def ackByte : Byte := 0xCC#8

/-- The NACK sentinel (30_encoding.md R62). -/
def nackByte : Byte := 0x33#8

/-- CMD of a variant; a reply has none (30_encoding.md R64, R71). -/
def cmdOf : Variant → Option Byte
  | .ping => some 0x20#8
  | .download => some 0x21#8
  | .getStatus => some 0x23#8
  | .sendData => some 0x24#8
  | .reset => some 0x25#8
  | .sectorErase => some 0x26#8
  | .crc32 => some 0x27#8
  | .getChipId => some 0x28#8
  | .memoryRead => some 0x2A#8
  | .memoryWrite => some 0x2B#8
  | .bankErase => some 0x2C#8
  | .chipIdReply => none
  | .crc32Reply => none
  | .commandStatus => none

/-- The command byte map (30_encoding.md R69); an unassigned value names no variant (U2). -/
def variantOfCmd (c : Byte) : Option Variant :=
  if c = 0x20#8 then some .ping
  else if c = 0x21#8 then some .download
  else if c = 0x23#8 then some .getStatus
  else if c = 0x24#8 then some .sendData
  else if c = 0x25#8 then some .reset
  else if c = 0x26#8 then some .sectorErase
  else if c = 0x27#8 then some .crc32
  else if c = 0x28#8 then some .getChipId
  else if c = 0x2A#8 then some .memoryRead
  else if c = 0x2B#8 then some .memoryWrite
  else if c = 0x2C#8 then some .bankErase
  else none

/-- MIN (30_encoding.md R64; for MemoryWrite see 90_conflicts.md C6). -/
def minLen : Variant → Nat
  | .ping => 3
  | .download => 11
  | .getStatus => 3
  | .sendData => 4
  | .reset => 3
  | .sectorErase => 7
  | .crc32 => 15
  | .getChipId => 3
  | .memoryRead => 9
  | .memoryWrite => 9
  | .bankErase => 3
  | .chipIdReply => 7
  | .crc32Reply => 7
  | .commandStatus => 4

/-- MAX (30_encoding.md R64). -/
def maxLen : Variant → Nat
  | .ping => 3
  | .download => 11
  | .getStatus => 3
  | .sendData => 255
  | .reset => 3
  | .sectorErase => 7
  | .crc32 => 15
  | .getChipId => 3
  | .memoryRead => 9
  | .memoryWrite => 255
  | .bankErase => 3
  | .chipIdReply => 7
  | .crc32Reply => 7
  | .commandStatus => 4

/-- IDLE (30_encoding.md R64). -/
def idleOf : Variant → Nat
  | .ping => 36
  | .download => 24
  | .getStatus => 32
  | .sendData => 0
  | .reset => 32
  | .sectorErase => 0
  | .crc32 => 0
  | .getChipId => 42
  | .memoryRead => 272
  | .memoryWrite => 50
  | .bankErase => 0
  | .chipIdReply => 0
  | .crc32Reply => 0
  | .commandStatus => 0

/-- The declared fields, in order (30_encoding.md R64). -/
def fieldsOf : Variant → List FieldType
  | .ping => []
  | .download => [.u32, .u32]
  | .getStatus => []
  | .sendData => [.bytes]
  | .reset => []
  | .sectorErase => [.u32]
  | .crc32 => [.u32, .u32, .u32]
  | .getChipId => []
  | .memoryRead => [.u32, .u8, .u8]
  | .memoryWrite => [.u32, .u32, .bytes]
  | .bankErase => []
  | .chipIdReply => [.u32]
  | .crc32Reply => [.u32]
  | .commandStatus => [.status]

/-- The code of a status (30_encoding.md R72). -/
def statusCode : StatusValue → Byte
  | .default => 0x00#8
  | .success => 0x40#8
  | .unknownCmd => 0x41#8
  | .invalidCmd => 0x42#8
  | .invalidAddr => 0x43#8
  | .flashFail => 0x44#8

/-- The status a byte decodes to; any byte outside the declared set is none (30_encoding.md R72). -/
def statusOfCode (b : Byte) : Option StatusValue :=
  if b = 0x00#8 then some .default
  else if b = 0x40#8 then some .success
  else if b = 0x41#8 then some .unknownCmd
  else if b = 0x42#8 then some .invalidCmd
  else if b = 0x43#8 then some .invalidAddr
  else if b = 0x44#8 then some .flashFail
  else none

/-- The variant a wire item is built from; a sentinel has none (30_encoding.md R62). -/
def variantOf : Instr → Option Variant
  | .ping => some .ping
  | .download _ _ => some .download
  | .getStatus => some .getStatus
  | .sendData _ => some .sendData
  | .reset => some .reset
  | .sectorErase _ => some .sectorErase
  | .crc32 _ _ _ => some .crc32
  | .getChipId => some .getChipId
  | .memoryRead _ _ _ => some .memoryRead
  | .memoryWrite _ _ _ => some .memoryWrite
  | .bankErase => some .bankErase
  | .chipIdReply _ => some .chipIdReply
  | .crc32Reply _ => some .crc32Reply
  | .commandStatus _ => some .commandStatus
  | .ack _ => none
  | .nack => none

/-- 10 ms after SectorErase, in nanoseconds (44_sequencer.md R193). -/
def sectorEraseWaitNs : U64 := 10000000#64

/-- 25 ms after BankErase (44_sequencer.md R193). -/
def bankEraseWaitNs : U64 := 25000000#64

/-- 20 ms after the Reset command's ACK (44_sequencer.md R193). -/
def resetWaitNs : U64 := 20000000#64

/-- 6500 ns for each data byte of SendData, a `u64` product (44_sequencer.md R193). -/
def sendDataWait (bytes : Nat) : U64 := BitVec.ofNat 64 (6500 * bytes)

/-- 500 ns for each byte of a Crc32 range, a `u64` product (44_sequencer.md R193). -/
def crc32Wait (size : U32) : U64 := BitVec.ofNat 64 (500 * size.toNat)

/-- The read window after an erase (70_reset_and_hazards.md R261, R262). -/
def eraseWindow : Nat := 28

/-- The read window after SendData (70_reset_and_hazards.md R263). -/
def sendDataWindow : Nat := 32

/-- The read window after Crc32 (70_reset_and_hazards.md R264). -/
def crc32Window : Nat := 16

end Sys2Proof.Machine
end

