-- ==== Sys2Proof/Machine/Operands.lean ====
section
/-! DEFINITION. Every operand form: how a field's value becomes bytes and how the payload becomes field values (30_encoding.md
R63, R65; DECODE_FIELDS of 41_framer.md R117). -/

namespace Sys2Proof.Machine

open Sys2Proof

/-- Why a payload does not decode: it ends before a field is complete, or its status byte is outside the set (R117). -/
inductive FieldError where
  | tooShort
  | badStatus (b : Byte)
  deriving DecidableEq, Repr

/-- `enc` of 30_encoding.md R63. -/
def encField : FieldValue → List Byte
  | .u8 v => [v]
  | .u16 v => be16 v
  | .u32 v => be32 v
  | .bytes v => v
  | .status v => [statusCode v]

/-- The fields laid out in order with no padding (30_encoding.md R63). -/
def encFields (vs : List FieldValue) : List Byte := vs.flatMap encField

/-- Does a value have a declared type? -/
def hasType : FieldValue → FieldType → Bool
  | .u8 _, .u8 => true
  | .u16 _, .u16 => true
  | .u32 _, .u32 => true
  | .bytes _, .bytes => true
  | .status _, .status => true
  | _, _ => false

/-- Do the values have the declared types, in order? -/
def haveTypes : List FieldValue → List FieldType → Bool
  | [], [] => true
  | v :: vs, t :: ts => hasType v t && haveTypes vs ts
  | _, _ => false

/-- The field values of a wire item, in declared order (30_encoding.md R64). -/
def fieldValues : Instr → List FieldValue
  | .ping => []
  | .download address size => [.u32 address, .u32 size]
  | .getStatus => []
  | .sendData data => [.bytes data]
  | .reset => []
  | .sectorErase address => [.u32 address]
  | .crc32 address size repeats => [.u32 address, .u32 size, .u32 repeats]
  | .getChipId => []
  | .memoryRead address accessType count => [.u32 address, .u8 accessType, .u8 count]
  | .memoryWrite address size data => [.u32 address, .u32 size, .bytes data]
  | .bankErase => []
  | .chipIdReply value => [.u32 value]
  | .crc32Reply value => [.u32 value]
  | .commandStatus value => [.status value]
  | .ack _ => []
  | .nack => []

/-- The payload of a wire item. -/
def payloadOf (i : Instr) : List Byte := encFields (fieldValues i)

/-- The wire item of a variant with given field values; none where they do not have its shape. -/
def ofFields : Variant → List FieldValue → Option Instr
  | .ping, [] => some .ping
  | .download, [.u32 a, .u32 s] => some (.download a s)
  | .getStatus, [] => some .getStatus
  | .sendData, [.bytes d] => some (.sendData d)
  | .reset, [] => some .reset
  | .sectorErase, [.u32 a] => some (.sectorErase a)
  | .crc32, [.u32 a, .u32 s, .u32 r] => some (.crc32 a s r)
  | .getChipId, [] => some .getChipId
  | .memoryRead, [.u32 a, .u8 t, .u8 c] => some (.memoryRead a t c)
  | .memoryWrite, [.u32 a, .u32 s, .bytes d] => some (.memoryWrite a s d)
  | .bankErase, [] => some .bankErase
  | .chipIdReply, [.u32 v] => some (.chipIdReply v)
  | .crc32Reply, [.u32 v] => some (.crc32Reply v)
  | .commandStatus, [.status v] => some (.commandStatus v)
  | _, _ => none

/-- DECODE_FIELDS without its register write: the fields in declared order consume the payload, a `bytes` field takes
the remainder (41_framer.md R117). -/
def decodeFields : List FieldType → List Byte → Except FieldError (List FieldValue)
  | [], _ => .ok []
  | .u8 :: ts, b :: rest => (decodeFields ts rest).map (fun vs => .u8 b :: vs)
  | .u8 :: _, [] => .error .tooShort
  | .u16 :: ts, a :: b :: rest => (decodeFields ts rest).map (fun vs => .u16 (fromBe16 a b) :: vs)
  | .u16 :: _, _ => .error .tooShort
  | .u32 :: ts, a :: b :: c :: d :: rest =>
    (decodeFields ts rest).map (fun vs => .u32 (fromBe32 a b c d) :: vs)
  | .u32 :: _, _ => .error .tooShort
  | .status :: ts, b :: rest =>
    match statusOfCode b with
    | some v => (decodeFields ts rest).map (fun vs => .status v :: vs)
    | none => .error (.badStatus b)
  | .status :: _, [] => .error .tooShort
  | .bytes :: ts, rest => (decodeFields ts []).map (fun vs => .bytes rest :: vs)

end Sys2Proof.Machine
end

