-- ==== Sys2Proof/WellFormed.lean ====
section
/-! DEFINITION. Which terms of `Instr` have an encoding: the length bound of 30_encoding.md R64 in terms of the operands. -/

namespace Sys2Proof

/-- The only range the codec enforces is the packet length (30_encoding.md R78), and only the two variable-size
variants can miss it (41_framer.md R113): SendData takes 1 to 252 bytes (43_commands.md R143), MemoryWrite 0 to 244
(R149). -/
def Instr.wellFormed : Instr → Bool
  | .ping => true
  | .download _ _ => true
  | .getStatus => true
  | .sendData data => decide (1 ≤ data.length ∧ data.length ≤ 252)
  | .reset => true
  | .sectorErase _ => true
  | .crc32 _ _ _ => true
  | .getChipId => true
  | .memoryRead _ _ _ => true
  | .memoryWrite _ _ data => decide (data.length ≤ 244)
  | .bankErase => true
  | .chipIdReply _ => true
  | .crc32Reply _ => true
  | .commandStatus _ => true
  | .ack _ => true
  | .nack => true

/-- The check as a proposition `decide` runs on. -/
abbrev WellFormed (i : Instr) : Prop := i.wellFormed = true

end Sys2Proof
end

