-- ==== Sys2Proof/Decode.lean ====
section
/-! DEFINITION. The decoder of wire items, total on any bytes and rejecting by name (30_encoding.md R60, R61, R62, R70, R73,
R77), and after it the encoder (R65). -/

namespace Sys2Proof

open Sys2Proof.Machine

/-- Why bytes are no wire item of the expected kind. -/
inductive DecodeError where
  /-- The bytes end before the packet does. -/
  | truncated
  /-- Byte 2 of a request is a CMD with no variant (30_encoding.md R69, R70 a; U2). -/
  | unassignedCmd (cmd : Byte)
  /-- The `len` byte is below the variant's range (30_encoding.md R70 d, e). -/
  | lenTooSmall (len : Byte)
  /-- The `len` byte is above the variant's range (30_encoding.md R70 d, e). -/
  | lenTooLarge (len : Byte)
  /-- The checksum byte is not the sum of the covered bytes (41_framer.md R110). -/
  | badChecksum (received : Byte)
  /-- The payload ends before a declared field is complete (90_conflicts.md C6). -/
  | fieldTooShort
  /-- The status byte is outside the enumeration (30_encoding.md R70 c). -/
  | badStatus (b : Byte)
  /-- The field values are not of the variant's shape; no byte sequence gives this. -/
  | fieldShape
  /-- A byte other than the expected sentinel (30_encoding.md R62). -/
  | notASentinel (b : Byte)
  deriving DecidableEq, Repr

/-- The fields of a packet whose length and checksum are right. -/
def decodePayload (v : Variant) (pay : List Byte) : Except DecodeError Instr :=
  match decodeFields (fieldsOf v) pay with
  | .error .tooShort => .error .fieldTooShort
  | .error (.badStatus b) => .error (.badStatus b)
  | .ok vals =>
    match ofFields v vals with
    | some i => .ok i
    | none => .error .fieldShape

/-- A request packet `[len][checksum][cmd][payload]`: the variant by CMD, then the length, then the checksum
(30_encoding.md R60, R77). -/
def decodeRequest : List Byte → Except DecodeError Instr
  | len :: cks :: cmd :: rest =>
    match variantOfCmd cmd with
    | none => .error (.unassignedCmd cmd)
    | some v =>
      if len.toNat < minLen v then .error (.lenTooSmall len)
      else if maxLen v < len.toNat then .error (.lenTooLarge len)
      else if rest.length < len.toNat - 3 then .error .truncated
      else if checksum (cmd :: rest.take (len.toNat - 3)) ≠ cks then .error (.badChecksum cks)
      else decodePayload v (rest.take (len.toNat - 3))
  | _ => .error .truncated

/-- A reply packet `[len][checksum][payload]` of an expected variant, whose `len` is one less than MIN and MAX count
(30_encoding.md R61, R64, R73). -/
def decodeReply (v : Variant) : List Byte → Except DecodeError Instr
  | len :: cks :: rest =>
    if len.toNat < minLen v - 1 then .error (.lenTooSmall len)
    else if maxLen v - 1 < len.toNat then .error (.lenTooLarge len)
    else if rest.length < len.toNat - 2 then .error .truncated
    else if checksum (rest.take (len.toNat - 2)) ≠ cks then .error (.badChecksum cks)
    else decodePayload v (rest.take (len.toNat - 2))
  | _ => .error .truncated

/-- A bare sentinel (30_encoding.md R62). -/
def decodeSentinel : List Byte → Except DecodeError Instr
  | b :: _ =>
    if b = ackByte then .ok (.ack .target)
    else if b = nackByte then .ok .nack
    else .error (.notASentinel b)
  | [] => .error .truncated

/-- The host's ACK (40_transport.md R93). -/
def decodeHostAck : List Byte → Except DecodeError Instr
  | b :: _ => if b = ackByte then .ok (.ack .block) else .error (.notASentinel b)
  | [] => .error .truncated

/-- The decoder: the bytes of one wire item, first byte first; bytes after it are not looked at. -/
def decode : Expectation → List Byte → Except DecodeError Instr
  | .request, s => decodeRequest s
  | .chipIdReply, s => decodeReply .chipIdReply s
  | .crc32Reply, s => decodeReply .crc32Reply s
  | .commandStatus, s => decodeReply .commandStatus s
  | .sentinel, s => decodeSentinel s
  | .hostAck, s => decodeHostAck s

/-- What a decoder must expect to read a wire item. -/
def expectationOf : Instr → Expectation
  | .chipIdReply _ => .chipIdReply
  | .crc32Reply _ => .crc32Reply
  | .commandStatus _ => .commandStatus
  | .ack .target => .sentinel
  | .ack .block => .hostAck
  | .nack => .sentinel
  | .ping => .request
  | .download _ _ => .request
  | .getStatus => .request
  | .sendData _ => .request
  | .reset => .request
  | .sectorErase _ => .request
  | .crc32 _ _ _ => .request
  | .getChipId => .request
  | .memoryRead _ _ _ => .request
  | .memoryWrite _ _ _ => .request
  | .bankErase => .request

/-- `[len][checksum][cmd][payload]` with `len = 3 + |payload|` (30_encoding.md R60). -/
def requestPacket (cmd : Byte) (pay : List Byte) : List Byte :=
  BitVec.ofNat 8 (3 + pay.length) :: checksum (cmd :: pay) :: cmd :: pay

/-- `[len][checksum][payload]` with `len = 2 + |payload|` (30_encoding.md R61). -/
def replyPacket (pay : List Byte) : List Byte :=
  BitVec.ofNat 8 (2 + pay.length) :: checksum pay :: pay

/-- The encoder: the bytes of a wire item. The IDLE zeros that follow a request in the same transfer are no part of
its packet (30_encoding.md R60, R66). -/
def encode : Instr → List Byte
  | .ping => requestPacket 0x20#8 (payloadOf .ping)
  | .download a s => requestPacket 0x21#8 (payloadOf (.download a s))
  | .getStatus => requestPacket 0x23#8 (payloadOf .getStatus)
  | .sendData d => requestPacket 0x24#8 (payloadOf (.sendData d))
  | .reset => requestPacket 0x25#8 (payloadOf .reset)
  | .sectorErase a => requestPacket 0x26#8 (payloadOf (.sectorErase a))
  | .crc32 a s r => requestPacket 0x27#8 (payloadOf (.crc32 a s r))
  | .getChipId => requestPacket 0x28#8 (payloadOf .getChipId)
  | .memoryRead a t c => requestPacket 0x2A#8 (payloadOf (.memoryRead a t c))
  | .memoryWrite a s d => requestPacket 0x2B#8 (payloadOf (.memoryWrite a s d))
  | .bankErase => requestPacket 0x2C#8 (payloadOf .bankErase)
  | .chipIdReply v => replyPacket (payloadOf (.chipIdReply v))
  | .crc32Reply v => replyPacket (payloadOf (.crc32Reply v))
  | .commandStatus v => replyPacket (payloadOf (.commandStatus v))
  | .ack _ => [ackByte]
  | .nack => [nackByte]

/-- The bytes of an opcode-table word: `nbits/8` bytes, the most significant byte of the number first, because the
table's numbers are `byte0 * 2^16 + byte1 * 2^8 + byte2` (30_encoding.md R77; log 3). -/
def wordBytes : Nat → Nat → List Byte
  | 0, _ => []
  | n + 1, w => BitVec.ofNat 8 (w / 256 ^ n) :: wordBytes n w

/-- The header bytes of a request that no mask of the table covers, completed where a table word leaves them 0: `len`
of the two variable-size rows by the least length their fields can have, the checksum byte by the checksum of the
packet (30_encoding.md R77; log 3). Only table words go through this, never the bytes of a request. -/
def completeHeader : List Byte → List Byte
  | len :: cks :: cmd :: rest =>
    let len' := if len = 0#8 then (if cmd = 0x24#8 then 4#8 else if cmd = 0x2B#8 then 11#8 else len) else len
    let cks' := if cks = 0#8 then checksum (cmd :: rest.take (len'.toNat - 3)) else cks
    len' :: cks' :: cmd :: rest
  | s => s

/-- The expectation under which an opcode-table word is read: three bytes are a request's header; one byte is a
sentinel or the `len` byte of a reply. The two reply rows with the same word (ChipIdReply and Crc32Reply, 0x06) cannot
be told apart by a word; the first row of the table is taken (log 3). -/
def tableExpectation (nbits w : Nat) : Expectation :=
  if nbits ≤ 8 then
    if w % 256 = 0xCC ∨ w % 256 = 0x33 then .sentinel
    else if w % 256 = 0x03 then .commandStatus
    else .chipIdReply
  else .request

/-- The bytes of an opcode-table word with every byte above it 0, up to the longest packet (255 bytes). -/
def tableBytes (nbits w : Nat) : List Byte :=
  if nbits ≤ 8 then wordBytes 1 w ++ zeros 254
  else completeHeader (wordBytes (nbits / 8) w ++ zeros 252)

/-- The instruction the decoder reads from an opcode-table word. -/
def decodeTableWord (nbits w : Nat) : Option Instr :=
  match decode (tableExpectation nbits w) (tableBytes nbits w) with
  | .ok i => some i
  | .error _ => none

end Sys2Proof
end

