-- ==== Sys2Proof/Machine/Crc.lean ====
section
/-! DEFINITION. The CRC-32 of 42_crc32.md R130 and R131, bit by bit, and the table-driven form R131 allows. -/

namespace Sys2Proof.Machine

open Sys2Proof

/-- The reflected polynomial (42_crc32.md R130). -/
def crcPoly : U32 := 0xEDB88320#32

/-- One shift step (42_crc32.md R131). -/
def crcShift (c : U32) : U32 := if c.getLsbD 0 then (c >>> 1) ^^^ crcPoly else c >>> 1

/-- Eight shift steps. -/
def crcShift8 (c : U32) : U32 :=
  crcShift (crcShift (crcShift (crcShift (crcShift (crcShift (crcShift (crcShift c)))))))

/-- CRCACC after one byte. -/
def crcByte (c : U32) (b : Byte) : U32 := crcShift8 (c ^^^ b.setWidth 32)

/-- CRCACC after a byte sequence, from a given value. -/
def crcRun (c : U32) (s : List Byte) : U32 := s.foldl crcByte c

/-- CRCACC at the end of CRC32: the initial value is 0xFFFFFFFF (42_crc32.md R130). -/
def crcAcc (s : List Byte) : U32 := crcRun 0xFFFFFFFF#32 s

/-- `CRC32` of a byte sequence: the final XOR of CRCACC (42_crc32.md R131). -/
def crc32 (s : List Byte) : U32 := crcAcc s ^^^ 0xFFFFFFFF#32

/-- Entry `k` of the table of 42_crc32.md R131. -/
def crcTable (k : Byte) : U32 := crcShift8 (k.setWidth 32)

/-- CRCACC after one byte, by the table (42_crc32.md R131). -/
def crcByteByTable (c : U32) (b : Byte) : U32 := (c >>> 8) ^^^ crcTable ((c ^^^ b.setWidth 32).setWidth 8)

/-- `CRC32` by the table. -/
def crc32ByTable (s : List Byte) : U32 := s.foldl crcByteByTable 0xFFFFFFFF#32 ^^^ 0xFFFFFFFF#32

end Sys2Proof.Machine
end

