-- ==== Sys2Proof/Machine/Image.lean ====
section
/-! DEFINITION. The image input (45_image_input.md): segments, MemRead, the chunk split, and the record segmentation of R204,
which is outside the block (00_scope.md R4 e; log 23). -/

namespace Sys2Proof.Machine

open Sys2Proof

/-- A segment (45_image_input.md R200): its absolute byte address, its bytes and its pre-computed CRC-32. -/
structure Segment where
  start : U32
  data : List Byte
  crc : U32
  deriving DecidableEq, Repr

/-- A firmware image: segments in image order (45_image_input.md R201). -/
abbrev Image := List Segment

/-- The bounds a segment value must satisfy (45_image_input.md R200, U8, D13): 1 to 0xFFFF_FFFF bytes, none beyond
address 0xFFFF_FFFF. Its `crc` is not checked (42_crc32.md R132, 70_reset_and_hazards.md R274). -/
def segmentInBounds (g : Segment) : Bool :=
  decide (1 ≤ g.data.length ∧ g.data.length ≤ 0xFFFFFFFF ∧ g.start.toNat + g.data.length ≤ 2 ^ 32)

/-- Every segment of an image is in bounds. -/
def imageInBounds (img : Image) : Bool := img.all segmentInBounds

/-- The segment invariant of 42_crc32.md R132, which the block relies on nowhere. -/
def segmentHonest (g : Segment) : Bool := decide (g.crc = crc32 g.data)

/-- Does a segment hold the `n` bytes at `addr` (45_image_input.md R200)? -/
def segmentHolds (g : Segment) (addr n : Nat) : Bool :=
  decide (g.start.toNat ≤ addr ∧ addr + n ≤ g.start.toNat + g.data.length)

/-- The bytes of a segment from address `addr`, `n` of them (45_image_input.md R200). -/
def segmentRead (g : Segment) (addr n : Nat) : List Byte := (g.data.drop (addr - g.start.toNat)).take n

/-- `MemRead(addr, n)` (00_scope.md R8): the bytes from the first segment that holds all of them; no segment, no
meaning (20_memory.md R51; log 15). No bytes are read of an empty range. -/
def memRead (img : Image) (addr n : Nat) : Option (List Byte) :=
  if n = 0 then some [] else (img.find? (fun g => segmentHolds g addr n)).map (fun g => segmentRead g addr n)

/-- The loop of WriteSegment's step 2, as the list of its chunks (44_sequencer.md R177), by at most `fuel` rounds. -/
def chunksFuel (k : Nat) : Nat → List Byte → List (List Byte)
  | 0, _ => []
  | _ + 1, [] => []
  | fuel + 1, b :: rest => (b :: rest).take k :: chunksFuel k fuel ((b :: rest).drop k)

/-- The chunks of a segment's data: contiguous, of `k` bytes but for the last (44_sequencer.md R177). A round takes at
least one byte when `k` is at least 1, so as many rounds as bytes are enough. -/
def chunksOf (k : Nat) (data : List Byte) : List (List Byte) := chunksFuel k data.length data

/-- Is a segment in the RAM aperture: does its start have a bit of the mask (10_state.md R26)? -/
def inAperture (mask : U32) (g : Segment) : Bool := decide (g.start &&& mask ≠ 0#32)

/-- The accepted record types of an Intel HEX file (45_image_input.md R203). -/
inductive HexRecord where
  | data (offset : U16) (bytes : List Byte)
  | endOfFile
  | extendedSegmentAddress (v : U16)
  | extendedLinearAddress (v : U16)
  | startSegmentAddress (v : U32)
  | other (kind : Byte)
  deriving DecidableEq, Repr

/-- How building an image fails (45_image_input.md R206). -/
inductive ImageError where
  /-- `ImageStructure`: a data record after an end-of-file record. -/
  | endOfFileInMiddleOfFile
  /-- A record type that is not accepted aborts. -/
  | unacceptedRecord (kind : Byte)
  deriving DecidableEq, Repr

/-- The working state of the segmentation (45_image_input.md R204). -/
structure HexState where
  base : U32
  cur : Option (U32 × List Byte)
  eofSeen : Bool
  out : Image
  deriving DecidableEq, Repr

/-- A closed run as a segment, its CRC computed (45_image_input.md R204). -/
def closeRun : Option (U32 × List Byte) → Image
  | some (s, d) => [{ start := s, data := d, crc := crc32 d }]
  | none => []

/-- A data record: append to the running segment or close it and start a new one (45_image_input.md R204). -/
def hexData (h : HexState) (a : U32) (b : List Byte) : HexState :=
  match h.cur with
  | some (s, d) =>
    if a.toNat = s.toNat + d.length then { h with cur := some (s, d ++ b) }
    else { h with out := h.out ++ closeRun h.cur, cur := some (a, b) }
  | none => { h with cur := some (a, b) }

/-- One record (45_image_input.md R204): the absolute address is a bitwise OR. -/
def hexStep (h : HexState) : HexRecord → Except ImageError HexState
  | .data o b =>
    if h.eofSeen then .error .endOfFileInMiddleOfFile else .ok (hexData h (h.base ||| o.setWidth 32) b)
  | .extendedSegmentAddress v => .ok { h with base := v.setWidth 32 <<< 4 }
  | .extendedLinearAddress v => .ok { h with base := v.setWidth 32 <<< 16 }
  | .startSegmentAddress _ => .ok h
  | .endOfFile =>
    if h.eofSeen then .ok { h with out := h.out ++ closeRun h.cur, cur := none }
    else .ok { h with eofSeen := true }
  | .other k => .error (.unacceptedRecord k)

/-- All records in file order. -/
def hexSteps (h : HexState) : List HexRecord → Except ImageError HexState
  | [] => .ok h
  | r :: rest =>
    match hexStep h r with
    | .ok h' => hexSteps h' rest
    | .error e => .error e

/-- The image of a file's records (45_image_input.md R204): the last run is pushed only at a second end of file. -/
def buildImage (records : List HexRecord) : Except ImageError Image :=
  (hexSteps { base := 0#32, cur := none, eofSeen := false, out := [] } records).map (fun h => h.out)

end Sys2Proof.Machine
end

