-- ==== Sys2Proof/Machine/Memory.lean ====
section
/-! DEFINITION. A buffer as sparse memory: (index, byte) cells in one canonical form (20_memory.md R40). -/

namespace Sys2Proof.Machine

open Sys2Proof

/-- The cells of a buffer, indices strictly rising, none equal to what an unlisted index reads as. -/
abbrev Memory := List Host.Cell

/-- What an index nothing has written reads as: the spec leaves it unspecified (10_state.md R37, U12); DESIGN CHOICE,
unsafe (log 8). -/
def unlistedByte : Byte := 0#8

/-- The canonical form: rising indices, no listed byte equal to the unlisted one. -/
abbrev Memory.wf (m : Memory) : Prop :=
  m.Pairwise (fun a b => a.1 < b.1) ∧ ∀ c ∈ m, c.2 ≠ unlistedByte

/-- Every listed index lies below a capacity. -/
abbrev Memory.within (m : Memory) (cap : Nat) : Prop := ∀ c ∈ m, c.1 < cap

/-- Read one byte. -/
def Memory.read : Memory → Nat → Byte
  | [], _ => unlistedByte
  | (k, v) :: rest, a => if k = a then v else Memory.read rest a

/-- Read `n` bytes from index `base`: `X[base .. base+n]`. -/
def Memory.readRange (m : Memory) (base n : Nat) : List Byte :=
  (List.range n).map (fun i => Memory.read m (base + i))

/-- The canonical cells of a byte sequence laid at `base`. -/
def Memory.cellsOf : Nat → List Byte → Memory
  | _, [] => []
  | base, b :: rest =>
    if b = unlistedByte then Memory.cellsOf (base + 1) rest
    else (base, b) :: Memory.cellsOf (base + 1) rest

/-- Write a byte sequence at `base`: `X[base .. base+|s|] <- s`. -/
def Memory.writeRange (m : Memory) (base : Nat) (s : List Byte) : Memory :=
  m.filter (fun c => decide (c.1 < base)) ++ Memory.cellsOf base s
    ++ m.filter (fun c => decide (base + s.length ≤ c.1))

end Sys2Proof.Machine
end

