-- ==== Sys2Proof/Machine/State.lean ====
section
/-! DEFINITION. The block's state as plain data, every piece of it that 10_state.md names, its reset, and the reasons a step can
stop. -/

namespace Sys2Proof.Machine

open Sys2Proof

/-- SESSION (10_state.md R18): six states, no value 6 or 7 (U14). -/
inductive Session where
  | idle | entered | initialized | operational | reset | faulted
  deriving DecidableEq, Repr

/-- The two output lines (10_state.md R29, R30). -/
inductive Pin where
  | resetN | blEnN
  deriving DecidableEq, Repr

/-- An event of TRACE (10_state.md R34), stamped with `now`. A level is true for high. -/
inductive Event where
  | line (pin : Pin) (level : Bool) (t : U64)
  | xfer (tx rx : List Byte) (t0 t1 : U64)
  | sleep (requested t0 t1 : U64)
  deriving DecidableEq, Repr

/-- The sub-causes of BoundViolation (60_exceptions.md R220). -/
inductive BoundCause where
  | atSerialize | minPayloadNotMet | maxPayloadExceeded
  deriving DecidableEq, Repr

/-- The sub-causes of Verification with their values (60_exceptions.md R220). -/
inductive VerifyCause where
  | crcMismatch (crcLocal crcDevice : U32)
  | statusNotSuccess (status : StatusValue)
  | chipIdMismatch (chipid expected : U32)
  deriving DecidableEq, Repr

/-- The error kinds of 60_exceptions.md R220 with the information returned with them. `BootloaderProtocol` is the
wrapper of `Response.protocol` (R227). -/
inductive ErrorKind where
  | boundViolation (cause : BoundCause) (len : Nat)
  | noAck
  | nack (scanpos : U16)
  | badChecksum (received computed : Byte)
  | badCmdByte
  | packetTooShort
  | invalidStatusCode (b : Byte)
  | invalidCmdStatus
  | transport
  | hexParse
  | imageStructure
  | verification (cause : VerifyCause)
  deriving DecidableEq, Repr

/-- Why construction fails, so that no block exists (70_reset_and_hazards.md R250, R254). -/
inductive ConstructionFailure where
  | illegalConfiguration
  | error (k : ErrorKind)
  deriving DecidableEq, Repr

/-- What an operation returns when it completes. -/
inductive OpValue where
  | unit
  | byte (v : Byte)
  | word (v : U32)
  | bool (v : Bool)
  | fields (vs : List FieldValue)
  deriving DecidableEq, Repr

/-- What the controller received from the last operation (60_exceptions.md R227, R230; log 18). -/
inductive Response where
  | none
  | value (v : OpValue)
  | error (k : ErrorKind)
  | protocol (k : ErrorKind)
  deriving DecidableEq, Repr

/-- The block operations (00_scope.md R6), invoked with operands. `loadTx` is the controller's loading of TXBUF and
TXLEN (40_transport.md R91; log 19). -/
inductive BlockOp where
  | loadTx (bytes : List Byte)
  | transfer
  | read (n : U16)
  | hostAck
  | wait (d : U64)
  | enterBootloader
  | checksum (s : List Byte)
  | serialize (i : Instr)
  | ackScan
  | parseReply (v : Variant)
  | crc32 (image : Image) (addr : U32) (n : Nat)
  | crcCompare
  deriving DecidableEq, Repr

/-- The sequencer procedures and public operations (44_sequencer.md). `flash_firmware` is `flashImage`, `reset()` is
`systemReset`, `enter_bootloader()` is the block operation (R181). -/
inductive Procedure where
  | exchangeCommand (i : Instr)
  | checkStatus
  | initialise
  | eraseSector (address : U32)
  | bankErase
  | sendChunk (chunk : List Byte)
  | crcQuery (address size : U32)
  | systemReset
  | writeSegment (seg : Segment)
  | flashImage (image : Image)
  | imageMatches (image : Image)
  | needToUpdate (image : Image)
  deriving DecidableEq, Repr

/-- What the controller hands in, one at a time (00_scope.md R7; log 2): a wire item as bytes, a wire item by its
typed fields (30_encoding.md R75), a block operation, a procedure. -/
inductive Request where
  | wire (e : Expectation) (bytes : List Byte)
  | item (i : Instr)
  | op (o : BlockOp)
  | procedure (p : Procedure)
  deriving DecidableEq, Repr

/-- A source of draws (00_scope.md R8; log 5): values handed in from outside, and how many were drawn beyond them. -/
structure Tape (α : Type) where
  given : List α
  drawn : Nat
  deriving DecidableEq, Repr

/-- The three things the outside decides (log 5). -/
structure Environment where
  /-- The bytes the target answers (10_state.md R32). -/
  miso : Tape Byte
  /-- Which Exchange or LineWrite fails (40_transport.md R90, R95). -/
  io : Tape Bool
  /-- The time at which a timed primitive ends (40_transport.md R90, R94). -/
  clock : Tape U64
  deriving DecidableEq, Repr

/-- The configuration registers (10_state.md R20 to R28) and the spec's parameters (00_scope.md R5), fixed at
construction. SPI_MODE and BITS_PER_WORD are hardwired and not stored. -/
structure Configuration where
  spiClockHz : U32
  resetLowMs : U32
  resetHighMs : U32
  blEntryQuietMs : U32
  ramApertureMask : U32
  expectedChipId : U32
  maxPayload : Byte
  /-- BUF_CAP less its least value 305 (log 9). -/
  bufExtra : Nat
  ioMayFail : Bool
  csPresent : Bool
  deriving DecidableEq, Repr

/-- The state of the block. -/
structure State where
  /-- TXBUF (10_state.md R10). -/
  txbuf : Memory
  /-- TXLEN (R10). -/
  txlen : U16
  /-- RXBUF (R11). -/
  rxbuf : Memory
  /-- RXLEN (R11). -/
  rxlen : U16
  /-- SCANPOS (R12). -/
  scanpos : U16
  /-- RLEN (R13). -/
  rlen : Byte
  /-- RCKS (R13). -/
  rcks : Byte
  /-- RPAY (R14). -/
  rpay : Memory
  /-- RPAYLEN (R14). -/
  rpaylen : Byte
  /-- CKSACC (R15). -/
  cksacc : Byte
  /-- CRCACC (R16). -/
  crcacc : U32
  /-- CRC_LOCAL (R16). -/
  crcLocal : U32
  /-- CRC_DEVICE (R16). -/
  crcDevice : U32
  /-- CHIPID (R17). -/
  chipid : U32
  /-- STATUS (R17). -/
  status : StatusValue
  /-- SESSION (R18). -/
  session : Session
  /-- ACKF (R19). -/
  ackf : Bool
  /-- NACKF (R19). -/
  nackf : Bool
  /-- CRC_MATCH (R19). -/
  crcMatch : Bool
  /-- FAULT (R19). -/
  fault : Bool
  /-- ERR (R19). -/
  err : BitVec 4
  /-- The configuration registers (R20 to R28). -/
  cfg : Configuration
  /-- RESET_N, true for high (R30). -/
  resetN : Bool
  /-- BL_EN_N, true for high (R30). -/
  blEnN : Bool
  /-- `now`, in nanoseconds (R33; log 6). -/
  now : U64
  /-- TRACE, oldest first (R34). -/
  trace : List Event
  /-- The model's own: what the outside decides (log 5). -/
  env : Environment
  /-- The model's own: CRC_LOCAL has been written (U9; log 14). -/
  crcLocalWritten : Bool
  /-- The model's own: CRC_DEVICE has been written (U9; log 14). -/
  crcDeviceWritten : Bool
  /-- The model's own: the controller's requests, oldest first (log 2). -/
  pending : List Request
  /-- The model's own: what the controller received last (log 18). -/
  result : Response
  deriving DecidableEq, Repr

/-- Why the machine stops with a fault. -/
inductive Fault where
  /-- The CRC32 operation reads image bytes that no one segment holds: such a read has no meaning (20_memory.md R51,
  42_crc32.md R131). Raised by `execOp` on `.crc32`. Safe: the block gives no value. -/
  | imageHole (addr : U32) (n : Nat)
  deriving DecidableEq, Repr

/-- Why a step is refused: the spec says the situation has no step (treatment `refuse` of
93_implementation_defined.md). Each is safe: no state follows. -/
inductive Refusal where
  /-- An instruction of `exec` without a meaning: none in this model. -/
  | notModelled (mnemonic : String)
  /-- SESSION does not accept the operation, wire item or procedure (40_transport.md R99, 44_sequencer.md R191). Raised by
  every meaning that needs the wire. -/
  | sessionState (s : Session)
  /-- A transfer of no bytes (40_transport.md R91, R92, U4). Raised by TRANSFER, READ and the receiving of no byte. -/
  | emptyTransfer
  /-- A transfer or a load longer than BUF_CAP (40_transport.md R91, R92). Raised by TRANSFER, READ, `loadTx` and the
  receiving of more bytes. -/
  | transferTooLong
  /-- CRC_COMPARE before CRC_LOCAL and CRC_DEVICE have both been written: "a model refuses it" (42_crc32.md R135;
  10_state.md R16; U9). Raised by CRC_COMPARE. -/
  | crcUnwritten
  /-- An image value out of bounds (45_image_input.md R200, U8, D13). Raised by the CRC32 operation and by the procedures
  that take segments. -/
  | imageOutOfBounds
  /-- SERIALIZE or Exchange command of a wire item that is no request (41_framer.md R112). Raised by both. -/
  | notARequest
  /-- Bytes of a request or a host ACK that the block has no way to build: an unassigned CMD (30_encoding.md R69, R70 a,
  U2), a checksum or a byte count that SERIALIZE does not give (41_framer.md R112), another byte than 0xCC (40_transport.md
  R93). Raised by `step`. Bytes the target sends are never refused for what they are. -/
  | undecodable (e : DecodeError)
  deriving DecidableEq, Repr

/-- The least BUF_CAP (00_scope.md R5, D8). -/
def leastBufCap : Nat := 305

/-- BUF_CAP: at least 305, and no more than the 16-bit TXLEN can count (10_state.md R10; log 9). -/
def bufCapOf (c : Configuration) : Nat := min (leastBufCap + c.bufExtra) 65535

/-- The defaults of 00_scope.md R5. -/
def defaultConfiguration : Configuration where
  spiClockHz := 4000000#32
  resetLowMs := 15#32
  resetHighMs := 35#32
  blEntryQuietMs := 20#32
  ramApertureMask := 0x20000000#32
  expectedChipId := 0x20028000#32
  maxPayload := 252#8
  bufExtra := 0
  ioMayFail := true
  csPresent := Config.csPresent

/-- The legal ranges checked at construction (10_state.md R20 to R28, 70_reset_and_hazards.md R250). -/
def configurationLegal (c : Configuration) : Bool :=
  decide (1 ≤ c.spiClockHz.toNat ∧ c.spiClockHz.toNat ≤ 4000000 ∧ 15 ≤ c.resetLowMs.toNat ∧
    35 ≤ c.resetHighMs.toNat ∧ 20 ≤ c.blEntryQuietMs.toNat ∧ 1 ≤ c.maxPayload.toNat ∧ c.maxPayload.toNat ≤ 252)

/-- Right after construction with a configuration (10_state.md R37, 70_reset_and_hazards.md R250). What R37 leaves
unspecified is zero here (DESIGN CHOICE, unsafe: log 7, log 8). -/
def State.ofConfiguration (c : Configuration) : State where
  txbuf := []
  txlen := 0#16
  rxbuf := []
  rxlen := 0#16
  scanpos := 0#16
  rlen := 0#8
  rcks := 0#8
  rpay := []
  rpaylen := 0#8
  cksacc := 0#8
  crcacc := 0#32
  crcLocal := 0#32
  crcDevice := 0#32
  chipid := 0#32
  status := .default
  session := .idle
  ackf := false
  nackf := false
  crcMatch := false
  fault := false
  err := 0#4
  cfg := c
  resetN := true
  blEnN := true
  now := 0#64
  trace := []
  env := { miso := ⟨[], 0⟩, io := ⟨[], 0⟩, clock := ⟨[], 0⟩ }
  crcLocalWritten := false
  crcDeviceWritten := false
  pending := []
  result := .none

/-- The block right after reset, with the default configuration. -/
def State.reset : State := State.ofConfiguration defaultConfiguration

end Sys2Proof.Machine
end

