-- ==== Sys2Proof/Machine/Ops.lean ====
section
/-! DEFINITION. The named operations over state: draws, buffers, the three primitives of 40_transport.md, taking an error
(60_exceptions.md R230) and the return from it (R231), and the sequencing of operations. -/

namespace Sys2Proof.Machine

open Sys2Proof

/-! ## Construction -/

/-- Block reset is construction (70_reset_and_hazards.md R250, R254): an illegal configuration, or a link that does not
open, makes it fail and no block exists. Whether the link opens is the outside's to decide; the configuration is checked
first (DESIGN CHOICE: log 9). -/
def State.construct (opens : Bool) (c : Configuration) : Except ConstructionFailure State :=
  if configurationLegal c then
    if opens then .ok (State.ofConfiguration c) else .error (.error .transport)
  else .error .illegalConfiguration

/-! ## Draws (log 5) -/

/-- The k-th value still to come: from those handed in, then the free constant. -/
def Tape.ahead {α : Type} (free : Nat → α) (t : Tape α) (k : Nat) : α :=
  match t.given[k]? with
  | some v => v
  | none => free (t.drawn + (k - t.given.length))

/-- The source after `n` values were drawn. -/
def Tape.advance {α : Type} (t : Tape α) (n : Nat) : Tape α :=
  { given := t.given.drop n, drawn := t.drawn + (n - t.given.length) }

/-- The source with values put before all others. -/
def Tape.putFirst {α : Type} (t : Tape α) (vs : List α) : Tape α := { t with given := vs ++ t.given }

/-- The k-th byte the target will put on MISO. -/
def State.misoAhead (s : State) (k : Nat) : Byte := s.env.miso.ahead Config.freeMiso k

/-- The next `n` bytes of the target. -/
def State.capture (s : State) (n : Nat) : List Byte := (List.range n).map s.misoAhead

/-- Does the k-th I/O primitive from here fail? Never when IO_MAY_FAIL is false (40_transport.md R90, R95). -/
def State.ioFails (s : State) (k : Nat) : Bool := s.cfg.ioMayFail && s.env.io.ahead Config.freeIoFail k

/-- The k-th time drawn from here (log 5). -/
def State.clockAhead (s : State) (k : Nat) : U64 := s.env.clock.ahead Config.freeClock k

/-- After the draw `fail` of an I/O primitive; drawn only under IO_MAY_FAIL (40_transport.md R90, R95). -/
def State.afterIoDraw (s : State) : State :=
  if s.cfg.ioMayFail then { s with env := { s.env with io := s.env.io.advance 1 } } else s

/-! ## Acceptance -/

/-- The SESSION values in which the wire is open: TRANSFER, READ, HOST_ACK, ACK_SCAN, PARSE_REPLY and CRC_COMPARE are
accepted (40_transport.md R99). -/
def sessionOpen : Session → Bool
  | .idle => false
  | .entered => true
  | .initialized => true
  | .operational => true
  | .reset => false
  | .faulted => false

/-- The encoding of SESSION (10_state.md R18). -/
def sessionCode : Session → BitVec 3
  | .idle => 0#3
  | .entered => 1#3
  | .initialized => 2#3
  | .operational => 3#3
  | .reset => 4#3
  | .faulted => 5#3

/-! ## Buffers -/

/-- `TXBUF[0 .. |s|] <- s ; TXLEN <- |s|`. -/
def State.loadTx (s : State) (bytes : List Byte) : State :=
  { s with txbuf := s.txbuf.writeRange 0 bytes, txlen := BitVec.ofNat 16 bytes.length }

/-- `TXBUF[0 .. TXLEN]`. -/
def State.txBytes (s : State) : List Byte := s.txbuf.readRange 0 s.txlen.toNat

/-- `RXBUF[0 .. |rx|] <- rx ; RXLEN <- |rx|`. -/
def State.storeRx (s : State) (rx : List Byte) : State :=
  { s with rxbuf := s.rxbuf.writeRange 0 rx, rxlen := BitVec.ofNat 16 rx.length }

/-- `RXBUF[0 .. RXLEN]`: the window. -/
def State.rxBytes (s : State) : List Byte := s.rxbuf.readRange 0 s.rxlen.toNat

/-- `CKSACC <- c`. -/
def State.setCks (s : State) (c : Byte) : State := { s with cksacc := c }

/-- `RLEN <- l ; RCKS <- c`. -/
def State.setHeader (s : State) (l c : Byte) : State := { s with rlen := l, rcks := c }

/-- `RPAYLEN <- |pay| ; RPAY[0 .. |pay|] <- pay`. -/
def State.setPayload (s : State) (pay : List Byte) : State :=
  { s with rpay := s.rpay.writeRange 0 pay, rpaylen := BitVec.ofNat 8 pay.length }

/-- `CHIPID <- v`. -/
def State.setChipId (s : State) (v : U32) : State := { s with chipid := v }

/-- `CRC_DEVICE <- v`. -/
def State.setCrcDevice (s : State) (v : U32) : State := { s with crcDevice := v, crcDeviceWritten := true }

/-- `STATUS <- v`. -/
def State.setStatus (s : State) (v : StatusValue) : State := { s with status := v }

/-- `CRC_LOCAL <- v`. -/
def State.setCrcLocal (s : State) (v : U32) : State := { s with crcLocal := v, crcLocalWritten := true }

/-- `CRCACC <- acc ; CRC_LOCAL <- v`. -/
def State.setCrc (s : State) (acc v : U32) : State :=
  { s with crcacc := acc, crcLocal := v, crcLocalWritten := true }

/-- `SESSION <- x`. -/
def State.setSession (s : State) (x : Session) : State := { s with session := x }

/-- What the controller received. -/
def State.setResult (s : State) (r : Response) : State := { s with result := r }

/-- The controller's queue. -/
def State.setPending (s : State) (q : List Request) : State := { s with pending := q }

/-- The target will answer these bytes first (log 11). -/
def State.targetSends (s : State) (bytes : List Byte) : State :=
  { s with env := { s.env with miso := s.env.miso.putFirst bytes } }

/-! ## Configuration registers -/

/-- The nine configuration registers (10_state.md section 4). -/
inductive ConfigRegister where
  | spiClockHz | spiMode | bitsPerWord | resetLowMs | resetHighMs | blEntryQuietMs
  | ramApertureMask | expectedChipId | maxPayload
  deriving DecidableEq, Repr

/-- Reading a configuration register, widened with zeros: SPI_MODE and BITS_PER_WORD are hardwired (10_state.md R21,
R22). No operation writes one (section 4). -/
def readConfig (s : State) : ConfigRegister → U32
  | .spiClockHz => s.cfg.spiClockHz
  | .spiMode => 3#32
  | .bitsPerWord => 8#32
  | .resetLowMs => s.cfg.resetLowMs
  | .resetHighMs => s.cfg.resetHighMs
  | .blEntryQuietMs => s.cfg.blEntryQuietMs
  | .ramApertureMask => s.cfg.ramApertureMask
  | .expectedChipId => s.cfg.expectedChipId
  | .maxPayload => s.cfg.maxPayload.setWidth 32

/-! ## Taking an error and the return from it -/

/-- The code of an error kind (60_exceptions.md R220). -/
def errorCode : ErrorKind → BitVec 4
  | .boundViolation _ _ => 1#4
  | .noAck => 2#4
  | .nack _ => 3#4
  | .badChecksum _ _ => 4#4
  | .badCmdByte => 5#4
  | .packetTooShort => 6#4
  | .invalidStatusCode _ => 7#4
  | .invalidCmdStatus => 8#4
  | .transport => 9#4
  | .hexParse => 10#4
  | .imageStructure => 11#4
  | .verification _ => 13#4

/-- Error entry (60_exceptions.md R230): the first error is kept in ERR, FAULT is set, SESSION becomes Faulted, and
nothing else changes. -/
def State.takeError (s : State) (k : ErrorKind) : State :=
  { s with err := if s.err = 0#4 then errorCode k else s.err, fault := true, session := .faulted }

/-- The return's first step (40_transport.md R96, 60_exceptions.md R231): ENTER_BOOTLOADER clears FAULT, ERR, the flags
and STATUS. -/
def State.clearForEntry (s : State) : State :=
  { s with fault := false, err := 0#4, ackf := false, nackf := false, crcMatch := false, status := .default }

/-! ## Sequencing -/

/-- The end of an operation: the state it leaves and what it returns, or the error it raised. -/
structure Run (α : Type) where
  state : State
  out : Except ErrorKind α

/-- An operation that completes. -/
def Run.done {α : Type} (a : α) (s : State) : Run α := { state := s, out := .ok a }

/-- `raise k` (60_exceptions.md R230). -/
def Run.raise {α : Type} (k : ErrorKind) (s : State) : Run α := { state := s.takeError k, out := .error k }

/-- `r ; f`: an error ends the enclosing procedure (60_exceptions.md R230). -/
def Run.andThen {α β : Type} (r : Run α) (f : α → State → Run β) : Run β :=
  match r.out with
  | .ok a => f a r.state
  | .error k => { state := r.state, out := .error k }

/-- What the controller receives from an operation or a wire item it invoked directly (60_exceptions.md R227). -/
def Run.response {α : Type} (value : α → OpValue) (r : Run α) : Response :=
  match r.out with
  | .ok a => .value (value a)
  | .error k => .error k

/-- What the controller receives from a procedure: errors wrapped, Verification as it is (60_exceptions.md R227). -/
def Run.wrapped {α : Type} (value : α → OpValue) (r : Run α) : Response :=
  match r.out with
  | .ok a => .value (value a)
  | .error (.verification c) => .error (.verification c)
  | .error k => .protocol k

/-- The next state after an operation or a wire item. -/
def Run.finish {α : Type} (value : α → OpValue) (r : Run α) : Host.Outcome State Fault Refusal :=
  .next (r.state.setResult (r.response value))

/-- The next state after a procedure. -/
def Run.finishProcedure {α : Type} (value : α → OpValue) (r : Run α) : Host.Outcome State Fault Refusal :=
  .next (r.state.setResult (r.wrapped value))

/-! ## The primitives of 40_transport.md -/

/-- The least duration of an exchange of `n` bytes: the ceiling of `n * 8 * 10^9 / SPI_CLOCK_HZ` (40_transport.md
R90). -/
def exchangeMinNs (c : Configuration) (n : Nat) : Nat :=
  (8000000000 * n + (c.spiClockHz.toNat - 1)) / c.spiClockHz.toNat

/-- The time at the end of a primitive that takes at least `least` nanoseconds (10_state.md R33, 40_transport.md R90,
R94): any `u64` not below `now + least`, because the drawn duration has no upper bound. Where `now + least` is past the
last `u64`, which the spec excludes from every run, it is any time not before `now` (DESIGN CHOICE: log 6). -/
def endTime (now : U64) (least : Nat) (drawn : U64) : U64 :=
  let first := if least + now.toNat < 2 ^ 64 then now + BitVec.ofNat 64 least else now
  if first ≤ drawn then drawn else first

/-- One Xfer done: `n` bytes captured, time advanced, the event appended (40_transport.md R90). -/
def State.afterXfer (s : State) (tx : List Byte) : State :=
  { s with
    now := endTime s.now (exchangeMinNs s.cfg tx.length) (s.clockAhead 0)
    trace := s.trace ++ [.xfer tx (s.capture tx.length) s.now
      (endTime s.now (exchangeMinNs s.cfg tx.length) (s.clockAhead 0))]
    env := { s.env with miso := s.env.miso.advance tx.length, clock := s.env.clock.advance 1 } }

/-- `Exchange(tx)` (40_transport.md R90): a failed exchange moves no byte. -/
def exchange (tx : List Byte) (s : State) : Run (List Byte) :=
  if s.ioFails 0 then Run.raise .transport s.afterIoDraw
  else Run.done (s.afterIoDraw.capture tx.length) (s.afterIoDraw.afterXfer tx)

/-- `WaitAtLeast(d)`, `d` in nanoseconds (40_transport.md R94). -/
def waitAtLeast (d : U64) (s : State) : State :=
  { s with
    now := endTime s.now d.toNat (s.clockAhead 0)
    trace := s.trace ++ [.sleep d s.now (endTime s.now d.toNat (s.clockAhead 0))]
    env := { s.env with clock := s.env.clock.advance 1 } }

/-- The line takes the level and the event is appended (40_transport.md R95). -/
def State.driveLine (s : State) (pin : Pin) (level : Bool) : State :=
  { s with
    resetN := if pin = .resetN then level else s.resetN
    blEnN := if pin = .blEnN then level else s.blEnN
    trace := s.trace ++ [.line pin level s.now] }

/-- `LineWrite(pin, level)` (40_transport.md R95). -/
def lineWrite (pin : Pin) (level : Bool) (s : State) : Run Unit :=
  if s.ioFails 0 then Run.raise .transport s.afterIoDraw
  else Run.done () (s.afterIoDraw.driveLine pin level)

end Sys2Proof.Machine
end

