-- ==== Sys2Proof/Machine/Flags.lean ====
section
/-! DEFINITION. The flags: what the ACK scan and the CRC comparison compute and write (10_state.md R19, 41_framer.md R114,
42_crc32.md R135). -/

namespace Sys2Proof.Machine

open Sys2Proof

/-- What the scan of a window meets first. -/
inductive ScanResult where
  | ack (pos : Nat)
  | nack (pos : Nat)
  | nothing
  deriving DecidableEq, Repr

/-- The scan from index `pos` on: the first 0xCC or 0x33 decides (41_framer.md R114). -/
def scanFrom (pos : Nat) : List Byte → ScanResult
  | [] => .nothing
  | b :: rest =>
    if b = ackByte then .ack pos
    else if b = nackByte then .nack pos
    else scanFrom (pos + 1) rest

/-- The scan of a window starts at index 0 every time (41_framer.md R114). -/
def scanWindow (w : List Byte) : ScanResult := scanFrom 0 w

/-- `ACKF <- 0 ; NACKF <- 0`. -/
def State.clearScan (s : State) : State := { s with ackf := false, nackf := false }

/-- `ACKF <- 1 ; SCANPOS <- i` on cleared flags. -/
def State.flagAck (s : State) (i : Nat) : State :=
  { s with ackf := true, nackf := false, scanpos := BitVec.ofNat 16 i }

/-- `NACKF <- 1 ; SCANPOS <- i` on cleared flags. -/
def State.flagNack (s : State) (i : Nat) : State :=
  { s with ackf := false, nackf := true, scanpos := BitVec.ofNat 16 i }

/-- `CRC_MATCH <- 1 if CRC_LOCAL = CRC_DEVICE else 0` (42_crc32.md R135). -/
def State.flagMatch (s : State) : State := { s with crcMatch := decide (s.crcLocal = s.crcDevice) }

end Sys2Proof.Machine
end

