-- ==== Sys2Proof/Machine/Transport.lean ====
section
/-! DEFINITION. TRANSFER, READ, HOST_ACK, WAIT and ENTER_BOOTLOADER (40_transport.md R91 to R96), without their acceptance by
SESSION, which Machine/Operations.lean decides. -/

namespace Sys2Proof.Machine

open Sys2Proof

/-- TRANSFER (40_transport.md R91). -/
def transfer (s : State) : Run Unit :=
  (exchange s.txBytes s).andThen fun rx t => Run.done () (t.storeRx rx)

/-- READ(n) (40_transport.md R92). -/
def readWindow (n : Nat) (s : State) : Run Unit := transfer (s.loadTx (zeros n))

/-- HOST_ACK (40_transport.md R93). -/
def hostAck (s : State) : Run Unit := transfer (s.loadTx [ackByte])

/-- A READ during which the target sends exactly these bytes (log 11). -/
def receive (bytes : List Byte) (s : State) : Run Unit := readWindow bytes.length (s.targetSends bytes)

/-- WAIT(d) (40_transport.md R94). -/
def wait (d : U64) (s : State) : Run Unit := Run.done () (waitAtLeast d s)

/-- Milliseconds in nanoseconds, a `u64` product (40_transport.md R96, D6). -/
def msToNs (ms : U32) : U64 := BitVec.ofNat 64 (1000000 * ms.toNat)

/-- ENTER_BOOTLOADER steps 1 to 3: bootloader-enable low, the reset pulse (40_transport.md R96). -/
def resetPulse (s : State) : Run Unit :=
  (lineWrite .blEnN false s).andThen fun _ s =>
  (lineWrite .resetN false s).andThen fun _ s =>
  (wait (msToNs s.cfg.resetLowMs) s).andThen fun _ s =>
  (lineWrite .resetN true s).andThen fun _ s =>
  wait (msToNs s.cfg.resetHighMs) s

/-- ENTER_BOOTLOADER step 4: one dummy byte, sent with Exchange directly (40_transport.md R96). -/
def dummyByte (s : State) : Run Unit :=
  (exchange [0x00#8] (s.loadTx [0x00#8])).andThen fun rx s => Run.done () (s.storeRx rx)

/-- ENTER_BOOTLOADER (40_transport.md R96). -/
def enterBootloader (s : State) : Run Unit :=
  (resetPulse s.clearForEntry).andThen fun _ s =>
  (dummyByte s).andThen fun _ s =>
  (wait (msToNs s.cfg.blEntryQuietMs) s).andThen fun _ s =>
  (lineWrite .blEnN true s).andThen fun _ s =>
  Run.done () (s.setSession .entered)

end Sys2Proof.Machine
end

