-- ==== Sys2Proof/Machine/Framer.lean ====
section
/-! DEFINITION. CHECKSUM, SERIALIZE, ACK_SCAN, PARSE_REPLY and SERIALIZE_REPLY (41_framer.md). -/

namespace Sys2Proof.Machine

open Sys2Proof

/-- CHECKSUM(s): returns the byte and leaves it in CKSACC (41_framer.md R110). -/
def checksumOp (bytes : List Byte) (s : State) : Run Byte := Run.done (checksum bytes) (s.setCks (checksum bytes))

/-- The variant and CMD of a request; none for replies and sentinels (30_encoding.md R64). -/
def requestOf (i : Instr) : Option (Variant × Byte) :=
  match variantOf i with
  | some v => (cmdOf v).map (fun c => (v, c))
  | none => none

/-- `3 + |payload|`. -/
def packetLength (i : Instr) : Nat := 3 + (payloadOf i).length

/-- The bytes SERIALIZE puts in TXBUF: the packet, then IDLE zeros (30_encoding.md R66). -/
def serializedBytes (v : Variant) (cmd : Byte) (i : Instr) : List Byte :=
  requestPacket cmd (payloadOf i) ++ zeros (idleOf v)

/-- SERIALIZE of a request (41_framer.md R112, R113). Of any other wire item it does nothing: the operation is refused
before (log 26). -/
def serialize (i : Instr) (s : State) : Run Unit :=
  match requestOf i with
  | none => Run.done () s
  | some (v, cmd) =>
    if packetLength i < minLen v ∨ maxLen v < packetLength i then
      Run.raise (.boundViolation .atSerialize (packetLength i)) s
    else
      Run.done () ((s.setCks (checksum (cmd :: payloadOf i))).loadTx (serializedBytes v cmd i))

/-- ACK_SCAN (41_framer.md R114). -/
def ackScan (s : State) : Run Unit :=
  match scanWindow s.rxBytes with
  | .ack i => Run.done () (s.flagAck i)
  | .nack i => Run.raise (.nack (BitVec.ofNat 16 i)) (s.flagNack i)
  | .nothing => Run.raise .noAck s.clearScan

/-- The register DECODE_FIELDS writes when it succeeds: one for each reply variant (41_framer.md R117). -/
def storeFields (v : Variant) (vals : List FieldValue) (s : State) : State :=
  match v, vals with
  | .chipIdReply, [.u32 x] => s.setChipId x
  | .crc32Reply, [.u32 x] => s.setCrcDevice x
  | .commandStatus, [.status x] => s.setStatus x
  | _, _ => s

/-- The error kind of a payload that does not decode (41_framer.md R117). -/
def fieldErrorKind : FieldError → ErrorKind
  | .tooShort => .packetTooShort
  | .badStatus b => .invalidStatusCode b

/-- PARSE_REPLY steps 7 and 8: the payload is kept, then decoded (41_framer.md R116, R117). -/
def acceptPayload (v : Variant) (pay : List Byte) (s : State) : Run (List FieldValue) :=
  match decodeFields (fieldsOf v) pay with
  | .ok vals => Run.done vals (storeFields v vals (s.setPayload pay))
  | .error e => Run.raise (fieldErrorKind e) (s.setPayload pay)

/-- PARSE_REPLY steps 5 and 6: the payload is there and its checksum is right (41_framer.md R116). The header is in RLEN
and RCKS, the sentinel at index `p`. -/
def parsePayload (v : Variant) (p : Nat) (s : State) : Run (List FieldValue) :=
  if s.rxlen.toNat < p + 3 + (s.rlen.toNat - 2) then Run.raise .packetTooShort s
  else
    let pay := s.rxbuf.readRange (p + 3) (s.rlen.toNat - 2)
    if checksum pay ≠ s.rcks then Run.raise (.badChecksum s.rcks (checksum pay)) (s.setCks (checksum pay))
    else acceptPayload v pay (s.setCks (checksum pay))

/-- PARSE_REPLY steps 3 and 4: the header is read and its length compared with the bounds (41_framer.md R116). -/
def parseBounded (v : Variant) (p : Nat) (s : State) : Run (List FieldValue) :=
  let t := s.setHeader (s.rxbuf.read (p + 1)) (s.rxbuf.read (p + 2))
  if t.rlen.toNat < minLen v - 1 then Run.raise (.boundViolation .minPayloadNotMet t.rlen.toNat) t
  else if maxLen v - 1 < t.rlen.toNat then Run.raise (.boundViolation .maxPayloadExceeded t.rlen.toNat) t
  else parsePayload v p t

/-- PARSE_REPLY(V) (41_framer.md R116): the scan, the header's presence, then the rest. -/
def parseReply (v : Variant) (s : State) : Run (List FieldValue) :=
  (ackScan s).andThen fun _ s =>
    if s.rxlen.toNat < s.scanpos.toNat + 3 then Run.raise .packetTooShort s
    else parseBounded v s.scanpos.toNat s

/-- SERIALIZE_REPLY(V, fields) (41_framer.md R118): the buffer PARSE_REPLY accepts, the ACK included. -/
def serializeReply (v : Variant) (vals : List FieldValue) : Except ErrorKind (List Byte) :=
  if 3 + (encFields vals).length < minLen v ∨ maxLen v < 3 + (encFields vals).length then
    .error (.boundViolation .atSerialize (3 + (encFields vals).length))
  else .ok (ackByte :: replyPacket (encFields vals))

end Sys2Proof.Machine
end

