-- ==== Sys2Proof/Machine/Requests.lean ====
section
/-! DEFINITION. The meanings of the eleven request packets (43_commands.md R140 to R150) over the shapes of 44_sequencer.md
R170. A wire item is refused as a whole where SESSION does not accept its TRANSFER (log 10). -/

namespace Sys2Proof.Machine

open Sys2Proof

/-- Accept a wire item where SESSION accepts a transfer, refuse it otherwise (40_transport.md R99; log 10). -/
def whenOpen {α : Type} (value : α → OpValue) (s : State) (r : Run α) : Host.Outcome State Fault Refusal :=
  if sessionOpen s.session then r.finish value else .refused (.sessionState s.session)

/-- `SERIALIZE ; TRANSFER`: the capture is not scanned (44_sequencer.md R170 shape C, 20_memory.md R59). -/
def sendOnly (i : Instr) (s : State) : Run Unit := (serialize i s).andThen fun _ s => transfer s

/-- `SERIALIZE ; TRANSFER ; ACK_SCAN` (44_sequencer.md R170 shape A). -/
def sendBareAck (i : Instr) (s : State) : Run Unit := (sendOnly i s).andThen fun _ s => ackScan s

/-- `PARSE_REPLY(W) ; HOST_ACK`: the host ACK is sent exactly after a parse without error (44_sequencer.md R170). -/
def parseThenAck (w : Variant) (s : State) : Run (List FieldValue) :=
  (parseReply w s).andThen fun vals s => (hostAck s).andThen fun _ s => Run.done vals s

/-- `SERIALIZE ; TRANSFER ; PARSE_REPLY(W) ; HOST_ACK` (44_sequencer.md R170 shape B). -/
def sendForReply (i : Instr) (w : Variant) (s : State) : Run (List FieldValue) :=
  (sendOnly i s).andThen fun _ s => parseThenAck w s

/-- Ping (43_commands.md R140). -/
def execPing (s : State) : Host.Outcome State Fault Refusal :=
  whenOpen (fun _ => .unit) s (sendBareAck .ping s)

/-- Download address, size (43_commands.md R141). -/
def execDownload (address size : U32) (s : State) : Host.Outcome State Fault Refusal :=
  whenOpen (fun _ => .unit) s (sendBareAck (.download address size) s)

/-- GetStatus (43_commands.md R142). -/
def execGetStatus (s : State) : Host.Outcome State Fault Refusal :=
  whenOpen .fields s (sendForReply .getStatus .commandStatus s)

/-- SendData data (43_commands.md R143). -/
def execSendData (data : List Byte) (s : State) : Host.Outcome State Fault Refusal :=
  whenOpen (fun _ => .unit) s (sendOnly (.sendData data) s)

/-- Reset (43_commands.md R144): SESSION is the procedure's to change. -/
def execReset (s : State) : Host.Outcome State Fault Refusal :=
  whenOpen (fun _ => .unit) s (sendBareAck .reset s)

/-- SectorErase address (43_commands.md R145). -/
def execSectorErase (address : U32) (s : State) : Host.Outcome State Fault Refusal :=
  whenOpen (fun _ => .unit) s (sendOnly (.sectorErase address) s)

/-- Crc32 address, size, repeat (43_commands.md R146): `SERIALIZE(Crc32, address, size, 0)`, so the block sends repeat 0
whatever the operand says (42_crc32.md R136; DEDUCED: log 13). -/
def execCrc32 (address size _repeats : U32) (s : State) : Host.Outcome State Fault Refusal :=
  whenOpen (fun _ => .unit) s (sendOnly (.crc32 address size 0#32) s)

/-- GetChipId (43_commands.md R147). -/
def execGetChipId (s : State) : Host.Outcome State Fault Refusal :=
  whenOpen .fields s (sendForReply .getChipId .chipIdReply s)

/-- MemoryRead address, access_type, count (43_commands.md R148): stops after TRANSFER. -/
def execMemoryRead (address : U32) (accessType count : Byte) (s : State) : Host.Outcome State Fault Refusal :=
  whenOpen (fun _ => .unit) s (sendOnly (.memoryRead address accessType count) s)

/-- MemoryWrite address, size, data (43_commands.md R149): stops after TRANSFER. -/
def execMemoryWrite (address size : U32) (data : List Byte) (s : State) : Host.Outcome State Fault Refusal :=
  whenOpen (fun _ => .unit) s (sendOnly (.memoryWrite address size data) s)

/-- BankErase (43_commands.md R150). -/
def execBankErase (s : State) : Host.Outcome State Fault Refusal :=
  whenOpen (fun _ => .unit) s (sendOnly .bankErase s)

end Sys2Proof.Machine
end

