-- ==== Sys2Proof/Machine/Replies.lean ====
section
/-! DEFINITION. The meanings of the three replies (43_commands.md R152 to R154): the item arrives after the ACK in a READ of its
length and PARSE_REPLY receives it (log 11). -/

namespace Sys2Proof.Machine

open Sys2Proof

/-- The ACK and the bytes of a reply packet arrive, then `PARSE_REPLY(W)`. -/
def receiveReply (w : Variant) (packet : List Byte) (s : State) : Run (List FieldValue) :=
  (receive (ackByte :: packet) s).andThen fun _ s => parseReply w s

/-- ChipIdReply value (43_commands.md R152): on success `CHIPID <- value`. -/
def execChipIdReply (value : U32) (s : State) : Host.Outcome State Fault Refusal :=
  whenOpen .fields s (receiveReply .chipIdReply (encode (.chipIdReply value)) s)

/-- Crc32Reply value (43_commands.md R153): on success `CRC_DEVICE <- value`. -/
def execCrc32Reply (value : U32) (s : State) : Host.Outcome State Fault Refusal :=
  whenOpen .fields s (receiveReply .crc32Reply (encode (.crc32Reply value)) s)

/-- CommandStatus value (43_commands.md R154): on success `STATUS <- value`. -/
def execCommandStatus (value : StatusValue) (s : State) : Host.Outcome State Fault Refusal :=
  whenOpen .fields s (receiveReply .commandStatus (encode (.commandStatus value)) s)

end Sys2Proof.Machine
end

