-- ==== Sys2Proof/Machine/Sentinels.lean ====
section
/-! DEFINITION. The meanings of the two bare sentinels (43_commands.md R155, R156). -/

namespace Sys2Proof.Machine

open Sys2Proof

/-- The bytes arrive in a READ and ACK_SCAN looks for the sentinel (log 11). -/
def receiveSentinel (bytes : List Byte) (s : State) : Run Unit := (receive bytes s).andThen fun _ s => ackScan s

/-- ACK (43_commands.md R155): from the target it ends the scan with success, from the block it is HOST_ACK (log 12). -/
def execAck (sender : Sender) (s : State) : Host.Outcome State Fault Refusal :=
  whenOpen (fun _ => .unit) s (match sender with | .target => receiveSentinel [ackByte] s | .block => hostAck s)

/-- NACK (43_commands.md R156): from the target only; it ends the scan with `Nack`. -/
def execNack (s : State) : Host.Outcome State Fault Refusal :=
  whenOpen (fun _ => .unit) s (receiveSentinel [nackByte] s)

end Sys2Proof.Machine
end

