-- ==== Sys2Proof/Machine/Dispatch.lean ====
section
/-! DEFINITION. One arm per wire item of spec/opcode_table.json. -/

namespace Sys2Proof.Machine

open Sys2Proof

def exec (i : Instr) (s : State) : Host.Outcome State Fault Refusal :=
  match i with
  | .ping => Sys2Proof.Machine.execPing s
  | .download address size => Sys2Proof.Machine.execDownload address size s
  | .getStatus => Sys2Proof.Machine.execGetStatus s
  | .sendData data => Sys2Proof.Machine.execSendData data s
  | .reset => Sys2Proof.Machine.execReset s
  | .sectorErase address => Sys2Proof.Machine.execSectorErase address s
  | .crc32 address size repeats => Sys2Proof.Machine.execCrc32 address size repeats s
  | .getChipId => Sys2Proof.Machine.execGetChipId s
  | .memoryRead address accessType count => Sys2Proof.Machine.execMemoryRead address accessType count s
  | .memoryWrite address size data => Sys2Proof.Machine.execMemoryWrite address size data s
  | .bankErase => Sys2Proof.Machine.execBankErase s
  | .chipIdReply value => Sys2Proof.Machine.execChipIdReply value s
  | .crc32Reply value => Sys2Proof.Machine.execCrc32Reply value s
  | .commandStatus value => Sys2Proof.Machine.execCommandStatus value s
  | .ack sender => Sys2Proof.Machine.execAck sender s
  | .nack => Sys2Proof.Machine.execNack s

end Sys2Proof.Machine
end

