-- ==== Sys2Proof/Machine/CrcUnit.lean ====
section
/-! DEFINITION. CRC32 and CRC_COMPARE (42_crc32.md R131, R135). -/

namespace Sys2Proof.Machine

open Sys2Proof

/-- CRC32 over bytes already read from the image: CRCACC and CRC_LOCAL are written (42_crc32.md R131). -/
def crc32Op (bytes : List Byte) (s : State) : Run U32 :=
  Run.done (crc32 bytes) (s.setCrc (crcAcc bytes) (crc32 bytes))

/-- CRC_COMPARE (42_crc32.md R135). -/
def crcCompare (s : State) : Run Bool := Run.done s.flagMatch.crcMatch s.flagMatch

end Sys2Proof.Machine
end

