-- ==== Sys2Proof/Machine/Operations.lean ====
section
/-! DEFINITION. The block operations as the controller invokes them: which SESSION accepts them (40_transport.md R99) and what
each requires of its operands. -/

namespace Sys2Proof.Machine

open Sys2Proof

/-- Refuse an operation that needs the wire outside Entered, Initialized, Operational (40_transport.md R99). -/
def requireOpen (s : State) (out : Host.Outcome State Fault Refusal) : Host.Outcome State Fault Refusal :=
  if sessionOpen s.session then out else .refused (.sessionState s.session)

/-- Require `1 <= n <= BUF_CAP` (40_transport.md R91, R92; U4). -/
def requireLength (s : State) (n : Nat) (out : Host.Outcome State Fault Refusal) :
    Host.Outcome State Fault Refusal :=
  if n = 0 then .refused .emptyTransfer
  else if bufCapOf s.cfg < n then .refused .transferTooLong
  else out

/-- The controller loads TXBUF and TXLEN (40_transport.md R91; log 19). -/
def execLoadTx (bytes : List Byte) (s : State) : Host.Outcome State Fault Refusal :=
  if bufCapOf s.cfg < bytes.length then .refused .transferTooLong
  else (Run.done () (s.loadTx bytes)).finish (fun _ => .unit)

/-- TRANSFER (40_transport.md R91). -/
def execTransfer (s : State) : Host.Outcome State Fault Refusal :=
  requireOpen s (requireLength s s.txlen.toNat ((transfer s).finish (fun _ => .unit)))

/-- READ(n) (40_transport.md R92). -/
def execRead (n : U16) (s : State) : Host.Outcome State Fault Refusal :=
  requireOpen s (requireLength s n.toNat ((readWindow n.toNat s).finish (fun _ => .unit)))

/-- HOST_ACK (40_transport.md R93). -/
def execHostAck (s : State) : Host.Outcome State Fault Refusal :=
  requireOpen s ((hostAck s).finish (fun _ => .unit))

/-- WAIT(d), legal in every SESSION state (40_transport.md R94). -/
def execWait (d : U64) (s : State) : Host.Outcome State Fault Refusal :=
  (wait d s).finish (fun _ => .unit)

/-- ENTER_BOOTLOADER, legal in every SESSION state (40_transport.md R96, R99). -/
def execEnterBootloader (s : State) : Host.Outcome State Fault Refusal :=
  (enterBootloader s).finish (fun _ => .unit)

/-- CHECKSUM(s), legal in every SESSION state (41_framer.md R110). -/
def execChecksum (bytes : List Byte) (s : State) : Host.Outcome State Fault Refusal :=
  (checksumOp bytes s).finish .byte

/-- SERIALIZE, legal in every SESSION state; its operand is a request (41_framer.md R112; log 26). -/
def execSerialize (i : Instr) (s : State) : Host.Outcome State Fault Refusal :=
  match requestOf i with
  | some _ => (serialize i s).finish (fun _ => .unit)
  | none => .refused .notARequest

/-- ACK_SCAN (41_framer.md R114). -/
def execAckScan (s : State) : Host.Outcome State Fault Refusal :=
  requireOpen s ((ackScan s).finish (fun _ => .unit))

/-- PARSE_REPLY(V), for any variant of the table (41_framer.md R116, 30_encoding.md R73). -/
def execParseReply (v : Variant) (s : State) : Host.Outcome State Fault Refusal :=
  requireOpen s ((parseReply v s).finish .fields)

/-- CRC32(addr, n) over an image, legal in every SESSION state (42_crc32.md R131; log 15). An image out of bounds is no
image value (45_image_input.md R200, U8, D13) and is refused, although R131 names no check (DEDUCED: log 16). -/
def execCrc32Op (image : Image) (addr : U32) (n : Nat) (s : State) : Host.Outcome State Fault Refusal :=
  if imageInBounds image then
    match memRead image addr.toNat n with
    | some bytes => (crc32Op bytes s).finish .word
    | none => .fault (.imageHole addr n)
  else .refused .imageOutOfBounds

/-- CRC_COMPARE (42_crc32.md R135, U9). -/
def execCrcCompare (s : State) : Host.Outcome State Fault Refusal :=
  requireOpen s
    (if s.crcLocalWritten && s.crcDeviceWritten then (crcCompare s).finish .bool else .refused .crcUnwritten)

/-- A block operation (00_scope.md R6). -/
def execOp (o : BlockOp) (s : State) : Host.Outcome State Fault Refusal :=
  match o with
  | .loadTx bytes => execLoadTx bytes s
  | .transfer => execTransfer s
  | .read n => execRead n s
  | .hostAck => execHostAck s
  | .wait d => execWait d s
  | .enterBootloader => execEnterBootloader s
  | .checksum bytes => execChecksum bytes s
  | .serialize i => execSerialize i s
  | .ackScan => execAckScan s
  | .parseReply v => execParseReply v s
  | .crc32 image addr n => execCrc32Op image addr n s
  | .crcCompare => execCrcCompare s

end Sys2Proof.Machine
end

