-- ==== Sys2Proof/Machine/Sequencer.lean ====
section
/-! DEFINITION. The sequencer's procedures (44_sequencer.md R170 to R180) and which SESSION accepts them (R191). -/

namespace Sys2Proof.Machine

open Sys2Proof

/-- The procedures named in the table of 44_sequencer.md R191, and Exchange command, accepted as its first TRANSFER is
(log 20). -/
def procedureAccepted (p : Procedure) (x : Session) : Bool :=
  match p with
  | .exchangeCommand _ => sessionOpen x
  | .checkStatus => decide (x = .operational)
  | .initialise => decide (x = .entered)
  | .eraseSector _ => decide (x = .initialized ∨ x = .operational)
  | .bankErase => decide (x = .initialized ∨ x = .operational)
  | .sendChunk _ => decide (x = .operational)
  | .crcQuery _ _ => decide (x = .initialized ∨ x = .operational)
  | .systemReset => sessionOpen x
  | .writeSegment _ => decide (x = .initialized ∨ x = .operational)
  | .flashImage _ => decide (x = .entered)
  | .imageMatches _ => decide (x = .entered)
  | .needToUpdate _ => decide (x = .entered)

/-- The operand conditions of a procedure: segments in bounds (45_image_input.md R200, U8, D13; log 16), a request for
Exchange command (log 26). -/
def procedureOperand (p : Procedure) : Option Refusal :=
  match p with
  | .exchangeCommand i => if (requestOf i).isSome then none else some .notARequest
  | .checkStatus => none
  | .initialise => none
  | .eraseSector _ => none
  | .bankErase => none
  | .sendChunk _ => none
  | .crcQuery _ _ => none
  | .systemReset => none
  | .writeSegment seg => if segmentInBounds seg then none else some .imageOutOfBounds
  | .flashImage image => if imageInBounds image then none else some .imageOutOfBounds
  | .imageMatches image => if imageInBounds image then none else some .imageOutOfBounds
  | .needToUpdate image => if imageInBounds image then none else some .imageOutOfBounds

/-- Shape C with a bare ACK: `SERIALIZE ; TRANSFER ; WAIT(d) ; READ(w) ; ACK_SCAN` (44_sequencer.md R170). -/
def sendWaitAck (i : Instr) (d : U64) (w : Nat) (s : State) : Run Unit :=
  (sendOnly i s).andThen fun _ s =>
  (wait d s).andThen fun _ s =>
  (readWindow w s).andThen fun _ s => ackScan s

/-- Shape C with a reply: `SERIALIZE ; TRANSFER ; WAIT(d) ; READ(w) ; PARSE_REPLY(W) ; HOST_ACK` (44_sequencer.md
R170). -/
def sendWaitReply (i : Instr) (d : U64) (w : Nat) (v : Variant) (s : State) : Run (List FieldValue) :=
  (sendOnly i s).andThen fun _ s =>
  (wait d s).andThen fun _ s =>
  (readWindow w s).andThen fun _ s => parseThenAck v s

/-- CheckStatus (44_sequencer.md R180): the host ACK is sent before the comparison. -/
def checkStatus (s : State) : Run Unit :=
  (sendForReply .getStatus .commandStatus s).andThen fun _ s =>
    if s.status = .success then Run.done () s else Run.raise (.verification (.statusNotSuccess s.status)) s

/-- Initialize (44_sequencer.md R171). -/
def initialise (s : State) : Run Unit :=
  (sendBareAck .ping s).andThen fun _ s =>
  (sendForReply .getChipId .chipIdReply s).andThen fun _ s =>
    if s.chipid = s.cfg.expectedChipId then Run.done () (s.setSession .initialized)
    else Run.raise (.verification (.chipIdMismatch s.chipid s.cfg.expectedChipId)) s

/-- EraseSector (44_sequencer.md R172). -/
def eraseSector (address : U32) (s : State) : Run Unit :=
  (sendWaitAck (.sectorErase address) sectorEraseWaitNs eraseWindow (s.setSession .operational)).andThen
    fun _ s => checkStatus s

/-- BankEraseProc (44_sequencer.md R173). -/
def bankErase (s : State) : Run Unit :=
  (sendWaitAck .bankErase bankEraseWaitNs eraseWindow (s.setSession .operational)).andThen fun _ s => checkStatus s

/-- SendChunk (44_sequencer.md R174). -/
def sendChunk (chunk : List Byte) (s : State) : Run Unit :=
  sendWaitAck (.sendData chunk) (sendDataWait chunk.length) sendDataWindow s

/-- CrcQuery (44_sequencer.md R175): returns CRC_DEVICE. -/
def crcQuery (address size : U32) (s : State) : Run U32 :=
  (sendWaitReply (.crc32 address size 0#32) (crc32Wait size) crc32Window .crc32Reply
    (s.setSession .operational)).andThen fun _ s => Run.done s.crcDevice s

/-- SystemReset (44_sequencer.md R176). -/
def systemReset (s : State) : Run Unit :=
  (sendBareAck .reset s).andThen fun _ s =>
  (wait resetWaitNs (s.setSession .reset)).andThen fun _ s => Run.done () (s.setSession .idle)

/-- The chunk loop of WriteSegment (44_sequencer.md R177 step 2). -/
def sendChunks : List (List Byte) → State → Run Unit
  | [], s => Run.done () s
  | chunk :: rest, s => (sendChunk chunk s).andThen fun _ s => sendChunks rest s

/-- `|seg.data|` as the `u32` field of Download and Crc32 (44_sequencer.md R193). -/
def segmentSize (g : Segment) : U32 := BitVec.ofNat 32 g.data.length

/-- WriteSegment step 4: the device's CRC must equal the segment's (44_sequencer.md R177). -/
def verifySegment (g : Segment) (s : State) : Run Unit :=
  (crcQuery g.start (segmentSize g) (s.setCrcLocal g.crc)).andThen fun _ s =>
  (crcCompare s).andThen fun same s =>
    if same then Run.done () s else Run.raise (.verification (.crcMismatch s.crcLocal s.crcDevice)) s

/-- WriteSegment (44_sequencer.md R177). -/
def writeSegment (g : Segment) (s : State) : Run Unit :=
  (sendBareAck (.download g.start (segmentSize g)) (s.setSession .operational)).andThen fun _ s =>
  (sendChunks (chunksOf s.cfg.maxPayload.toNat g.data) s).andThen fun _ s =>
  (checkStatus s).andThen fun _ s =>
  (verifySegment g s).andThen fun _ s => checkStatus s

/-- The segment loop of FlashImage: RAM-aperture segments are skipped (44_sequencer.md R178). -/
def writeSegments : Image → State → Run Unit
  | [], s => Run.done () s
  | g :: rest, s =>
    if inAperture s.cfg.ramApertureMask g then writeSegments rest s
    else (writeSegment g s).andThen fun _ s => writeSegments rest s

/-- FlashImage (44_sequencer.md R178). -/
def flashImage (image : Image) (s : State) : Run Unit :=
  (initialise s).andThen fun _ s =>
  (bankErase s).andThen fun _ s =>
  (writeSegments image s).andThen fun _ s => systemReset s

/-- The segment loop of ImageMatches: a mismatch leaves it (44_sequencer.md R179). -/
def compareSegments : Image → State → Run Bool
  | [], s => Run.done true s
  | g :: rest, s =>
    if inAperture s.cfg.ramApertureMask g then compareSegments rest s
    else
      (crcQuery g.start (segmentSize g) (s.setCrcLocal g.crc)).andThen fun _ s =>
      (crcCompare s).andThen fun same s => if same then compareSegments rest s else Run.done false s

/-- ImageMatches (44_sequencer.md R179): a mismatch is a result, and Reset follows it too. -/
def imageMatches (image : Image) (s : State) : Run Bool :=
  (initialise s).andThen fun _ s =>
  (compareSegments image s).andThen fun same s =>
  (systemReset s).andThen fun _ s => Run.done same s

/-- `need_to_update_firmware(image)` is `not ImageMatches(image)` (44_sequencer.md R179, R181). -/
def needToUpdate (image : Image) (s : State) : Run Bool :=
  (imageMatches image s).andThen fun same s => Run.done (!same) s

/-- Exchange command (44_sequencer.md R170): the shape of each command, as 43_commands.md R151 collects them. A Crc32 is
sent with repeat 0 whatever its operand says (42_crc32.md R136, 43_commands.md R146; DEDUCED: log 13). MemoryRead and
MemoryWrite stop after TRANSFER (R148, R149). Of a wire item that is no request it does nothing: the procedure is
refused before. -/
def exchangeCommand (i : Instr) (s : State) : Run (List FieldValue) :=
  match i with
  | .ping => (sendBareAck i s).andThen fun _ s => Run.done [] s
  | .download _ _ => (sendBareAck i s).andThen fun _ s => Run.done [] s
  | .getStatus => sendForReply i .commandStatus s
  | .sendData data =>
    (sendWaitAck i (sendDataWait data.length) sendDataWindow s).andThen fun _ s => Run.done [] s
  | .reset => (sendBareAck i s).andThen fun _ s => Run.done [] s
  | .sectorErase _ => (sendWaitAck i sectorEraseWaitNs eraseWindow s).andThen fun _ s => Run.done [] s
  | .crc32 address size _ => sendWaitReply (.crc32 address size 0#32) (crc32Wait size) crc32Window .crc32Reply s
  | .getChipId => sendForReply i .chipIdReply s
  | .memoryRead _ _ _ => (sendOnly i s).andThen fun _ s => Run.done [] s
  | .memoryWrite _ _ _ => (sendOnly i s).andThen fun _ s => Run.done [] s
  | .bankErase => (sendWaitAck i bankEraseWaitNs eraseWindow s).andThen fun _ s => Run.done [] s
  | .chipIdReply _ => Run.done [] s
  | .crc32Reply _ => Run.done [] s
  | .commandStatus _ => Run.done [] s
  | .ack _ => Run.done [] s
  | .nack => Run.done [] s

/-- A procedure that is accepted, run to its end (44_sequencer.md). -/
def runProcedure (p : Procedure) (s : State) : Host.Outcome State Fault Refusal :=
  match p with
  | .exchangeCommand i => (exchangeCommand i s).finishProcedure .fields
  | .checkStatus => (checkStatus s).finishProcedure (fun _ => .unit)
  | .initialise => (initialise s).finishProcedure (fun _ => .unit)
  | .eraseSector address => (eraseSector address s).finishProcedure (fun _ => .unit)
  | .bankErase => (bankErase s).finishProcedure (fun _ => .unit)
  | .sendChunk chunk => (sendChunk chunk s).finishProcedure (fun _ => .unit)
  | .crcQuery address size => (crcQuery address size s).finishProcedure .word
  | .systemReset => (systemReset s).finishProcedure (fun _ => .unit)
  | .writeSegment seg => (writeSegment seg s).finishProcedure (fun _ => .unit)
  | .flashImage image => (flashImage image s).finishProcedure (fun _ => .unit)
  | .imageMatches image => (imageMatches image s).finishProcedure .bool
  | .needToUpdate image => (needToUpdate image s).finishProcedure .bool

/-- A procedure as the controller invokes it: refused where SESSION is not in its row of 44_sequencer.md R191, or where
its operand is no legal value. -/
def execProcedure (p : Procedure) (s : State) : Host.Outcome State Fault Refusal :=
  if procedureAccepted p s.session then
    match procedureOperand p with
    | some r => .refused r
    | none => runProcedure p s
  else .refused (.sessionState s.session)

end Sys2Proof.Machine
end

