-- ==== Sys2Proof/Machine/Controller.lean ====
section
/-! DEFINITION. What one request of the controller does (00_scope.md R7; log 2). -/

namespace Sys2Proof.Machine

open Sys2Proof

/-- The error of a packet length outside its variant's range, before anything is serialised (30_encoding.md R70 e,
41_framer.md R113). -/
def badLength (len : Byte) (s : State) : Run Unit := Run.raise (.boundViolation .atSerialize len.toNat) s

/-- Bytes handed in as a request that are none. A `len` byte outside the variant's range is a BoundViolation
(30_encoding.md R70 e, 41_framer.md R113). What the block has no way to build has no step: an unassigned CMD (R69, R70 a,
U2), a checksum or a byte count other than SERIALIZE gives (41_framer.md R112). -/
def execBadRequest (d : DecodeError) (s : State) : Host.Outcome State Fault Refusal :=
  match d with
  | .lenTooSmall len => whenOpen (fun _ => .unit) s (badLength len s)
  | .lenTooLarge len => whenOpen (fun _ => .unit) s (badLength len s)
  | .unassignedCmd _ => .refused (.undecodable d)
  | .truncated => .refused (.undecodable d)
  | .badChecksum _ => .refused (.undecodable d)
  | .fieldTooShort => .refused (.undecodable d)
  | .badStatus _ => .refused (.undecodable d)
  | .fieldShape => .refused (.undecodable d)
  | .notASentinel _ => .refused (.undecodable d)

/-- Bytes of the target where a reply is expected, whatever they are: they arrive after the ACK, and PARSE_REPLY says what
is wrong with them (41_framer.md R116; log 11). -/
def execReplyBytes (v : Variant) (bytes : List Byte) (s : State) : Host.Outcome State Fault Refusal :=
  requireOpen s (requireLength s (bytes.length + 1) ((receiveReply v bytes s).finish .fields))

/-- Bytes of the target where a sentinel is expected, whatever they are: ACK_SCAN looks through them (41_framer.md R114,
30_encoding.md R70 f; log 11). -/
def execSentinelBytes (bytes : List Byte) (s : State) : Host.Outcome State Fault Refusal :=
  requireOpen s (requireLength s bytes.length ((receiveSentinel bytes s).finish (fun _ => .unit)))

/-- Bytes that are no wire item of the expected kind. The block sends no other byte as its ACK (40_transport.md R93). -/
def execUndecoded (e : Expectation) (bytes : List Byte) (d : DecodeError) (s : State) :
    Host.Outcome State Fault Refusal :=
  match e with
  | .request => execBadRequest d s
  | .chipIdReply => execReplyBytes .chipIdReply bytes s
  | .crc32Reply => execReplyBytes .crc32Reply bytes s
  | .commandStatus => execReplyBytes .commandStatus bytes s
  | .sentinel => execSentinelBytes bytes s
  | .hostAck => .refused (.undecodable d)

/-- A wire item handed in as bytes: decoded, then executed. -/
def execWire (e : Expectation) (bytes : List Byte) (s : State) : Host.Outcome State Fault Refusal :=
  match decode e bytes with
  | .ok i => exec i s
  | .error d => execUndecoded e bytes d s

/-- One request. -/
def execRequest (r : Request) (s : State) : Host.Outcome State Fault Refusal :=
  match r with
  | .wire e bytes => execWire e bytes s
  | .item i => exec i s
  | .op o => execOp o s
  | .procedure p => execProcedure p s

/-- The oldest request is taken off the queue and run to its end; with none, the block holds its state
(60_exceptions.md R238, 70_reset_and_hazards.md R252). -/
def stepRequest (s : State) : Host.Outcome State Fault Refusal :=
  match s.pending with
  | [] => .next s
  | r :: rest => execRequest r (s.setPending rest)

/-- A state in which a mode entry has opened the session, as any wire item needs (40_transport.md R99; log 2). -/
def openSession (s : State) : State :=
  if sessionOpen s.session then s else { s with session := .entered, fault := false, err := 0#4 }

/-- The controller hands in an opcode-table word before all other requests (log 2, log 3). -/
def placeWord (s : State) (nbits w : Nat) : State :=
  (openSession s).setPending (.wire (tableExpectation nbits w) (tableBytes nbits w) :: s.pending)

end Sys2Proof.Machine
end

