-- ==== Sys2Proof/Machine/Step.lean ====
section
/-! DEFINITION. One step of the block: one request of the controller. -/

namespace Sys2Proof.Machine

open Sys2Proof

/-- One step (00_scope.md R7): the oldest request of the controller, run to its end. -/
def step (s : State) : Host.Outcome State Fault Refusal := stepRequest s

/-- The state in which the very next step runs the wire item of an opcode-table word: the word is handed in first, and
the session is open (log 2, log 3). -/
def State.withFetchWord (s : State) (nbits w : Nat) : State := placeWord s nbits w

end Sys2Proof.Machine
end

