-- ==== Sys2Proof/Safety.lean ====
section
/-! DEFINITION. The terms statements are made in: a working link, buffers laid over, what a run consumes of the outside, and
what every reachable state satisfies. -/

namespace Sys2Proof.Machine

open Sys2Proof

/-- The next `n` I/O primitives succeed (40_transport.md R100: a claim that needs a working link says so). -/
abbrev LinkUp (s : State) (n : Nat) : Prop := ∀ k, k < n → s.ioFails k = false

/-- No byte is a sentinel (30_encoding.md R70 f). -/
abbrev SentinelFree (z : List Byte) : Prop := ∀ b ∈ z, b ≠ ackByte ∧ b ≠ nackByte

/-- Buffer `m` holds `bytes` from index 0 on, and every other byte as `m₀`. -/
def LaidOver (m m₀ : Memory) (bytes : List Byte) : Prop :=
  ∀ a, m.read a = (bytes[a]?).getD (m₀.read a)

/-- The sources of draws after so many I/O primitives, captured bytes and timed primitives (log 5). -/
def State.envAfter (s : State) (io miso clocks : Nat) : Environment where
  miso := s.env.miso.advance miso
  io := if s.cfg.ioMayFail then s.env.io.advance io else s.env.io
  clock := s.env.clock.advance clocks

/-- The bytes the target answers after the next `start` ones, `n` of them (10_state.md R32). -/
def State.window (s : State) (start n : Nat) : List Byte := (List.range n).map fun k => s.misoAhead (start + k)

/-- ERR after an error entry with a code (60_exceptions.md R230): the first error is kept. -/
def State.errAfter (s : State) (code : BitVec 4) : BitVec 4 := if s.err = 0#4 then code else s.err

/-- At least `d` nanoseconds lie between two times (40_transport.md R90, R94), and time does not go back (10_state.md R33);
nothing is said of a duration past the last `u64`, which no run reaches (R94; log 6). -/
def Elapsed (t0 : U64) (d : Nat) (t1 : U64) : Prop :=
  t0 ≤ t1 ∧ (t0.toNat + d < 2 ^ 64 → t0.toNat + d ≤ t1.toNat)

/-- When an event begins (10_state.md R34). -/
def Event.start : Event → U64
  | .line _ _ t => t
  | .xfer _ _ t0 _ => t0
  | .sleep _ t0 _ => t0

/-- When an event ends. -/
def Event.stop : Event → U64
  | .line _ _ t => t
  | .xfer _ _ _ t1 => t1
  | .sleep _ _ t1 => t1

/-- The events of a whole ENTER_BOOTLOADER begun in `s`, whose four timed primitives end at `t1` to `t4` (40_transport.md
R96). -/
def entryEvents (s : State) (t1 t2 t3 t4 : U64) : List Event :=
  [.line .blEnN false s.now, .line .resetN false s.now,
    .sleep (BitVec.ofNat 64 (s.cfg.resetLowMs.toNat * 1000000)) s.now t1, .line .resetN true t1,
    .sleep (BitVec.ofNat 64 (s.cfg.resetHighMs.toNat * 1000000)) t1 t2, .xfer [0x00#8] (s.capture 1) t2 t3,
    .sleep (BitVec.ofNat 64 (s.cfg.blEntryQuietMs.toNat * 1000000)) t3 t4, .line .blEnN true t4]

/-- The bytes an event clocks out. -/
def Event.sent : Event → Option (List Byte)
  | .line _ _ _ => none
  | .xfer tx _ _ _ => some tx
  | .sleep _ _ _ => none

/-- The byte sequences clocked out, oldest first. -/
def sentBytes (l : List Event) : List (List Byte) := l.filterMap Event.sent

/-- An event the block can make: it does not end before it begins, a transfer is full duplex and takes 1 to BUF_CAP
bytes and at least the time its bits need, a sleep at least its operand (20_memory.md R48, 40_transport.md R90, R94). -/
def Event.lawful (c : Configuration) : Event → Prop
  | .line _ _ _ => True
  | .xfer tx rx t0 t1 =>
    rx.length = tx.length ∧ 1 ≤ tx.length ∧ tx.length ≤ bufCapOf c ∧ Elapsed t0 (exchangeMinNs c tx.length) t1
  | .sleep d t0 t1 => Elapsed t0 d.toNat t1

/-- The events lie in the order of TRACE without overlap, and none ends after `now` (20_memory.md R55,
70_reset_and_hazards.md R267). -/
def Chronological (trace : List Event) (now : U64) : Prop :=
  trace.Pairwise (fun a b => a.stop ≤ b.start) ∧ ∀ e ∈ trace, e.start ≤ e.stop ∧ e.stop ≤ now

/-- A buffer in canonical form below its capacity. -/
abbrev BufferOk (m : Memory) (cap : Nat) : Prop := m.wf ∧ m.within cap

/-- What every reachable state satisfies: the configuration stays legal (10_state.md section 4), the buffers stay
canonical and the lengths within their capacities (R10, R11, R14), FAULT, ERR and SESSION agree (R19), the two scan
flags exclude each other and SCANPOS then lies in the buffer (R12, R19), both lines are high outside Faulted (R30,
60_exceptions.md R230), TRACE is lawful and in order (R34, 20_memory.md R55). -/
structure Inv (s : State) : Prop where
  config : configurationLegal s.cfg = true
  txOk : BufferOk s.txbuf (bufCapOf s.cfg)
  rxOk : BufferOk s.rxbuf (bufCapOf s.cfg)
  payOk : BufferOk s.rpay 253
  txlenOk : s.txlen.toNat ≤ bufCapOf s.cfg
  rxlenOk : s.rxlen.toNat ≤ bufCapOf s.cfg
  paylenOk : s.rpaylen.toNat ≤ 253
  faultFlag : s.fault = true ↔ s.session = .faulted
  errSet : s.err ≠ 0#4 ↔ s.session = .faulted
  oneSentinel : ¬ (s.ackf = true ∧ s.nackf = true)
  scanposOk : s.ackf = true ∨ s.nackf = true → s.scanpos.toNat < bufCapOf s.cfg
  linesHigh : s.session ≠ .faulted → s.resetN = true ∧ s.blEnN = true
  lawful : ∀ e ∈ s.trace, e.lawful s.cfg
  inOrder : Chronological s.trace s.now

end Sys2Proof.Machine
end

