-- ==== Sys2Proof/Certificates/Slice0/Obligations.lean ====
section
/-! DEFINITION. The statements for the provers, in the order of OBLIGATIONS.json. -/

open Sys2Proof Sys2Proof.Machine

/-! ## Encoding -/

/-- Every well-formed wire item is what its encoding decodes to, whatever bytes follow (30_encoding.md R60 to R65,
R73; the decoder is told what it expects: log 4). -/
def Obligations.DecodeOfEncode : Prop :=
  ∀ (i : Instr) (rest : List Byte), WellFormed i → decode (expectationOf i) (encode i ++ rest) = .ok i

/-- Whatever decodes is well formed, is of the expected kind, and its bytes begin with its encoding, so each byte
sequence has one meaning (30_encoding.md R69, R70, R73, R74; log 4). -/
def Obligations.EncodeOfDecode : Prop :=
  ∀ (e : Expectation) (bytes : List Byte) (i : Instr), decode e bytes = .ok i →
    WellFormed i ∧ expectationOf i = e ∧ ∃ rest, bytes = encode i ++ rest

/-- Words written out from the spec's worked examples decode to the items they stand for (43_commands.md R140 to
R156, 95_test_vectors.md). -/
def Obligations.SpecWordsDecode : Prop :=
  decode .request [0x03#8, 0x20#8, 0x20#8] = .ok .ping ∧
  decode .request [0x0B#8, 0x2B#8, 0x21#8, 0x00#8, 0x00#8, 0x10#8, 0x00#8, 0x00#8, 0x00#8, 0x01#8, 0xF9#8] =
    .ok (.download 0x00001000#32 505#32) ∧
  decode .request [0x07#8, 0x2E#8, 0x24#8, 0x01#8, 0x02#8, 0x03#8, 0x04#8] =
    .ok (.sendData [0x01#8, 0x02#8, 0x03#8, 0x04#8]) ∧
  decode .request [0x0F#8, 0xDD#8, 0x27#8, 0x00#8, 0x00#8, 0x30#8, 0x30#8, 0x00#8, 0x00#8, 0xAB#8, 0xAB#8,
    0x00#8, 0x00#8, 0x00#8, 0x00#8] = .ok (.crc32 0x3030#32 0xABAB#32 0#32) ∧
  decode .request [0x09#8, 0x4F#8, 0x2A#8, 0x20#8, 0x00#8, 0x00#8, 0x00#8, 0x01#8, 0x04#8] =
    .ok (.memoryRead 0x20000000#32 1#8 4#8) ∧
  decode .chipIdReply [0x06#8, 0xA2#8, 0x20#8, 0x02#8, 0x80#8, 0x00#8] = .ok (.chipIdReply 0x20028000#32) ∧
  decode .commandStatus [0x03#8, 0x44#8, 0x44#8] = .ok (.commandStatus .flashFail) ∧
  decode .sentinel [0x33#8] = .ok .nack ∧
  decode .request [0x03#8, 0x22#8, 0x22#8] = .error (.unassignedCmd 0x22#8)

/-- The layouts of the packets, byte by byte (30_encoding.md R65): `len`, the checksum over the bytes after it, the
CMD of a request, the fields in declared order. -/
def Obligations.PacketLayouts : Prop :=
  (∀ cmd, ∀ i, (i, cmd) ∈ [(Instr.ping, 0x20#8), (.getStatus, 0x23#8), (.reset, 0x25#8), (.getChipId, 0x28#8),
    (.bankErase, 0x2C#8)] → encode i = [3#8, cmd, cmd]) ∧
  (∀ a, encode (.sectorErase a) = 7#8 :: checksum (0x26#8 :: be32 a) :: 0x26#8 :: be32 a) ∧
  (∀ a n, encode (.download a n) = 11#8 :: checksum (0x21#8 :: be32 a ++ be32 n) :: 0x21#8 :: be32 a ++ be32 n) ∧
  (∀ a n r, encode (.crc32 a n r) =
    15#8 :: checksum (0x27#8 :: be32 a ++ be32 n ++ be32 r) :: 0x27#8 :: be32 a ++ be32 n ++ be32 r) ∧
  (∀ a k c, encode (.memoryRead a k c) = 9#8 :: checksum (0x2A#8 :: be32 a ++ [k, c]) :: 0x2A#8 :: be32 a ++ [k, c]) ∧
  (∀ d : List Byte, encode (.sendData d) = BitVec.ofNat 8 (3 + d.length) :: checksum (0x24#8 :: d) :: 0x24#8 :: d) ∧
  (∀ a n, ∀ d : List Byte, encode (.memoryWrite a n d) =
    BitVec.ofNat 8 (11 + d.length) :: checksum (0x2B#8 :: be32 a ++ be32 n ++ d) :: 0x2B#8 :: be32 a ++ be32 n ++ d) ∧
  (∀ v, encode (.chipIdReply v) = 6#8 :: checksum (be32 v) :: be32 v) ∧
  (∀ v, encode (.crc32Reply v) = 6#8 :: checksum (be32 v) :: be32 v) ∧
  (∀ v, encode (.commandStatus v) = [3#8, statusCode v, statusCode v]) ∧
  (∀ x, encode (.ack x) = [0xCC#8]) ∧ encode .nack = [0x33#8]

/-- `be32` puts the most significant byte first and `from_be32` is its inverse (20_memory.md R42, 00_scope.md R8). -/
def Obligations.BigEndianFields : Prop :=
  (∀ v : U32, ∃ a b c d : Byte, be32 v = [a, b, c, d] ∧
    v.toNat = a.toNat * 2 ^ 24 + b.toNat * 2 ^ 16 + c.toNat * 2 ^ 8 + d.toNat ∧ fromBe32 a b c d = v) ∧
  (∀ a b c d : Byte, be32 (fromBe32 a b c d) = [a, b, c, d]) ∧
  be32 0x3030#32 = [0x00#8, 0x00#8, 0x30#8, 0x30#8] ∧ be32 0xABAB#32 = [0x00#8, 0x00#8, 0xAB#8, 0xAB#8]

/-- Bits of a word travel most significant first and words in index order; the first bit captured becomes bit 7
(20_memory.md R43, R44; a function beside the byte-level machine: log 22). -/
def Obligations.BitsOnTheWire : Prop :=
  (∀ (s : List Byte) (i k : Nat) (h : i < s.length), k < 8 → (wireBits s)[8 * i + k]? = some (s[i].getLsbD (7 - k))) ∧
  (∀ (bits : List Bool) (k : Nat) (h : k < bits.length), bits.length = 8 →
    (byteOfBits bits).getLsbD (7 - k) = bits[k])

/-! ## The framer -/

/-- CHECKSUM writes and returns the arithmetic sum of the bytes modulo 256, in every SESSION state; it covers `[cmd]`
and the payload of a request, the payload alone of a reply (41_framer.md R110). -/
def Obligations.ChecksumOperation : Prop :=
  (∀ (s : State) (bytes : List Byte), ∃ c : Byte,
    execOp (.checksum bytes) s = .next { s with cksacc := c, result := .value (.byte c) } ∧
    c.toNat = (bytes.map BitVec.toNat).sum % 256) ∧
  (∀ (i : Instr) (v : Variant) (cmd : Byte), variantOf i = some v → cmdOf v = some cmd →
    ∃ c : Byte, (encode i)[1]? = some c ∧
      c.toNat = (((cmd :: payloadOf i).map BitVec.toNat).sum) % 256) ∧
  (∀ (i : Instr) (v : Variant), variantOf i = some v → cmdOf v = none →
    ∃ c : Byte, (encode i)[1]? = some c ∧ c.toNat = (((payloadOf i).map BitVec.toNat).sum) % 256)

/-- The laws of the checksum (41_framer.md R111 a to e). -/
def Obligations.ChecksumLaws : Prop :=
  checksum [] = 0#8 ∧ (∀ b, checksum [b] = b) ∧
  (∀ s t, (checksum (s ++ t)).toNat = ((checksum s).toNat + (checksum t).toNat) % 256) ∧
  (∀ s t : List Byte, s.Perm t → checksum s = checksum t) ∧
  (∀ s t n, checksum (s ++ zeros n ++ t) = checksum (s ++ t)) ∧
  (∀ b, checksum (List.replicate 256 b) = 0#8) ∧
  checksum [0xFF#8, 0x01#8] = 0x00#8 ∧ checksum [0x80#8, 0x80#8] = 0x00#8

/-- SERIALIZE of a request in its length bounds: the packet and its IDLE zeros are in TXBUF, TXLEN counts them, CKSACC
holds the checksum, nothing else changes but what the controller receives; in every SESSION state (41_framer.md R112). -/
def Obligations.SerializeLoadsPacket : Prop :=
  ∀ (s : State) (i : Instr) (v : Variant) (cmd : Byte), variantOf i = some v → cmdOf v = some cmd →
    minLen v ≤ 3 + (payloadOf i).length → 3 + (payloadOf i).length ≤ maxLen v →
    ∃ t, execOp (.serialize i) s = .next t ∧
      t = { s with
        txbuf := t.txbuf
        txlen := BitVec.ofNat 16 (3 + (payloadOf i).length + idleOf v)
        cksacc := checksum (cmd :: payloadOf i)
        result := .value .unit } ∧
      LaidOver t.txbuf s.txbuf
        ([BitVec.ofNat 8 (3 + (payloadOf i).length), checksum (cmd :: payloadOf i), cmd] ++ payloadOf i ++
          zeros (idleOf v)) ∧
      3 + (payloadOf i).length < 256 ∧ 3 + (payloadOf i).length + idleOf v ≤ 305

/-- The length bound at serialisation (41_framer.md R113): only SendData of no or more than 252 bytes and MemoryWrite
of more than 244 miss it; then SERIALIZE raises BoundViolation, and TXBUF, TXLEN and TRACE are unchanged. -/
def Obligations.SerializeBoundViolation : Prop :=
  (∀ i, ¬ WellFormed i ↔ (∃ d, i = .sendData d ∧ (d.length = 0 ∨ 253 ≤ d.length)) ∨
    ∃ a n d, i = .memoryWrite a n d ∧ 245 ≤ d.length) ∧
  (∀ (s : State) (i : Instr), ¬ WellFormed i →
    execOp (.serialize i) s = .next { s with
      err := s.errAfter 1#4
      fault := true
      session := .faulted
      result := .error (.boundViolation .atSerialize (3 + (payloadOf i).length)) })

/-- ACK_SCAN (41_framer.md R114): the first 0xCC or 0x33 of the window decides; bytes before it are discarded and bytes
after it are not looked at. -/
def Obligations.AckScanDecides : Prop :=
  ∀ s : State, sessionOpen s.session = true →
    (∀ z w, s.rxBytes = z ++ 0xCC#8 :: w → SentinelFree z →
      execOp .ackScan s = .next { s with
        ackf := true, nackf := false, scanpos := BitVec.ofNat 16 z.length, result := .value .unit }) ∧
    (∀ z w, s.rxBytes = z ++ 0x33#8 :: w → SentinelFree z →
      execOp .ackScan s = .next { s with
        ackf := false, nackf := true, scanpos := BitVec.ofNat 16 z.length
        err := s.errAfter 3#4, fault := true, session := .faulted
        result := .error (.nack (BitVec.ofNat 16 z.length)) }) ∧
    (SentinelFree s.rxBytes →
      execOp .ackScan s = .next { s with
        ackf := false, nackf := false
        err := s.errAfter 2#4, fault := true, session := .faulted
        result := .error .noAck })

/-- PARSE_REPLY's checks in their order, each with all it leaves written (41_framer.md R116, R117, 60_exceptions.md R232).
First the scan: a window whose first sentinel is a NACK, and one that holds no sentinel, end there. Then the window is
`z ++ [0xCC] ++ tail`, the header `len`, `cks`. -/
def Obligations.ParseReplyChecksInOrder : Prop :=
  (∀ (s : State) (v : Variant), sessionOpen s.session = true →
    (∀ z w, s.rxBytes = z ++ 0x33#8 :: w → SentinelFree z →
      execOp (.parseReply v) s = .next { s with
        ackf := false, nackf := true, scanpos := BitVec.ofNat 16 z.length
        err := s.errAfter 3#4, fault := true, session := .faulted
        result := .error (.nack (BitVec.ofNat 16 z.length)) }) ∧
    (SentinelFree s.rxBytes →
      execOp (.parseReply v) s = .next { s with
        ackf := false, nackf := false
        err := s.errAfter 2#4, fault := true, session := .faulted
        result := .error .noAck })) ∧
  ∀ (s : State) (v : Variant) (z tail : List Byte), sessionOpen s.session = true → SentinelFree z →
    s.rxBytes = z ++ 0xCC#8 :: tail →
    (tail.length < 2 → execOp (.parseReply v) s = .next { s with
      ackf := true, nackf := false, scanpos := BitVec.ofNat 16 z.length
      err := s.errAfter 6#4, fault := true, session := .faulted, result := .error .packetTooShort }) ∧
    (∀ len cks rest, tail = len :: cks :: rest →
      (len.toNat < minLen v - 1 → execOp (.parseReply v) s = .next { s with
        ackf := true, nackf := false, scanpos := BitVec.ofNat 16 z.length, rlen := len, rcks := cks
        err := s.errAfter 1#4, fault := true, session := .faulted
        result := .error (.boundViolation .minPayloadNotMet len.toNat) }) ∧
      (maxLen v - 1 < len.toNat → execOp (.parseReply v) s = .next { s with
        ackf := true, nackf := false, scanpos := BitVec.ofNat 16 z.length, rlen := len, rcks := cks
        err := s.errAfter 1#4, fault := true, session := .faulted
        result := .error (.boundViolation .maxPayloadExceeded len.toNat) }) ∧
      (minLen v - 1 ≤ len.toNat → len.toNat ≤ maxLen v - 1 → rest.length < len.toNat - 2 →
        execOp (.parseReply v) s = .next { s with
          ackf := true, nackf := false, scanpos := BitVec.ofNat 16 z.length, rlen := len, rcks := cks
          err := s.errAfter 6#4, fault := true, session := .faulted, result := .error .packetTooShort }) ∧
      (minLen v - 1 ≤ len.toNat → len.toNat ≤ maxLen v - 1 → len.toNat - 2 ≤ rest.length →
        checksum (rest.take (len.toNat - 2)) ≠ cks →
        execOp (.parseReply v) s = .next { s with
          ackf := true, nackf := false, scanpos := BitVec.ofNat 16 z.length, rlen := len, rcks := cks
          cksacc := checksum (rest.take (len.toNat - 2))
          err := s.errAfter 4#4, fault := true, session := .faulted
          result := .error (.badChecksum cks (checksum (rest.take (len.toNat - 2)))) }) ∧
      (minLen v - 1 ≤ len.toNat → len.toNat ≤ maxLen v - 1 → len.toNat - 2 ≤ rest.length →
        checksum (rest.take (len.toNat - 2)) = cks → ∃ t, execOp (.parseReply v) s = .next t ∧
        LaidOver t.rpay s.rpay (rest.take (len.toNat - 2)) ∧
        match decodeFields (fieldsOf v) (rest.take (len.toNat - 2)) with
        | .ok vals => t = { s with
            ackf := true, nackf := false, scanpos := BitVec.ofNat 16 z.length, rlen := len, rcks := cks
            cksacc := cks, rpay := t.rpay, rpaylen := BitVec.ofNat 8 (len.toNat - 2)
            chipid := if v = .chipIdReply then t.chipid else s.chipid
            crcDevice := if v = .crc32Reply then t.crcDevice else s.crcDevice
            crcDeviceWritten := if v = .crc32Reply then true else s.crcDeviceWritten
            status := if v = .commandStatus then t.status else s.status
            result := .value (.fields vals) } ∧
            (v = .chipIdReply → vals = [.u32 t.chipid]) ∧ (v = .crc32Reply → vals = [.u32 t.crcDevice]) ∧
            (v = .commandStatus → vals = [.status t.status])
        | .error e => ∃ k, (e = .tooShort ∧ k = .packetTooShort ∨ ∃ b, e = .badStatus b ∧ k = .invalidStatusCode b) ∧
          t = { s with
            ackf := true, nackf := false, scanpos := BitVec.ofNat 16 z.length, rlen := len, rcks := cks
            cksacc := cks, rpay := t.rpay, rpaylen := BitVec.ofNat 8 (len.toNat - 2)
            err := s.errAfter (errorCode k), fault := true, session := .faulted, result := .error k }))

/-- The round trip of replies (41_framer.md R118): what SERIALIZE_REPLY builds, after any bytes without a sentinel and
before any bytes, PARSE_REPLY returns, for every variant and every typed field tuple in bounds. -/
def Obligations.ReplyRoundTrip : Prop :=
  ∀ (s : State) (v : Variant) (vals : List FieldValue) (z b w : List Byte), sessionOpen s.session = true →
    haveTypes vals (fieldsOf v) = true → serializeReply v vals = .ok b → SentinelFree z →
    s.rxBytes = z ++ b ++ w →
    ∃ t, execOp (.parseReply v) s = .next t ∧ t.result = .value (.fields vals) ∧ t.session = s.session ∧
      t.fault = s.fault ∧ t.err = s.err

/-! ## The transceiver -/

/-- The least duration of an exchange is the ceiling of its bit time, `2_000 * n` ns at 4 MHz (40_transport.md R90). -/
def Obligations.ExchangeLeastDuration : Prop :=
  (∀ (c : Configuration) (n d : Nat), 1 ≤ c.spiClockHz.toNat →
    (exchangeMinNs c n ≤ d ↔ n * 8 * 1000000000 ≤ d * c.spiClockHz.toNat)) ∧
  (∀ (c : Configuration) (n : Nat), c.spiClockHz = 4000000#32 → exchangeMinNs c n = 2000 * n)

/-- TRANSFER (40_transport.md R91): accepted with 1 to BUF_CAP bytes in an open session; it clocks TXBUF out as it
stands and captures as many bytes; a failing link leaves RXBUF and RXLEN unchanged. -/
def Obligations.TransferOperation : Prop :=
  (∀ s : State, sessionOpen s.session = false → execOp .transfer s = .refused (.sessionState s.session)) ∧
  ∀ s : State, sessionOpen s.session = true →
    (s.txlen = 0#16 → execOp .transfer s = .refused .emptyTransfer) ∧
    (bufCapOf s.cfg < s.txlen.toNat → execOp .transfer s = .refused .transferTooLong) ∧
    (1 ≤ s.txlen.toNat → s.txlen.toNat ≤ bufCapOf s.cfg → s.ioFails 0 = false →
      ∃ t, execOp .transfer s = .next t ∧
        t = { s with
          rxbuf := t.rxbuf
          rxlen := s.txlen
          now := t.now
          trace := s.trace ++ [.xfer s.txBytes (s.capture s.txlen.toNat) s.now t.now]
          env := s.envAfter 1 s.txlen.toNat 1
          result := .value .unit } ∧
        LaidOver t.rxbuf s.rxbuf (s.capture s.txlen.toNat) ∧
        Elapsed s.now (exchangeMinNs s.cfg s.txlen.toNat) t.now) ∧
    (1 ≤ s.txlen.toNat → s.txlen.toNat ≤ bufCapOf s.cfg → s.ioFails 0 = true →
      execOp .transfer s = .next { s with
        env := s.envAfter 1 0 0
        err := s.errAfter 9#4
        fault := true
        session := .faulted
        result := .error .transport })

/-- READ(n) (40_transport.md R92): a transfer of `n` zeros, `1 <= n <= BUF_CAP`. -/
def Obligations.ReadOperation : Prop :=
  (∀ (s : State) (n : U16), sessionOpen s.session = false →
    execOp (.read n) s = .refused (.sessionState s.session)) ∧
  ∀ (s : State) (n : U16), sessionOpen s.session = true →
    (n = 0#16 → execOp (.read n) s = .refused .emptyTransfer) ∧
    (bufCapOf s.cfg < n.toNat → execOp (.read n) s = .refused .transferTooLong) ∧
    (1 ≤ n.toNat → n.toNat ≤ bufCapOf s.cfg → s.ioFails 0 = false →
      ∃ t, execOp (.read n) s = .next t ∧
        t = { s with
          txbuf := t.txbuf
          txlen := n
          rxbuf := t.rxbuf
          rxlen := n
          now := t.now
          trace := s.trace ++ [.xfer (zeros n.toNat) (s.capture n.toNat) s.now t.now]
          env := s.envAfter 1 n.toNat 1
          result := .value .unit } ∧
        LaidOver t.txbuf s.txbuf (zeros n.toNat) ∧ LaidOver t.rxbuf s.rxbuf (s.capture n.toNat) ∧
        Elapsed s.now (exchangeMinNs s.cfg n.toNat) t.now) ∧
    (1 ≤ n.toNat → n.toNat ≤ bufCapOf s.cfg → s.ioFails 0 = true →
      ∃ t, execOp (.read n) s = .next t ∧
        t = { s with
          txbuf := t.txbuf
          txlen := n
          env := s.envAfter 1 0 0
          err := s.errAfter 9#4
          fault := true
          session := .faulted
          result := .error .transport } ∧
        LaidOver t.txbuf s.txbuf (zeros n.toNat))

/-- HOST_ACK (40_transport.md R93): a transfer of the one byte 0xCC, whose captured byte is not scanned. -/
def Obligations.HostAckOperation : Prop :=
  ∀ s : State, sessionOpen s.session = true →
    (s.ioFails 0 = false → ∃ t, execOp .hostAck s = .next t ∧
      t = { s with
        txbuf := t.txbuf, txlen := 1#16, rxbuf := t.rxbuf, rxlen := 1#16
        now := t.now
        trace := s.trace ++ [.xfer [0xCC#8] (s.capture 1) s.now t.now]
        env := s.envAfter 1 1 1
        result := .value .unit } ∧
      LaidOver t.txbuf s.txbuf [0xCC#8] ∧ LaidOver t.rxbuf s.rxbuf (s.capture 1) ∧
      Elapsed s.now (exchangeMinNs s.cfg 1) t.now) ∧
    (s.ioFails 0 = true → ∃ t, execOp .hostAck s = .next t ∧
      t = { s with
        txbuf := t.txbuf, txlen := 1#16
        env := s.envAfter 1 0 0
        err := s.errAfter 9#4, fault := true, session := .faulted
        result := .error .transport } ∧
      LaidOver t.txbuf s.txbuf [0xCC#8])

/-- WAIT(d) in every SESSION state: time advances by at least `d`, a Sleep is recorded, nothing else changes
(40_transport.md R94; past the last `u64` nothing is said: log 6). -/
def Obligations.WaitOperation : Prop :=
  ∀ (s : State) (d : U64), ∃ t, execOp (.wait d) s = .next t ∧
    t = { s with
      now := t.now
      trace := s.trace ++ [.sleep d s.now t.now]
      env := s.envAfter 0 0 1
      result := .value .unit } ∧
    Elapsed s.now d.toNat t.now

/-- ENTER_BOOTLOADER over a working link, from every SESSION state: the six steps in order with their least times, the
flags, ERR and STATUS cleared, both lines high, SESSION = Entered (40_transport.md R96). -/
def Obligations.EnterBootloaderCompletes : Prop :=
  ∀ s : State, LinkUp s 5 →
    ∃ t t1 t2 t3, execOp .enterBootloader s = .next t ∧
      t = { s with
        fault := false, err := 0#4, ackf := false, nackf := false, crcMatch := false, status := .default
        txbuf := t.txbuf, txlen := 1#16, rxbuf := t.rxbuf, rxlen := 1#16
        resetN := true, blEnN := true, session := .entered
        now := t.now
        trace := s.trace ++ entryEvents s t1 t2 t3 t.now
        env := s.envAfter 5 1 4
        result := .value .unit } ∧
      LaidOver t.txbuf s.txbuf [0x00#8] ∧ LaidOver t.rxbuf s.rxbuf (s.capture 1) ∧
      Elapsed s.now (s.cfg.resetLowMs.toNat * 1000000) t1 ∧ Elapsed t1 (s.cfg.resetHighMs.toNat * 1000000) t2 ∧
      Elapsed t2 (exchangeMinNs s.cfg 1) t3 ∧ Elapsed t3 (s.cfg.blEntryQuietMs.toNat * 1000000) t.now

/-- ENTER_BOOTLOADER at its first failing I/O primitive (40_transport.md R96, 60_exceptions.md R230): it stops where it
is with Transport, SESSION is Faulted, the lines keep the levels reached, and TRACE has the events made before. -/
def Obligations.EnterBootloaderStopsWhereItFails : Prop :=
  ∀ (s : State) (k : Nat), k < 5 → (∀ j, j < k → s.ioFails j = false) → s.ioFails k = true →
    ∃ t t1 t2 t3 t4, execOp .enterBootloader s = .next t ∧
      t = { s with
        err := 9#4, fault := true, session := .faulted
        ackf := false, nackf := false, crcMatch := false, status := .default
        blEnN := if k = 0 then s.blEnN else false
        resetN := if k ≤ 1 then s.resetN else if k = 2 then false else true
        txbuf := t.txbuf
        txlen := if k ≤ 2 then s.txlen else 1#16
        rxbuf := t.rxbuf
        rxlen := if k ≤ 3 then s.rxlen else 1#16
        now := [s.now, s.now, t1, t2, t4][k]!
        trace := s.trace ++ (entryEvents s t1 t2 t3 t4).take [0, 1, 3, 5, 7][k]!
        env := s.envAfter (k + 1) (if k ≤ 3 then 0 else 1) [0, 0, 1, 2, 4][k]!
        result := .error .transport } ∧
      Elapsed s.now (s.cfg.resetLowMs.toNat * 1000000) t1 ∧ Elapsed t1 (s.cfg.resetHighMs.toNat * 1000000) t2 ∧
      Elapsed t2 (exchangeMinNs s.cfg 1) t3 ∧ Elapsed t3 (s.cfg.blEntryQuietMs.toNat * 1000000) t4 ∧
      LaidOver t.txbuf s.txbuf (if k ≤ 2 then [] else [0x00#8]) ∧
      LaidOver t.rxbuf s.rxbuf (if k ≤ 3 then [] else s.capture 1)

/-- Acceptance by SESSION (40_transport.md R99): outside Entered, Initialized and Operational the operations that need
the wire are refused; ENTER_BOOTLOADER, WAIT, CHECKSUM, SERIALIZE and CRC32 are accepted in every state. The controller's
loading of TXBUF and TXLEN, which R91 speaks of, is the model's request (log 19): accepted in every state with up to BUF_CAP
bytes, which TXBUF[0 .. TXLEN] then holds; a longer load is refused. SERIALIZE takes requests only: of a reply or a sentinel it
is refused in every state (41_framer.md R112; log 26). -/
def Obligations.AcceptanceBySession : Prop :=
  (∀ x : Session, sessionOpen x = true ↔ x = .entered ∨ x = .initialized ∨ x = .operational) ∧
  (∀ i : Instr, requestOf i = none ↔ (∃ v, i = .chipIdReply v) ∨ (∃ v, i = .crc32Reply v) ∨
    (∃ v, i = .commandStatus v) ∨ (∃ x, i = .ack x) ∨ i = .nack) ∧
  (∀ s : State, sessionOpen s.session = false →
    execOp .transfer s = .refused (.sessionState s.session) ∧
    (∀ n, execOp (.read n) s = .refused (.sessionState s.session)) ∧
    execOp .hostAck s = .refused (.sessionState s.session) ∧
    execOp .ackScan s = .refused (.sessionState s.session) ∧
    (∀ v, execOp (.parseReply v) s = .refused (.sessionState s.session)) ∧
    execOp .crcCompare s = .refused (.sessionState s.session)) ∧
  (∀ s : State, (∃ t, execOp .enterBootloader s = .next t) ∧ (∀ d, ∃ t, execOp (.wait d) s = .next t) ∧
    (∀ b, ∃ t, execOp (.checksum b) s = .next t) ∧
    (∀ i, (requestOf i).isSome = true → ∃ t, execOp (.serialize i) s = .next t) ∧
    (∀ i, requestOf i = none → execOp (.serialize i) s = .refused .notARequest) ∧
    (∀ (g : Segment) (rest : Image), imageInBounds (g :: rest) = true →
      ∃ t, execOp (.crc32 (g :: rest) g.start g.data.length) s = .next t) ∧
    (∀ b : List Byte, b.length ≤ bufCapOf s.cfg → ∃ t, execOp (.loadTx b) s = .next t ∧
      t = { s with txbuf := t.txbuf, txlen := BitVec.ofNat 16 b.length, result := .value .unit } ∧
      LaidOver t.txbuf s.txbuf b ∧ t.txBytes = b) ∧
    ∀ b : List Byte, bufCapOf s.cfg < b.length → execOp (.loadTx b) s = .refused .transferTooLong)

/-! ## The CRC-32 validator -/

/-- CRC32(addr, n) over bytes inside a segment (42_crc32.md R131): CRCACC runs bit by bit from 0xFFFFFFFF, CRC_LOCAL and
the returned value are its complement; every range that a segment holds is read, an empty one as no bytes (log 15), and
bytes no one segment holds have no meaning (20_memory.md R51; log 15); an image out of bounds is refused (45_image_input.md
R200; log 16). -/
def Obligations.Crc32Operation : Prop :=
  (∀ (s : State) (image : Image) (addr : U32) (n : Nat) (bytes : List Byte), imageInBounds image = true →
    memRead image addr.toNat n = some bytes →
    ∃ acc, acc = bytes.foldl (fun c b => Nat.rec (c ^^^ b.setWidth 32)
        (fun _ c => if c.getLsbD 0 then (c >>> 1) ^^^ 0xEDB88320#32 else c >>> 1) 8) 0xFFFFFFFF#32 ∧
      execOp (.crc32 image addr n) s = .next { s with
        crcacc := acc
        crcLocal := acc ^^^ 0xFFFFFFFF#32
        crcLocalWritten := true
        result := .value (.word (acc ^^^ 0xFFFFFFFF#32)) }) ∧
  (∀ (s : State) (image : Image) (addr : U32) (n : Nat), imageInBounds image = true →
    memRead image addr.toNat n = none → execOp (.crc32 image addr n) s = .fault (.imageHole addr n)) ∧
  (∀ (s : State) (image : Image) (addr : U32) (n : Nat), imageInBounds image = false →
    execOp (.crc32 image addr n) s = .refused .imageOutOfBounds) ∧
  (∀ (image : Image) (addr n : Nat), ((∃ g ∈ image, g.start.toNat ≤ addr ∧ addr + n ≤ g.start.toNat + g.data.length) ∨
    n = 0) → ∃ bytes, memRead image addr n = some bytes ∧ bytes.length = n) ∧
  (∀ (image : Image) (addr n : Nat) (bytes : List Byte), 1 ≤ n → memRead image addr n = some bytes →
    bytes.length = n ∧ ∃ g ∈ image, g.start.toNat ≤ addr ∧ addr + n ≤ g.start.toNat + g.data.length ∧
      ∀ k, k < n → bytes[k]? = g.data[addr - g.start.toNat + k]?)

/-- The table-driven form computes the same function as the bit-serial one (42_crc32.md R131, from general knowledge
there). -/
def Obligations.CrcByTable : Prop := ∀ s : List Byte, crc32ByTable s = crc32 s

/-- The CRC is affine over GF(2): for sequences of equal length, the CRC of the exclusive or of three is the exclusive
or of the three CRCs (42_crc32.md R133, from general knowledge there). -/
def Obligations.CrcAffine : Prop :=
  ∀ x y z : List Byte, x.length = y.length → y.length = z.length →
    crc32 ((x.zip (y.zip z)).map fun p => p.1 ^^^ p.2.1 ^^^ p.2.2) = crc32 x ^^^ crc32 y ^^^ crc32 z

/-- CRC_COMPARE (42_crc32.md R135): CRC_MATCH tells whether all 32 bits agree; before both values are written it is
refused (U9; log 14). -/
def Obligations.CrcCompareOperation : Prop :=
  ∀ s : State, sessionOpen s.session = true →
    (s.crcLocalWritten = true → s.crcDeviceWritten = true → ∃ b,
      execOp .crcCompare s = .next { s with crcMatch := b, result := .value (.bool b) } ∧
      (b = true ↔ ∀ k, k < 32 → s.crcLocal.getLsbD k = s.crcDevice.getLsbD k)) ∧
    (s.crcLocalWritten = false ∨ s.crcDeviceWritten = false → execOp .crcCompare s = .refused .crcUnwritten)

/-! ## The wire items -/

/-- Ping, Download and Reset complete over a working link whose window holds an ACK before any NACK (43_commands.md
R140, R141, R144): the packet and its IDLE zeros are clocked out, the window is captured and scanned; everything else is
unchanged. -/
def Obligations.BareAckRequestsComplete : Prop :=
  ∀ (s : State) (i : Instr) (idle n : Nat) (z w : List Byte),
    (i = .ping ∧ idle = 36 ∨ (∃ a len, i = .download a len ∧ idle = 24) ∨ i = .reset ∧ idle = 32) →
    sessionOpen s.session = true → LinkUp s 1 → n = (encode i).length + idle →
    s.capture n = z ++ 0xCC#8 :: w → SentinelFree z →
    ∃ t, exec i s = .next t ∧
      t = { s with
        txbuf := t.txbuf, txlen := BitVec.ofNat 16 n, rxbuf := t.rxbuf, rxlen := BitVec.ofNat 16 n
        cksacc := checksum ((encode i).drop 2)
        ackf := true, nackf := false, scanpos := BitVec.ofNat 16 z.length
        now := t.now
        trace := s.trace ++ [.xfer (encode i ++ zeros idle) (s.capture n) s.now t.now]
        env := s.envAfter 1 n 1
        result := .value .unit } ∧
      LaidOver t.txbuf s.txbuf (encode i ++ zeros idle) ∧ LaidOver t.rxbuf s.rxbuf (s.capture n) ∧
      Elapsed s.now (exchangeMinNs s.cfg n) t.now

/-- SendData, SectorErase, Crc32, MemoryRead, MemoryWrite and BankErase complete over a working link (43_commands.md
R143, R145, R146, R148, R149, R150): the packet and its IDLE zeros are clocked out and as many bytes captured, which are
not scanned; everything else is unchanged. The packet `p` is the item's own; of a Crc32 item it has repeat 0, whatever the item's
operand says (42_crc32.md R136; that an operand other than 0 is not sent is read from the spec by inference: log 13). -/
def Obligations.SendOnlyRequestsComplete : Prop :=
  ∀ (s : State) (i p : Instr) (idle n : Nat),
    (p = i ∧ ((∃ d, i = .sendData d ∧ 1 ≤ d.length ∧ d.length ≤ 252 ∧ idle = 0) ∨ (∃ a, i = .sectorErase a ∧ idle = 0) ∨
        (∃ a k c, i = .memoryRead a k c ∧ idle = 272) ∨
        (∃ a len d, i = .memoryWrite a len d ∧ d.length ≤ 244 ∧ idle = 50) ∨ i = .bankErase ∧ idle = 0) ∨
      ∃ a len r, i = .crc32 a len r ∧ p = .crc32 a len 0#32 ∧ idle = 0) →
    sessionOpen s.session = true → LinkUp s 1 → n = (encode p).length + idle →
    ∃ t, exec i s = .next t ∧
      t = { s with
        txbuf := t.txbuf, txlen := BitVec.ofNat 16 n, rxbuf := t.rxbuf, rxlen := BitVec.ofNat 16 n
        cksacc := checksum ((encode p).drop 2)
        now := t.now
        trace := s.trace ++ [.xfer (encode p ++ zeros idle) (s.capture n) s.now t.now]
        env := s.envAfter 1 n 1
        result := .value .unit } ∧
      LaidOver t.txbuf s.txbuf (encode p ++ zeros idle) ∧ LaidOver t.rxbuf s.rxbuf (s.capture n) ∧
      Elapsed s.now (exchangeMinNs s.cfg n) t.now

/-- GetStatus completes when its window holds the ACK and a CommandStatus packet (43_commands.md R142, R154): STATUS
takes the value, RLEN, RCKS, RPAY and RPAYLEN describe the reply, and the host ACK is sent. -/
def Obligations.GetStatusCompletes : Prop :=
  ∀ (s : State) (v : StatusValue) (z w : List Byte), sessionOpen s.session = true → LinkUp s 2 →
    s.capture 35 = z ++ [0xCC#8, 3#8, statusCode v, statusCode v] ++ w → SentinelFree z →
    ∃ t t1, exec .getStatus s = .next t ∧
      t = { s with
        txbuf := t.txbuf, txlen := 1#16, rxbuf := t.rxbuf, rxlen := 1#16
        ackf := true, nackf := false, scanpos := BitVec.ofNat 16 z.length
        rlen := 3#8, rcks := statusCode v, rpay := t.rpay, rpaylen := 1#8, cksacc := statusCode v
        status := v
        now := t.now
        trace := s.trace ++ [.xfer ([0x03#8, 0x23#8, 0x23#8] ++ zeros 32) (s.capture 35) s.now t1,
          .xfer [0xCC#8] (s.window 35 1) t1 t.now]
        env := s.envAfter 2 36 2
        result := .value (.fields [.status v]) } ∧
      LaidOver t.txbuf s.txbuf (0xCC#8 :: [0x23#8, 0x23#8] ++ zeros 32) ∧
      LaidOver t.rxbuf s.rxbuf (s.window 35 1 ++ (s.capture 35).drop 1) ∧
      LaidOver t.rpay s.rpay [statusCode v] ∧
      Elapsed s.now (exchangeMinNs s.cfg 35) t1 ∧ Elapsed t1 (exchangeMinNs s.cfg 1) t.now

/-- GetChipId completes when its window holds the ACK and a ChipIdReply packet (43_commands.md R147, R152): CHIPID takes
the value, and the host ACK is sent. -/
def Obligations.GetChipIdCompletes : Prop :=
  ∀ (s : State) (v : U32) (z w : List Byte), sessionOpen s.session = true → LinkUp s 2 →
    s.capture 45 = z ++ (0xCC#8 :: 6#8 :: checksum (be32 v) :: be32 v) ++ w → SentinelFree z →
    ∃ t t1, exec .getChipId s = .next t ∧
      t = { s with
        txbuf := t.txbuf, txlen := 1#16, rxbuf := t.rxbuf, rxlen := 1#16
        ackf := true, nackf := false, scanpos := BitVec.ofNat 16 z.length
        rlen := 6#8, rcks := checksum (be32 v), rpay := t.rpay, rpaylen := 4#8, cksacc := checksum (be32 v)
        chipid := v
        now := t.now
        trace := s.trace ++ [.xfer ([0x03#8, 0x28#8, 0x28#8] ++ zeros 42) (s.capture 45) s.now t1,
          .xfer [0xCC#8] (s.window 45 1) t1 t.now]
        env := s.envAfter 2 46 2
        result := .value (.fields [.u32 v]) } ∧
      LaidOver t.txbuf s.txbuf (0xCC#8 :: [0x28#8, 0x28#8] ++ zeros 42) ∧
      LaidOver t.rxbuf s.rxbuf (s.window 45 1 ++ (s.capture 45).drop 1) ∧
      LaidOver t.rpay s.rpay (be32 v) ∧
      Elapsed s.now (exchangeMinNs s.cfg 45) t1 ∧ Elapsed t1 (exchangeMinNs s.cfg 1) t.now

/-- ChipIdReply, Crc32Reply and CommandStatus complete over a working link (43_commands.md R152, R153, R154; the item is
executed as a READ of its length in which the target sends it, then PARSE_REPLY, without the host ACK: log 11): the
register of the reply takes the value. -/
def Obligations.RepliesComplete : Prop :=
  ∀ (s : State) (i : Instr) (pay : List Byte) (vals : List FieldValue), sessionOpen s.session = true → LinkUp s 1 →
    ((∃ v, i = .chipIdReply v ∧ pay = be32 v ∧ vals = [.u32 v]) ∨
      (∃ v, i = .crc32Reply v ∧ pay = be32 v ∧ vals = [.u32 v]) ∨
      ∃ v, i = .commandStatus v ∧ pay = [statusCode v] ∧ vals = [.status v]) →
    ∃ t, exec i s = .next t ∧
      t = { s with
        txbuf := t.txbuf, txlen := BitVec.ofNat 16 (3 + pay.length)
        rxbuf := t.rxbuf, rxlen := BitVec.ofNat 16 (3 + pay.length)
        ackf := true, nackf := false, scanpos := 0#16
        rlen := BitVec.ofNat 8 (2 + pay.length), rcks := checksum pay, cksacc := checksum pay
        rpay := t.rpay, rpaylen := BitVec.ofNat 8 pay.length
        chipid := match i with | .chipIdReply v => v | _ => s.chipid
        crcDevice := match i with | .crc32Reply v => v | _ => s.crcDevice
        crcDeviceWritten := match i with | .crc32Reply _ => true | _ => s.crcDeviceWritten
        status := match i with | .commandStatus v => v | _ => s.status
        now := t.now
        trace := s.trace ++ [.xfer (zeros (3 + pay.length)) (0xCC#8 :: encode i) s.now t.now]
        env := s.envAfter 1 0 1
        result := .value (.fields vals) } ∧
      LaidOver t.txbuf s.txbuf (zeros (3 + pay.length)) ∧ LaidOver t.rxbuf s.rxbuf (0xCC#8 :: encode i) ∧
      LaidOver t.rpay s.rpay pay ∧ Elapsed s.now (exchangeMinNs s.cfg (3 + pay.length)) t.now

/-- ACK completes over a working link (43_commands.md R155; two senders: log 12): from the target it ends the scan of a
one-byte window with success (log 11); from the block it is HOST_ACK, one byte 0xCC, whose captured byte is not scanned
(40_transport.md R93). -/
def Obligations.AckCompletes : Prop :=
  ∀ s : State, sessionOpen s.session = true → LinkUp s 1 →
    (∃ t, exec (.ack .target) s = .next t ∧
      t = { s with
        txbuf := t.txbuf, txlen := 1#16, rxbuf := t.rxbuf, rxlen := 1#16
        ackf := true, nackf := false, scanpos := 0#16
        now := t.now
        trace := s.trace ++ [.xfer [0x00#8] [0xCC#8] s.now t.now]
        env := s.envAfter 1 0 1
        result := .value .unit } ∧
      LaidOver t.txbuf s.txbuf [0x00#8] ∧ LaidOver t.rxbuf s.rxbuf [0xCC#8] ∧
      Elapsed s.now (exchangeMinNs s.cfg 1) t.now) ∧
    (∃ t, exec (.ack .block) s = .next t ∧
      t = { s with
        txbuf := t.txbuf, txlen := 1#16, rxbuf := t.rxbuf, rxlen := 1#16
        now := t.now
        trace := s.trace ++ [.xfer [0xCC#8] (s.capture 1) s.now t.now]
        env := s.envAfter 1 1 1
        result := .value .unit } ∧
      LaidOver t.txbuf s.txbuf [0xCC#8] ∧ LaidOver t.rxbuf s.rxbuf (s.capture 1) ∧
      Elapsed s.now (exchangeMinNs s.cfg 1) t.now)

/-- NACK over a working link has its own effect, the error `Nack` (43_commands.md R156, 60_exceptions.md R220, R230; the
byte arrives in a READ of one byte: log 11): NACKF and SCANPOS are written, then the error entry is made. -/
def Obligations.NackRaisesNack : Prop :=
  ∀ s : State, sessionOpen s.session = true → LinkUp s 1 →
    ∃ t, exec .nack s = .next t ∧
      t = { s with
        txbuf := t.txbuf, txlen := 1#16, rxbuf := t.rxbuf, rxlen := 1#16
        ackf := false, nackf := true, scanpos := 0#16
        err := s.errAfter 3#4, fault := true, session := .faulted
        now := t.now
        trace := s.trace ++ [.xfer [0x00#8] [0x33#8] s.now t.now]
        env := s.envAfter 1 0 1
        result := .error (.nack 0#16) } ∧
      LaidOver t.txbuf s.txbuf [0x00#8] ∧ LaidOver t.rxbuf s.rxbuf [0x33#8] ∧
      Elapsed s.now (exchangeMinNs s.cfg 1) t.now

/-- Ping, Download, Reset, GetStatus and GetChipId whose window has no ACK (43_commands.md R140, R141, R142, R144, R147): a
NACK first raises Nack, no sentinel raises NoAck; no further transfer is made. -/
def Obligations.RequestsWithoutAck : Prop :=
  ∀ (s : State) (i : Instr) (idle n : Nat),
    (i = .ping ∧ idle = 36 ∨ (∃ a len, i = .download a len ∧ idle = 24) ∨ i = .reset ∧ idle = 32 ∨
      i = .getStatus ∧ idle = 32 ∨ i = .getChipId ∧ idle = 42) →
    sessionOpen s.session = true → LinkUp s 1 → n = (encode i).length + idle →
    (∀ z w, s.capture n = z ++ 0x33#8 :: w → SentinelFree z →
      ∃ t, exec i s = .next t ∧
        t = { s with
          txbuf := t.txbuf, txlen := BitVec.ofNat 16 n, rxbuf := t.rxbuf, rxlen := BitVec.ofNat 16 n
          cksacc := checksum ((encode i).drop 2)
          ackf := false, nackf := true, scanpos := BitVec.ofNat 16 z.length
          err := s.errAfter 3#4, fault := true, session := .faulted
          now := t.now
          trace := s.trace ++ [.xfer (encode i ++ zeros idle) (s.capture n) s.now t.now]
          env := s.envAfter 1 n 1
          result := .error (.nack (BitVec.ofNat 16 z.length)) } ∧
        LaidOver t.txbuf s.txbuf (encode i ++ zeros idle) ∧ LaidOver t.rxbuf s.rxbuf (s.capture n) ∧
        Elapsed s.now (exchangeMinNs s.cfg n) t.now) ∧
    (SentinelFree (s.capture n) →
      ∃ t, exec i s = .next t ∧
        t = { s with
          txbuf := t.txbuf, txlen := BitVec.ofNat 16 n, rxbuf := t.rxbuf, rxlen := BitVec.ofNat 16 n
          cksacc := checksum ((encode i).drop 2)
          ackf := false, nackf := false
          err := s.errAfter 2#4, fault := true, session := .faulted
          now := t.now
          trace := s.trace ++ [.xfer (encode i ++ zeros idle) (s.capture n) s.now t.now]
          env := s.envAfter 1 n 1
          result := .error .noAck } ∧
        LaidOver t.txbuf s.txbuf (encode i ++ zeros idle) ∧ LaidOver t.rxbuf s.rxbuf (s.capture n) ∧
        Elapsed s.now (exchangeMinNs s.cfg n) t.now)

/-- Every well-formed request over a failing link (40_transport.md R90, R91, R100, 60_exceptions.md R230): the packet was
serialised, no byte was exchanged, Transport is raised. The packet `p` is the item's own; of a Crc32 item it has repeat 0, whatever
the item's operand says (43_commands.md R146; for an operand other than 0: log 13). -/
def Obligations.RequestsOverFailingLink : Prop :=
  ∀ (s : State) (i p : Instr) (v : Variant) (cmd : Byte), variantOf i = some v → cmdOf v = some cmd → WellFormed i →
    ((p = i ∧ ∀ a n r, i ≠ .crc32 a n r) ∨ ∃ a n r, i = .crc32 a n r ∧ p = .crc32 a n 0#32) →
    sessionOpen s.session = true → s.ioFails 0 = true →
    ∃ t, exec i s = .next t ∧
      t = { s with
        txbuf := t.txbuf
        txlen := BitVec.ofNat 16 ((encode p).length + idleOf v)
        cksacc := checksum (cmd :: payloadOf p)
        env := s.envAfter 1 0 0
        err := s.errAfter 9#4, fault := true, session := .faulted
        result := .error .transport } ∧
      LaidOver t.txbuf s.txbuf (encode p ++ zeros (idleOf v))

/-- SendData of no or more than 252 bytes and MemoryWrite of more than 244 fail before the wire (43_commands.md R143,
R149, 60_exceptions.md R221): BoundViolation, nothing sent, TXBUF and TXLEN unchanged. -/
def Obligations.IllFormedRequestsRaise : Prop :=
  ∀ (s : State) (i : Instr), ¬ WellFormed i → sessionOpen s.session = true →
    exec i s = .next { s with
      err := s.errAfter 1#4, fault := true, session := .faulted
      result := .error (.boundViolation .atSerialize (3 + (payloadOf i).length)) }

/-- Wire items are refused outside an open session (40_transport.md R99, the whole item: log 10), and otherwise they
keep SESSION or fault (44_sequencer.md R190). -/
def Obligations.WireItemsKeepSessionOrFault : Prop :=
  (∀ (i : Instr) (s : State), sessionOpen s.session = false → exec i s = .refused (.sessionState s.session)) ∧
  (∀ (i : Instr) (s : State), sessionOpen s.session = true → ∃ t, exec i s = .next t ∧
    (t.session = s.session ∧ (∃ v, t.result = .value v) ∨ t.session = .faulted ∧ ∃ k, t.result = .error k))

/-! ## The sequencer -/

/-- Which procedure is accepted in which SESSION state (44_sequencer.md R191); in any other it is refused, and so is an
image or a segment out of the bounds of 45_image_input.md R200 (U8, D13; as a whole: log 16). Exchange command, which has no
row there, is accepted where its first TRANSFER is (40_transport.md R99; log 20), of every request, a Crc32 of any repeat among
them (sent with repeat 0: log 13), and refused of a reply or a sentinel (log 26). -/
def Obligations.AcceptanceOfProcedures : Prop :=
  (∀ s : State, s.session ≠ .entered →
    execProcedure .initialise s = .refused (.sessionState s.session) ∧
    (∀ l, execProcedure (.flashImage l) s = .refused (.sessionState s.session)) ∧
    (∀ l, execProcedure (.imageMatches l) s = .refused (.sessionState s.session)) ∧
    ∀ l, execProcedure (.needToUpdate l) s = .refused (.sessionState s.session)) ∧
  (∀ s : State, s.session ≠ .initialized → s.session ≠ .operational →
    (∀ a, execProcedure (.eraseSector a) s = .refused (.sessionState s.session)) ∧
    execProcedure .bankErase s = .refused (.sessionState s.session) ∧
    (∀ g, execProcedure (.writeSegment g) s = .refused (.sessionState s.session)) ∧
    ∀ a n, execProcedure (.crcQuery a n) s = .refused (.sessionState s.session)) ∧
  (∀ s : State, s.session ≠ .operational →
    (∀ d, execProcedure (.sendChunk d) s = .refused (.sessionState s.session)) ∧
    execProcedure .checkStatus s = .refused (.sessionState s.session)) ∧
  (∀ s : State, sessionOpen s.session = false →
    execProcedure .systemReset s = .refused (.sessionState s.session)) ∧
  (∀ s : State, s.session = .entered → (∃ t, execProcedure .initialise s = .next t) ∧
    (∀ l, imageInBounds l = true → (∃ t, execProcedure (.flashImage l) s = .next t) ∧
      (∃ t, execProcedure (.imageMatches l) s = .next t) ∧ ∃ t, execProcedure (.needToUpdate l) s = .next t)) ∧
  (∀ s : State, s.session = .initialized ∨ s.session = .operational →
    (∀ a, ∃ t, execProcedure (.eraseSector a) s = .next t) ∧ (∃ t, execProcedure .bankErase s = .next t) ∧
    (∀ g, segmentInBounds g = true → ∃ t, execProcedure (.writeSegment g) s = .next t) ∧
    ∀ a n, ∃ t, execProcedure (.crcQuery a n) s = .next t) ∧
  (∀ s : State, s.session = .operational → (∀ d, ∃ t, execProcedure (.sendChunk d) s = .next t) ∧
    ∃ t, execProcedure .checkStatus s = .next t) ∧
  (∀ s : State, sessionOpen s.session = true → ∃ t, execProcedure .systemReset s = .next t) ∧
  (∀ g, segmentInBounds g = true ↔
    1 ≤ g.data.length ∧ g.data.length ≤ 0xFFFFFFFF ∧ g.start.toNat + g.data.length ≤ 2 ^ 32) ∧
  (∀ l, imageInBounds l = true ↔ ∀ g ∈ l, segmentInBounds g = true) ∧
  (∀ s : State, s.session = .entered → ∀ l, imageInBounds l = false →
    execProcedure (.flashImage l) s = .refused .imageOutOfBounds ∧
    execProcedure (.imageMatches l) s = .refused .imageOutOfBounds ∧
    execProcedure (.needToUpdate l) s = .refused .imageOutOfBounds) ∧
  (∀ s : State, s.session = .initialized ∨ s.session = .operational → ∀ g, segmentInBounds g = false →
    execProcedure (.writeSegment g) s = .refused .imageOutOfBounds) ∧
  (∀ s : State, sessionOpen s.session = false →
    ∀ i, execProcedure (.exchangeCommand i) s = .refused (.sessionState s.session)) ∧
  (∀ s : State, sessionOpen s.session = true →
    (∀ i, (requestOf i).isSome = true → ∃ t, execProcedure (.exchangeCommand i) s = .next t) ∧
    ∀ i, requestOf i = none → execProcedure (.exchangeCommand i) s = .refused .notARequest)

/-- Exchange command in shapes A and B, and of MemoryRead and MemoryWrite, is the command's own meaning; only what the
controller receives is a procedure's (44_sequencer.md R170, 43_commands.md R148, R149, R151, 60_exceptions.md R227;
acceptance as the first TRANSFER: log 20). -/
def Obligations.ExchangeCommandIsItsShape : Prop :=
  ∀ (s t : State) (i : Instr),
    (i = .ping ∨ (∃ a n, i = .download a n) ∨ i = .reset ∨ i = .getStatus ∨ i = .getChipId ∨
      (∃ a k c, i = .memoryRead a k c) ∨ ∃ a n d, i = .memoryWrite a n d) →
    exec i s = .next t →
    ∃ t', execProcedure (.exchangeCommand i) s = .next t' ∧
      t' = { t with result :=
        match t.result with
        | .value .unit => .value (.fields [])
        | .error k => .protocol k
        | r => r }

/-- Exchange command in shape C (44_sequencer.md R170, 70_reset_and_hazards.md R261 to R264): a run that completes sent
the packet without IDLE, waited, and opened the window in which the ACK, and for Crc32 the reply whose value is returned, was
found. The packet `p` is the command's own; of a Crc32 it has repeat 0, whatever the operand says (42_crc32.md R136; for an
operand other than 0: log 13). -/
def Obligations.ExchangeCommandWaits : Prop :=
  ∀ (s t : State) (i p : Instr) (d w : Nat) (v : OpValue),
    (p = i ∧ ((∃ l : List Byte, i = .sendData l ∧ d = l.length * 6500 ∧ w = 32) ∨
        (∃ a, i = .sectorErase a ∧ d = 10000000 ∧ w = 28) ∨ (i = .bankErase ∧ d = 25000000 ∧ w = 28)) ∨
      ∃ a n r, i = .crc32 a n r ∧ p = .crc32 a n 0#32 ∧ d = n.toNat * 500 ∧ w = 16) →
    execProcedure (.exchangeCommand i) s = .next t → t.result = .value v →
    t.session = s.session ∧ ∃ r0 r1 t1 t2 t3 l z b, t.trace = s.trace ++
      [.xfer (encode p) r0 s.now t1, .sleep (BitVec.ofNat 64 d) t1 t2, .xfer (zeros w) r1 t2 t3] ++ l ∧ Elapsed t1 d t2 ∧
      r1 = z ++ 0xCC#8 :: b ∧ SentinelFree z ∧
      ((∀ a n r, i ≠ .crc32 a n r) → l = [] ∧ v = .fields []) ∧
      (∀ a n r, i = .crc32 a n r → v = .fields [.u32 t.crcDevice] ∧
        (∃ b', b = 6#8 :: checksum (be32 t.crcDevice) :: be32 t.crcDevice ++ b') ∧
        ∃ r2, l = [.xfer [0xCC#8] r2 t3 t.now])

/-- Check status (44_sequencer.md R180): after a CommandStatus reply the host ACK is sent, STATUS holds the value, and
anything but Success raises Verification. -/
def Obligations.CheckStatusRequiresSuccess : Prop :=
  ∀ (s : State) (v : StatusValue) (z w : List Byte), s.session = .operational → LinkUp s 2 →
    s.capture 35 = z ++ [0xCC#8, 3#8, statusCode v, statusCode v] ++ w → SentinelFree z →
    ∃ t r0 r1 t1, execProcedure .checkStatus s = .next t ∧
      t.trace = s.trace ++ [.xfer ([0x03#8, 0x23#8, 0x23#8] ++ zeros 32) r0 s.now t1, .xfer [0xCC#8] r1 t1 t.now] ∧
      t.status = v ∧ t.resetN = s.resetN ∧ t.blEnN = s.blEnN ∧
      (v = .success → t.result = .value .unit ∧ t.session = .operational ∧ t.fault = s.fault ∧ t.err = s.err) ∧
      (v ≠ .success → t.result = .error (.verification (.statusNotSuccess v)) ∧ t.session = .faulted ∧
        t.fault = true ∧ t.err = s.errAfter 13#4)

/-- Initialize (44_sequencer.md R171): Ping ACKed and a ChipIdReply equal to EXPECTED_CHIP_ID give Initialized; another
chip ID raises Verification. -/
def Obligations.InitializeVerifiesChipId : Prop :=
  ∀ (s : State) (v : U32) (z w z' w' : List Byte), s.session = .entered → LinkUp s 3 →
    s.capture 39 = z ++ 0xCC#8 :: w → SentinelFree z →
    s.window 39 45 = z' ++ (0xCC#8 :: 6#8 :: checksum (be32 v) :: be32 v) ++ w' → SentinelFree z' →
    ∃ t r0 r1 r2 t1 t2, execProcedure .initialise s = .next t ∧
      t.trace = s.trace ++ [.xfer ([0x03#8, 0x20#8, 0x20#8] ++ zeros 36) r0 s.now t1,
        .xfer ([0x03#8, 0x28#8, 0x28#8] ++ zeros 42) r1 t1 t2, .xfer [0xCC#8] r2 t2 t.now] ∧
      t.chipid = v ∧ t.resetN = s.resetN ∧ t.blEnN = s.blEnN ∧
      (v = s.cfg.expectedChipId →
        t.result = .value .unit ∧ t.session = .initialized ∧ t.fault = s.fault ∧ t.err = s.err) ∧
      (v ≠ s.cfg.expectedChipId →
        t.result = .error (.verification (.chipIdMismatch v s.cfg.expectedChipId)) ∧ t.session = .faulted ∧
        t.fault = true ∧ t.err = s.errAfter 13#4)

/-- System reset (44_sequencer.md R176): an ACKed Reset command, then at least 20 ms, then SESSION = Idle; the lines are
not touched. The state Reset itself lies within the one step (log 17). -/
def Obligations.SystemResetEndsIdle : Prop :=
  ∀ (s : State) (z w : List Byte), sessionOpen s.session = true → LinkUp s 1 →
    s.capture 35 = z ++ 0xCC#8 :: w → SentinelFree z →
    ∃ t t1, execProcedure .systemReset s = .next t ∧
      t = { s with
        txbuf := t.txbuf, txlen := 35#16, rxbuf := t.rxbuf, rxlen := 35#16, cksacc := 0x25#8
        ackf := true, nackf := false, scanpos := BitVec.ofNat 16 z.length
        session := .idle
        now := t.now
        trace := s.trace ++ [.xfer ([0x03#8, 0x25#8, 0x25#8] ++ zeros 32) (s.capture 35) s.now t1,
          .sleep 20000000#64 t1 t.now]
        env := s.envAfter 1 35 2
        result := .value .unit } ∧
      LaidOver t.txbuf s.txbuf ([0x03#8, 0x25#8, 0x25#8] ++ zeros 32) ∧
      LaidOver t.rxbuf s.rxbuf (s.capture 35) ∧
      Elapsed s.now (exchangeMinNs s.cfg 35) t1 ∧ Elapsed t1 20000000 t.now

/-- Erase sector and Bank erase (44_sequencer.md R172, R173, R180, 70_reset_and_hazards.md R261, R262): a run that completes
made exactly these events, with the wait before the 28-byte window, found the ACK in that window and Success in the window of
GetStatus, and ends Operational with STATUS = Success. -/
def Obligations.ErasesWaitThenCheck : Prop :=
  ∀ (s t : State) (p : Procedure) (packet : List Byte) (d : Nat),
    ((∃ a, p = .eraseSector a ∧ packet = encode (.sectorErase a) ∧ d = 10000000) ∨
      p = .bankErase ∧ packet = [0x03#8, 0x2C#8, 0x2C#8] ∧ d = 25000000) →
    execProcedure p s = .next t → t.result = .value .unit →
    t.session = .operational ∧ t.status = .success ∧
      ∃ r0 r1 r2 r3 t1 t2 t3 t4, t.trace = s.trace ++ [.xfer packet r0 s.now t1, .sleep (BitVec.ofNat 64 d) t1 t2,
        .xfer (zeros 28) r1 t2 t3, .xfer ([0x03#8, 0x23#8, 0x23#8] ++ zeros 32) r2 t3 t4, .xfer [0xCC#8] r3 t4 t.now] ∧
      Elapsed t1 d t2 ∧ (∃ z b, r1 = z ++ 0xCC#8 :: b ∧ SentinelFree z) ∧
      ∃ z b, r2 = z ++ [0xCC#8, 0x03#8, 0x40#8, 0x40#8] ++ b ∧ SentinelFree z

/-- Send one data chunk (44_sequencer.md R174, 70_reset_and_hazards.md R263): a completed chunk is its packet, a wait of
at least 6500 ns for each data byte, and a 32-byte window in which the ACK was found. -/
def Obligations.SendChunkWaitsPerByte : Prop :=
  ∀ (s t : State) (d : List Byte), execProcedure (.sendChunk d) s = .next t → t.result = .value .unit →
    1 ≤ d.length ∧ d.length ≤ 252 ∧ t.session = .operational ∧
      ∃ r0 r1 t1 t2, t.trace = s.trace ++ [.xfer (BitVec.ofNat 8 (3 + d.length) :: checksum (0x24#8 :: d) :: 0x24#8 :: d)
        r0 s.now t1, .sleep (BitVec.ofNat 64 (d.length * 6500)) t1 t2, .xfer (zeros 32) r1 t2 t.now] ∧
      Elapsed t1 (d.length * 6500) t2 ∧ ∃ z b, r1 = z ++ 0xCC#8 :: b ∧ SentinelFree z

/-- CRC query (44_sequencer.md R175, 70_reset_and_hazards.md R264): a completed query sent Crc32 with repeat 0, waited at
least 500 ns for each byte, found the Crc32Reply in its 16-byte window, sent the host ACK, and returns that reply's value,
which CRC_DEVICE holds. -/
def Obligations.CrcQueryReturnsDeviceCrc : Prop :=
  ∀ (s t : State) (a n v : U32), execProcedure (.crcQuery a n) s = .next t → t.result = .value (.word v) →
    t.crcDevice = v ∧ t.session = .operational ∧
      ∃ r0 r1 r2 t1 t2 t3, t.trace = s.trace ++ [.xfer (encode (.crc32 a n 0#32)) r0 s.now t1,
        .sleep (BitVec.ofNat 64 (n.toNat * 500)) t1 t2, .xfer (zeros 16) r1 t2 t3, .xfer [0xCC#8] r2 t3 t.now] ∧
      Elapsed t1 (n.toNat * 500) t2 ∧
      ∃ z b, r1 = z ++ (0xCC#8 :: 6#8 :: checksum (be32 v) :: be32 v) ++ b ∧ SentinelFree z

/-- The chunking law (44_sequencer.md R177): contiguous chunks whose concatenation is the data, all of `k` bytes except
possibly the last, `ceil(size / k)` of them. -/
def Obligations.ChunkingLaw : Prop :=
  ∀ (k : Nat) (data : List Byte), 1 ≤ k →
    (chunksOf k data).flatten = data ∧ (chunksOf k data).length = (data.length + (k - 1)) / k ∧
    (∀ c ∈ chunksOf k data, 1 ≤ c.length ∧ c.length ≤ k) ∧
    (∀ j c, (chunksOf k data)[j]? = some c → j + 1 < (chunksOf k data).length → c.length = k)

/-- Write one segment (44_sequencer.md R177, 20_memory.md R58 b): a run that completes in a legal configuration sent
Download, then the segment's data in its chunks and nothing else as data, then asked for the CRC of the same range, and the
device's CRC equals the segment's. -/
def Obligations.WriteSegmentVerifies : Prop :=
  ∀ (s t : State) (g : Segment), configurationLegal s.cfg = true → execProcedure (.writeSegment g) s = .next t →
    t.result = .value .unit →
    t.crcLocal = g.crc ∧ t.crcDevice = g.crc ∧ t.crcMatch = true ∧ t.status = .success ∧ t.session = .operational ∧
    ∃ l, t.trace = s.trace ++ l ∧
      sentBytes l =
        [encode (.download g.start (BitVec.ofNat 32 g.data.length)) ++ zeros 24] ++
        (chunksOf s.cfg.maxPayload.toNat g.data).flatMap (fun c => [encode (.sendData c), zeros 32]) ++
        [encode .getStatus ++ zeros 32, [0xCC#8],
          encode (.crc32 g.start (BitVec.ofNat 32 g.data.length) 0#32), zeros 16, [0xCC#8],
          encode .getStatus ++ zeros 32, [0xCC#8]]

/-- Flash whole image (44_sequencer.md R178, 20_memory.md R54): whatever happens, every byte sequence put on the wire is
one of the procedure's own, and the Download, SendData and Crc32 packets are those of segments outside the RAM aperture. A
run that completes in a legal configuration sent exactly the bytes of Initialize (R171), of Bank erase (R173), of Write one
segment (R177) for every segment outside the aperture, in image order, and of the Reset command, after which the 20 ms of
System reset (R176) are the last event, and ends Idle. -/
def Obligations.FlashNeverSendsAperture : Prop :=
  ∀ (s t : State) (image : Image), execProcedure (.flashImage image) s = .next t →
    (∃ l, t.trace = s.trace ++ l ∧ ∀ tx ∈ sentBytes l,
      tx ∈ [encode .ping ++ zeros 36, encode .getChipId ++ zeros 42, encode .getStatus ++ zeros 32, encode .bankErase,
        encode .reset ++ zeros 32, [0xCC#8], zeros 16, zeros 28, zeros 32] ∨
      ∃ g ∈ image, g.start &&& s.cfg.ramApertureMask = 0#32 ∧
        (tx = encode (.download g.start (BitVec.ofNat 32 g.data.length)) ++ zeros 24 ∨
          tx = encode (.crc32 g.start (BitVec.ofNat 32 g.data.length) 0#32) ∨
          ∃ c ∈ chunksOf s.cfg.maxPayload.toNat g.data, tx = encode (.sendData c))) ∧
    (t.result = .value .unit → t.session = .idle ∧
      (configurationLegal s.cfg = true → ∃ l r t1 t2,
        t.trace = s.trace ++ l ++ [.xfer ([0x03#8, 0x25#8, 0x25#8] ++ zeros 32) r t1 t2, .sleep 20000000#64 t2 t.now] ∧
        Elapsed t2 20000000 t.now ∧
        sentBytes l =
          [encode .ping ++ zeros 36, encode .getChipId ++ zeros 42, [0xCC#8], encode .bankErase, zeros 28,
            encode .getStatus ++ zeros 32, [0xCC#8]] ++
          (image.filter fun g => decide (g.start &&& s.cfg.ramApertureMask = 0#32)).flatMap fun g =>
            [encode (.download g.start (BitVec.ofNat 32 g.data.length)) ++ zeros 24] ++
            (chunksOf s.cfg.maxPayload.toNat g.data).flatMap (fun c => [encode (.sendData c), zeros 32]) ++
            [encode .getStatus ++ zeros 32, [0xCC#8],
              encode (.crc32 g.start (BitVec.ofNat 32 g.data.length) 0#32), zeros 16, [0xCC#8],
              encode .getStatus ++ zeros 32, [0xCC#8]]))

/-- Image-matches-device (44_sequencer.md R179, 60_exceptions.md R233): a result, true or false, comes after a Reset command
and its 20 ms, with SESSION = Idle and no error. A result of true means that for every segment outside the RAM aperture the
device was asked for the CRC of its range and a 16-byte window held its stored CRC; a result of false, that the last
CRC_DEVICE differs from the stored CRC of such a segment. -/
def Obligations.ImageMatchesEndsWithReset : Prop :=
  ∀ (s t : State) (image : Image) (b : Bool), execProcedure (.imageMatches image) s = .next t →
    t.result = .value (.bool b) →
    t.session = .idle ∧ t.fault = s.fault ∧ t.err = s.err ∧
    ∃ l r t1 t2, t.trace = s.trace ++ l ++
        [.xfer ([0x03#8, 0x25#8, 0x25#8] ++ zeros 32) r t1 t2, .sleep 20000000#64 t2 t.now] ∧
      (b = false → ∃ g ∈ image, g.start &&& s.cfg.ramApertureMask = 0#32 ∧ t.crcLocal = g.crc ∧ t.crcDevice ≠ g.crc) ∧
      (b = true → ∀ g ∈ image, g.start &&& s.cfg.ramApertureMask = 0#32 →
        encode (.crc32 g.start (BitVec.ofNat 32 g.data.length) 0#32) ∈ sentBytes l ∧
        ∃ z w t3 t4, SentinelFree z ∧ Event.xfer (zeros 16)
          (z ++ (0xCC#8 :: 6#8 :: checksum (be32 g.crc) :: be32 g.crc) ++ w) t3 t4 ∈ l)

/-- `need_to_update_firmware` is the negation of Image-matches-device, with the same run (44_sequencer.md R179, R181). -/
def Obligations.NeedToUpdateNegatesMatch : Prop :=
  ∀ (s t : State) (image : Image), execProcedure (.imageMatches image) s = .next t →
    ∃ t', execProcedure (.needToUpdate image) s = .next t' ∧
      t' = { t with result := match t.result with | .value (.bool b) => .value (.bool (!b)) | r => r }

/-! ## The machine -/

/-- A step runs the decoded instruction: bytes of a wire item at the head of the controller's queue are decoded and
executed with the request taken off; the placement of an opcode-table word is such a
step (00_scope.md R7, 30_encoding.md R77; the queue is the model's: log 2). -/
def Obligations.StepRunsDecodedInstruction : Prop :=
  (∀ (s : State) (e : Expectation) (bytes : List Byte) (rest : List Request) (i : Instr),
    s.pending = .wire e bytes :: rest → decode e bytes = .ok i → step s = exec i { s with pending := rest }) ∧
  (∀ (s : State) (i : Instr) (rest : List Request),
    s.pending = .item i :: rest → step s = exec i { s with pending := rest }) ∧
  (∀ (s : State) (nbits w : Nat) (i : Instr), sessionOpen s.session = true → decodeTableWord nbits w = some i →
    step (s.withFetchWord nbits w) = exec i s)

/-- With no request the block holds its state (60_exceptions.md R238, 70_reset_and_hazards.md R252; that a step then
changes nothing is the model's form: log 2). -/
def Obligations.IdleStepHoldsState : Prop := ∀ s : State, s.pending = [] → step s = .next s

/-- What reset leaves, and construction (10_state.md R20 to R28, R37, 70_reset_and_hazards.md R250, R254): the values the
spec gives, for every configuration in the legal ranges; one outside them makes no block, and neither does a link that does
not open, which fails with the kind Transport (the order of the two checks is the model's: log 9). -/
def Obligations.ConstructionValues : Prop :=
  (∀ c, configurationLegal c = true ↔ (1 ≤ c.spiClockHz.toNat ∧ c.spiClockHz.toNat ≤ 4000000) ∧
    15 ≤ c.resetLowMs.toNat ∧ 35 ≤ c.resetHighMs.toNat ∧ 20 ≤ c.blEntryQuietMs.toNat ∧
    1 ≤ c.maxPayload.toNat ∧ c.maxPayload.toNat ≤ 252) ∧
  (∀ c opens, configurationLegal c = false → State.construct opens c = .error .illegalConfiguration) ∧
  (∀ c, configurationLegal c = true → State.construct false c = .error (.error .transport)) ∧
  (∀ c, configurationLegal c = true → ∃ s, State.construct true c = .ok s ∧ s.cfg = c ∧ s.session = .idle ∧
    s.status = .default ∧ s.ackf = false ∧ s.nackf = false ∧ s.crcMatch = false ∧ s.fault = false ∧ s.err = 0#4 ∧
    s.txlen = 0#16 ∧ s.rxlen = 0#16 ∧ s.rpaylen = 0#8 ∧ s.trace = [] ∧ s.resetN = true ∧ s.blEnN = true) ∧
  State.construct true defaultConfiguration = .ok State.reset ∧
  readConfig State.reset .spiClockHz = 4000000#32 ∧ readConfig State.reset .resetLowMs = 15#32 ∧
  readConfig State.reset .resetHighMs = 35#32 ∧ readConfig State.reset .blEntryQuietMs = 20#32 ∧
  readConfig State.reset .ramApertureMask = 0x20000000#32 ∧ readConfig State.reset .expectedChipId = 0x20028000#32 ∧
  readConfig State.reset .maxPayload = 252#32 ∧ ∀ s, readConfig s .spiMode = 3#32 ∧ readConfig s .bitsPerWord = 8#32

/-- The invariant holds after construction with every legal configuration, State.reset among them. -/
def Obligations.InvariantAtReset : Prop :=
  Inv State.reset ∧ ∀ opens c s, State.construct opens c = .ok s → Inv s

/-- Every step keeps the invariant: legal configuration, canonical buffers within capacity, FAULT = 1 exactly when
SESSION = Faulted exactly when ERR != 0, at most one sentinel flag with SCANPOS in the buffer, both lines high outside
Faulted, TRACE lawful, in order and without overlap (10_state.md R10 to R19, R34, 20_memory.md R48, R55). -/
def Obligations.StepKeepsInvariant : Prop := ∀ s t : State, Inv s → step s = .next t → Inv t

/-- TRACE only grows, time never goes back, and no step writes a configuration register (10_state.md R33, R34,
section 4, 60_exceptions.md R236). -/
def Obligations.TraceOnlyGrows : Prop :=
  ∀ s t : State, step s = .next t → s.trace <+: t.trace ∧ s.now ≤ t.now ∧ t.cfg = s.cfg

/-- The lines, and the return from Faulted, belong to ENTER_BOOTLOADER alone (10_state.md R30, 40_transport.md R95,
60_exceptions.md R230, R231): a step that runs anything else drives neither line, keeps a non-zero ERR, and cannot leave
Faulted; leaving it ends in Entered. -/
def Obligations.OnlyEntryDrivesLinesAndRecovers : Prop :=
  ∀ s t : State, step s = .next t →
    (s.pending.head? ≠ some (.op .enterBootloader) →
      t.resetN = s.resetN ∧ t.blEnN = s.blEnN ∧ (∀ pin level at', Event.line pin level at' ∈ t.trace →
        Event.line pin level at' ∈ s.trace) ∧
      (s.err ≠ 0#4 → t.err = s.err) ∧ (s.session = .faulted → t.session = .faulted) ∧
      (s.fault = true → t.fault = true)) ∧
    (s.session = .faulted → t.session = .faulted ∨ t.session = .entered)

/-- Taking an error (60_exceptions.md R226, R227, R230): a request that ends in an error leaves FAULT = 1, SESSION =
Faulted and, if ERR was 0, the code of that error in ERR; the reserved kinds and the image parser's kinds are never
raised; only procedures wrap, and never Verification. Nothing follows such an error on the wire (44_sequencer.md R170): where a wire
item or a procedure ends in an error of the scan or the parse, the last event of TRACE is the transfer whose window RXBUF still
holds and that was scanned, and it is no host ACK; the scan errors and the parse errors name the sentinel that comes first in that
window. Where a procedure ends in Verification, the last event is the host ACK of the reply that was compared. -/
def Obligations.ErrorsAreTaken : Prop :=
  ∀ (s t : State) (r : Request) (rest : List Request) (k : ErrorKind), s.pending = r :: rest → step s = .next t →
    (t.result = .error k ∨ t.result = .protocol k) →
    t.fault = true ∧ t.session = .faulted ∧ (s.err = 0#4 → t.err = errorCode k) ∧
    errorCode k ∉ [0#4, 5#4, 8#4, 10#4, 11#4, 12#4, 14#4, 15#4] ∧
    (t.result = .protocol k → (∃ p, r = .procedure p) ∧ ∀ c, k ≠ .verification c) ∧
    ((∃ p, r = .procedure p) → t.result = .error k → ∃ c, k = .verification c) ∧
    ((∀ o, r ≠ .op o) →
      (k = .noAck ∨ (∃ p, k = .nack p) ∨ k = .packetTooShort ∨ (∃ a b, k = .badChecksum a b) ∨
          (∃ b, k = .invalidStatusCode b) ∨ (∃ n, k = .boundViolation .minPayloadNotMet n) ∨
          (∃ n, k = .boundViolation .maxPayloadExceeded n) →
        ∃ l tx rx t0, t.trace = s.trace ++ l ++ [.xfer tx rx t0 t.now] ∧ tx ≠ [0xCC#8] ∧ t.rxBytes = rx ∧
          (k = .noAck → SentinelFree rx) ∧
          (∀ p, k = .nack p → ∃ z w, rx = z ++ 0x33#8 :: w ∧ SentinelFree z ∧ p = BitVec.ofNat 16 z.length) ∧
          (k ≠ .noAck → (∀ p, k ≠ .nack p) → ∃ z w, rx = z ++ 0xCC#8 :: w ∧ SentinelFree z)) ∧
      (∀ c, k = .verification c → ∃ l rx t0, t.trace = s.trace ++ l ++ [.xfer [0xCC#8] rx t0 t.now]))

/-- A request that returns a value raised nothing: FAULT and ERR are as before (cleared by ENTER_BOOTLOADER), and an
accepted operation or wire item always ends in a value or an error (60_exceptions.md R230, R231). That the request is then
off the controller's queue is the model's form (log 2). -/
def Obligations.ValuesRaiseNothing : Prop :=
  ∀ (s t : State) (r : Request) (rest : List Request), s.pending = r :: rest → step s = .next t →
    t.pending = rest ∧
    ((∃ v, t.result = .value v) ∨ ∃ k, t.result = .error k ∨ t.result = .protocol k) ∧
    (∀ v, t.result = .value v → r ≠ .op .enterBootloader → t.fault = s.fault ∧ t.err = s.err) ∧
    (∀ v, t.result = .value v → r = .op .enterBootloader → t.fault = false ∧ t.err = 0#4 ∧ t.session = .entered)

/-- Bytes handed in that are no wire item of the expected kind (30_encoding.md R69, R70, R73, 41_framer.md R113, R114, R116,
93_implementation_defined.md U2; the ways in are the model's: logs 2 and 11). As a request: a `len` byte out of range is a
BoundViolation before anything is sent, and what the block cannot build is refused. As a reply: they arrive after the ACK and
raise what PARSE_REPLY finds wrong with them. As a sentinel: ACK_SCAN discards the bytes before the first sentinel among them,
which decides, and with none it raises NoAck. -/
def Obligations.UndecodedBytes : Prop :=
  (∀ (s : State) (bytes : List Byte) (rest : List Request) (d : DecodeError),
    s.pending = .wire .request bytes :: rest → decode .request bytes = .error d →
    (∀ len, d = .lenTooSmall len ∨ d = .lenTooLarge len → sessionOpen s.session = true →
      step s = .next { s with
        pending := rest
        err := s.errAfter 1#4, fault := true, session := .faulted
        result := .error (.boundViolation .atSerialize len.toNat) }) ∧
    ((∀ len, d ≠ .lenTooSmall len ∧ d ≠ .lenTooLarge len) → step s = .refused (.undecodable d))) ∧
  (∀ (s : State) (bytes : List Byte) (rest : List Request) (d : DecodeError),
    s.pending = .wire .hostAck bytes :: rest → decode .hostAck bytes = .error d → step s = .refused (.undecodable d)) ∧
  (∀ (s : State) (e : Expectation) (bytes : List Byte) (rest : List Request) (d : DecodeError),
    e = .chipIdReply ∨ e = .crc32Reply ∨ e = .commandStatus →
    s.pending = .wire e bytes :: rest → decode e bytes = .error d → sessionOpen s.session = true → LinkUp s 1 →
    bytes.length + 1 ≤ bufCapOf s.cfg →
    ∃ t k, step s = .next t ∧ t.pending = rest ∧ t.result = .error k ∧ t.session = .faulted ∧ t.fault = true ∧
      t.err = s.errAfter (errorCode k) ∧ t.ackf = true ∧ t.chipid = s.chipid ∧ t.crcDevice = s.crcDevice ∧
      t.status = s.status ∧
      t.trace = s.trace ++ [.xfer (zeros (bytes.length + 1)) (0xCC#8 :: bytes) s.now t.now] ∧
      match d with
      | .truncated => k = .packetTooShort
      | .lenTooSmall len => k = .boundViolation .minPayloadNotMet len.toNat
      | .lenTooLarge len => k = .boundViolation .maxPayloadExceeded len.toNat
      | .badChecksum cks => ∃ sum, sum ≠ cks ∧ k = .badChecksum cks sum
      | .fieldTooShort => k = .packetTooShort
      | .badStatus b => k = .invalidStatusCode b
      | .unassignedCmd _ => False
      | .fieldShape => False
      | .notASentinel _ => False) ∧
  (∀ (s : State) (bytes : List Byte) (rest : List Request) (d : DecodeError),
    s.pending = .wire .sentinel bytes :: rest → decode .sentinel bytes = .error d → sessionOpen s.session = true →
    LinkUp s 1 → 1 ≤ bytes.length → bytes.length ≤ bufCapOf s.cfg →
    (∀ z w, bytes = z ++ 0xCC#8 :: w → SentinelFree z →
      ∃ t, step s = .next t ∧ t.pending = rest ∧ t.result = .value .unit ∧ t.session = s.session ∧ t.fault = s.fault ∧
        t.err = s.err ∧ t.ackf = true ∧ t.nackf = false ∧ t.scanpos = BitVec.ofNat 16 z.length ∧
        t.trace = s.trace ++ [.xfer (zeros bytes.length) bytes s.now t.now]) ∧
    (∀ z w, bytes = z ++ 0x33#8 :: w → SentinelFree z →
      ∃ t, step s = .next t ∧ t.pending = rest ∧ t.result = .error (.nack (BitVec.ofNat 16 z.length)) ∧
        t.session = .faulted ∧ t.fault = true ∧ t.err = s.errAfter 3#4 ∧ t.ackf = false ∧ t.nackf = true ∧
        t.scanpos = BitVec.ofNat 16 z.length ∧
        t.trace = s.trace ++ [.xfer (zeros bytes.length) bytes s.now t.now]) ∧
    (SentinelFree bytes →
      ∃ t, step s = .next t ∧ t.pending = rest ∧ t.result = .error .noAck ∧ t.session = .faulted ∧ t.fault = true ∧
        t.err = s.errAfter 2#4 ∧ t.ackf = false ∧ t.nackf = false ∧
        t.trace = s.trace ++ [.xfer (zeros bytes.length) bytes s.now t.now]))
end

