-- ==== Sys2Proof/Laws/Bytes.lean ====
section
/-! SUPPORT. Byte sequences: lengths, the checksum's law for concatenation, big-endian fields and their inverses. -/

namespace Sys2Proof.Machine

open Sys2Proof

@[simp] theorem length_zeros (n : Nat) : (zeros n).length = n := by simp [zeros]

@[simp] theorem length_be32 (v : U32) : (be32 v).length = 4 := rfl

@[simp] theorem length_be16 (v : U16) : (be16 v).length = 2 := rfl

theorem foldl_add_start (s : List Byte) (c : Byte) :
    s.foldl (fun acc b => acc + b) c = c + checksum s := by
  unfold checksum
  induction s generalizing c with
  | nil => simp
  | cons b rest ih =>
    simp only [List.foldl_cons]
    rw [ih (c + b), ih (0#8 + b)]
    simp only [BitVec.zero_add]
    ac_rfl

@[simp] theorem checksum_nil : checksum [] = 0#8 := rfl

theorem checksum_cons (b : Byte) (s : List Byte) : checksum (b :: s) = b + checksum s := by
  rw [checksum, List.foldl_cons, foldl_add_start, BitVec.zero_add]

/-- The checksum of a concatenation is the sum of the checksums (41_framer.md R111 c). -/
theorem checksum_append (s t : List Byte) : checksum (s ++ t) = checksum s + checksum t := by
  rw [checksum, List.foldl_append, foldl_add_start, ← checksum]

theorem fromBe32_extract (v : U32) :
    fromBe32 (v.extractLsb' 24 8) (v.extractLsb' 16 8) (v.extractLsb' 8 8) (v.extractLsb' 0 8) = v := by
  unfold fromBe32
  ext i hi
  simp only [BitVec.getElem_append, BitVec.getElem_extractLsb']
  repeat' split
  all_goals (rw [← BitVec.getLsbD_eq_getElem]; congr 1; omega)

theorem fromBe16_extract (v : U16) : fromBe16 (v.extractLsb' 8 8) (v.extractLsb' 0 8) = v := by
  unfold fromBe16
  ext i hi
  simp only [BitVec.getElem_append, BitVec.getElem_extractLsb']
  repeat' split
  all_goals (rw [← BitVec.getLsbD_eq_getElem]; congr 1; omega)

/-- `be32` undoes `from_be32`. -/
theorem be32_fromBe32 (a b c d : Byte) : be32 (fromBe32 a b c d) = [a, b, c, d] := by
  unfold be32 fromBe32
  simp only [List.cons.injEq, and_true]
  refine ⟨?_, ?_, ?_, ?_⟩ <;>
  · ext i hi
    rw [BitVec.getElem_extractLsb']
    repeat rw [BitVec.getLsbD_append]
    grind

theorem be16_fromBe16 (a b : Byte) : be16 (fromBe16 a b) = [a, b] := by
  unfold be16 fromBe16
  simp only [List.cons.injEq, and_true]
  refine ⟨?_, ?_⟩ <;>
  · ext i hi
    rw [BitVec.getElem_extractLsb', BitVec.getLsbD_append]
    grind

theorem statusOfCode_statusCode (v : StatusValue) : statusOfCode (statusCode v) = some v := by
  cases v <;> rfl

theorem statusCode_of_statusOfCode {b : Byte} {v : StatusValue} (h : statusOfCode b = some v) :
    statusCode v = b := by
  unfold statusOfCode at h
  repeat' split at h
  all_goals first | (cases h; simp_all [statusCode]) | simp at h

end Sys2Proof.Machine
end

