-- ==== Sys2Proof/Laws/Codec.lean ====
section
/-! SUPPORT. The field codec: a payload built from typed values decodes to them, and a decoded payload is the one its values
build; the shape of each variant's values. -/

namespace Sys2Proof.Machine

open Sys2Proof

/-- A `bytes` field may only stand last (30_encoding.md R63). -/
def bytesLast : List FieldType → Bool
  | [] => true
  | [_] => true
  | .bytes :: _ :: _ => false
  | _ :: ts => bytesLast ts

theorem fieldsOf_bytesLast (v : Variant) : bytesLast (fieldsOf v) = true := by cases v <;> rfl

theorem encFields_cons (v : FieldValue) (vs : List FieldValue) : encFields (v :: vs) = encField v ++ encFields vs := by
  simp [encFields]

@[simp] theorem encFields_nil : encFields [] = [] := rfl

/-- Typed values survive the payload (41_framer.md R117 after 30_encoding.md R63). -/
theorem decodeFields_encFields {ts : List FieldType} {vs : List FieldValue} (hb : bytesLast ts = true)
    (h : haveTypes vs ts = true) : decodeFields ts (encFields vs) = .ok vs := by
  induction ts generalizing vs with
  | nil => cases vs <;> simp_all [haveTypes, decodeFields]
  | cons t ts ih =>
    cases vs with
    | nil => simp [haveTypes] at h
    | cons v vs =>
      simp only [haveTypes, Bool.and_eq_true] at h
      obtain ⟨hv, hvs⟩ := h
      rw [encFields_cons]
      cases ts with
      | nil =>
        cases vs with
        | cons _ _ => simp [haveTypes] at hvs
        | nil =>
          cases v <;> cases t <;> simp_all [hasType, decodeFields, encField, be32, be16, Except.map, fromBe32_extract,
            fromBe16_extract, statusOfCode_statusCode]
      | cons t' ts =>
        have hbt : bytesLast (t' :: ts) = true := by cases t <;> simp_all [bytesLast]
        have hih := ih hbt hvs
        cases v <;> cases t <;> simp_all [hasType, decodeFields, encField, be32, be16, Except.map, fromBe32_extract,
          fromBe16_extract, statusOfCode_statusCode, bytesLast]

/-- What a decoded payload was (41_framer.md R117): its values have the declared types, and the payload begins with
their encoding; nothing is left over after a `bytes` field. -/
theorem encFields_of_decodeFields {ts : List FieldType} {pay : List Byte} {vs : List FieldValue}
    (hb : bytesLast ts = true) (h : decodeFields ts pay = .ok vs) :
    haveTypes vs ts = true ∧ ∃ rest, pay = encFields vs ++ rest ∧ (.bytes ∈ ts → rest = []) := by
  induction ts generalizing pay vs with
  | nil =>
    simp only [decodeFields, Except.ok.injEq] at h
    subst h
    exact ⟨rfl, pay, by simp, by simp⟩
  | cons t ts ih =>
    have hbt : bytesLast ts = true := by cases ts <;> cases t <;> simp_all [bytesLast]
    have map_ok : ∀ {f : List FieldValue → List FieldValue} {r : Except FieldError (List FieldValue)},
        r.map f = .ok vs → ∃ ws, r = .ok ws ∧ vs = f ws := by
      intro f r hr
      cases r with
      | error e => cases hr
      | ok ws => exact ⟨ws, rfl, by injection hr with hr; exact hr.symm⟩
    cases t with
    | u8 =>
      rcases pay with _ | ⟨b, rest⟩ <;> simp only [decodeFields, reduceCtorEq] at h
      obtain ⟨ws, hws, rfl⟩ := map_ok h
      obtain ⟨hty, r, rfl, hr⟩ := ih hbt hws
      exact ⟨by simpa [haveTypes, hasType] using hty, r, by simp [encFields_cons, encField], by simpa using hr⟩
    | u16 =>
      rcases pay with _ | ⟨b₁, _ | ⟨b₂, rest⟩⟩ <;> simp only [decodeFields, reduceCtorEq] at h
      obtain ⟨ws, hws, rfl⟩ := map_ok h
      obtain ⟨hty, r, rfl, hr⟩ := ih hbt hws
      exact ⟨by simpa [haveTypes, hasType] using hty, r, by simp [encFields_cons, encField, be16_fromBe16],
        by simpa using hr⟩
    | u32 =>
      rcases pay with _ | ⟨b₁, _ | ⟨b₂, _ | ⟨b₃, _ | ⟨b₄, rest⟩⟩⟩⟩ <;> simp only [decodeFields, reduceCtorEq] at h
      obtain ⟨ws, hws, rfl⟩ := map_ok h
      obtain ⟨hty, r, rfl, hr⟩ := ih hbt hws
      exact ⟨by simpa [haveTypes, hasType] using hty, r, by simp [encFields_cons, encField, be32_fromBe32],
        by simpa using hr⟩
    | status =>
      rcases pay with _ | ⟨b, rest⟩ <;> simp only [decodeFields, reduceCtorEq] at h
      split at h
      · next v hv =>
        obtain ⟨ws, hws, rfl⟩ := map_ok h
        obtain ⟨hty, r, rfl, hr⟩ := ih hbt hws
        exact ⟨by simpa [haveTypes, hasType] using hty, r,
          by simp [encFields_cons, encField, statusCode_of_statusOfCode hv], by simpa using hr⟩
      · cases h
    | bytes =>
      simp only [decodeFields] at h
      obtain ⟨ws, hws, rfl⟩ := map_ok h
      cases ts with
      | cons _ _ => simp [bytesLast] at hb
      | nil =>
        simp only [decodeFields, Except.ok.injEq] at hws
        subst hws
        exact ⟨rfl, [], by simp [encFields_cons, encField], fun _ => rfl⟩

/-- The encoding of typed values has the width of their types, where no `bytes` field is among them. -/
def fieldWidth : FieldType → Nat
  | .u8 => 1
  | .u16 => 2
  | .u32 => 4
  | .bytes => 0
  | .status => 1

theorem length_encFields {vs : List FieldValue} {ts : List FieldType} (h : haveTypes vs ts = true)
    (hb : FieldType.bytes ∉ ts) : (encFields vs).length = (ts.map fieldWidth).sum := by
  induction ts generalizing vs with
  | nil => cases vs <;> simp_all [haveTypes]
  | cons t ts ih =>
    cases vs with
    | nil => simp [haveTypes] at h
    | cons v vs =>
      simp only [haveTypes, Bool.and_eq_true] at h
      rw [encFields_cons, List.length_append, ih h.2 (by simp_all)]
      cases v <;> cases t <;> simp_all [hasType, encField, fieldWidth]

/-- The wire item made of values of a variant's shape has that variant and those values. -/
theorem fieldValues_ofFields {v : Variant} {vs : List FieldValue} {i : Instr} (h : ofFields v vs = some i) :
    variantOf i = some v ∧ fieldValues i = vs := by
  rcases vs with _ | ⟨f₁, _ | ⟨f₂, _ | ⟨f₃, _ | ⟨f₄, vs⟩⟩⟩⟩ <;> cases v <;>
    first | (cases h; done) | (injection h with h; subst h; exact ⟨rfl, rfl⟩) | skip
  all_goals cases f₁ <;> first | (cases h; done) | (injection h with h; subst h; exact ⟨rfl, rfl⟩) | skip
  all_goals cases f₂ <;> first | (cases h; done) | (injection h with h; subst h; exact ⟨rfl, rfl⟩) | skip
  all_goals cases f₃ <;> first | (cases h; done) | (injection h with h; subst h; exact ⟨rfl, rfl⟩)

theorem ofFields_fieldValues {v : Variant} {i : Instr} (h : variantOf i = some v) :
    ofFields v (fieldValues i) = some i := by
  cases i <;> simp only [variantOf, Option.some.injEq, reduceCtorEq] at h <;> subst h <;> rfl

theorem haveTypes_fieldValues {v : Variant} {i : Instr} (h : variantOf i = some v) :
    haveTypes (fieldValues i) (fieldsOf v) = true := by
  cases i <;> simp only [variantOf, Option.some.injEq, reduceCtorEq] at h <;> subst h <;> rfl

/-- The payload of a wire item decodes to it. -/
theorem decodePayload_payloadOf {v : Variant} {i : Instr} (h : variantOf i = some v) :
    decodePayload v (payloadOf i) = .ok i := by
  unfold decodePayload payloadOf
  rw [decodeFields_encFields (fieldsOf_bytesLast v) (haveTypes_fieldValues h)]
  simp [ofFields_fieldValues h]

/-- What a decoded payload was: the item's payload, with nothing left over after a `bytes` field. -/
theorem decodePayload_ok {v : Variant} {pay : List Byte} {i : Instr} (h : decodePayload v pay = .ok i) :
    variantOf i = some v ∧ ∃ rest, pay = payloadOf i ++ rest ∧ (.bytes ∈ fieldsOf v → rest = []) := by
  unfold decodePayload at h
  split at h
  · cases h
  · cases h
  · next vals hv =>
    split at h
    · next j hj =>
      cases h
      obtain ⟨hvar, hval⟩ := fieldValues_ofFields hj
      obtain ⟨-, rest, hp, hr⟩ := encFields_of_decodeFields (fieldsOf_bytesLast v) hv
      exact ⟨hvar, rest, by rw [hp, payloadOf, hval], hr⟩
    · cases h

/-- How many payload bytes a wire item has (30_encoding.md R64). -/
def payloadWidth : Instr → Nat
  | .ping => 0
  | .download _ _ => 8
  | .getStatus => 0
  | .sendData data => data.length
  | .reset => 0
  | .sectorErase _ => 4
  | .crc32 _ _ _ => 12
  | .getChipId => 0
  | .memoryRead _ _ _ => 6
  | .memoryWrite _ _ data => 8 + data.length
  | .bankErase => 0
  | .chipIdReply _ => 4
  | .crc32Reply _ => 4
  | .commandStatus _ => 1
  | .ack _ => 0
  | .nack => 0

theorem length_payloadOf (i : Instr) : (payloadOf i).length = payloadWidth i := by
  cases i <;> simp [payloadOf, fieldValues, encFields, encField, payloadWidth]
  omega

@[simp] theorem length_requestPacket (cmd : Byte) (pay : List Byte) :
    (requestPacket cmd pay).length = 3 + pay.length := by
  simp [requestPacket]; omega

@[simp] theorem length_replyPacket (pay : List Byte) : (replyPacket pay).length = 2 + pay.length := by
  simp [replyPacket]; omega

/-- The command byte map and the CMD column agree (30_encoding.md R64, R69). -/
theorem cmdOf_of_variantOfCmd {cmd : Byte} {v : Variant} (h : variantOfCmd cmd = some v) : cmdOf v = some cmd := by
  unfold variantOfCmd at h
  repeat' split at h
  all_goals first | (injection h with h; subst h; simp_all [cmdOf]) | cases h

theorem variantOfCmd_of_cmdOf {cmd : Byte} {v : Variant} (h : cmdOf v = some cmd) : variantOfCmd cmd = some v := by
  cases v <;> simp only [cmdOf, Option.some.injEq, reduceCtorEq] at h <;> subst h <;> rfl

/-- Every request's encoding is the packet of its CMD and payload (30_encoding.md R60). -/
theorem encode_request {i : Instr} {v : Variant} {cmd : Byte} (hv : variantOf i = some v) (hc : cmdOf v = some cmd) :
    encode i = requestPacket cmd (payloadOf i) := by
  cases i <;> simp only [variantOf, Option.some.injEq, reduceCtorEq] at hv <;> subst hv <;>
    simp only [cmdOf, Option.some.injEq, reduceCtorEq] at hc <;> subst hc <;> rfl

/-- A packet is well formed exactly when its length is in its variant's bounds (30_encoding.md R78, 41_framer.md R113). -/
theorem wellFormed_iff_bounds {i : Instr} {v : Variant} (h : variantOf i = some v) :
    WellFormed i ↔ minLen v ≤ 3 + (payloadOf i).length ∧ 3 + (payloadOf i).length ≤ maxLen v := by
  rw [length_payloadOf]
  cases i <;> simp only [variantOf, Option.some.injEq, reduceCtorEq] at h <;> subst h <;>
    simp [WellFormed, Instr.wellFormed, minLen, maxLen, payloadWidth]
  all_goals omega

/-- A variant without a `bytes` field has packets of one length (20_memory.md R52). -/
theorem fixed_length {i : Instr} {v : Variant} (h : variantOf i = some v) (hb : FieldType.bytes ∉ fieldsOf v) :
    3 + (payloadOf i).length = minLen v ∧ 3 + (payloadOf i).length = maxLen v := by
  rw [length_payloadOf]
  cases i <;> simp only [variantOf, Option.some.injEq, reduceCtorEq] at h <;> subst h <;>
    simp [fieldsOf, minLen, maxLen, payloadWidth] at hb ⊢

theorem minLen_ge (v : Variant) : 3 ≤ minLen v := by cases v <;> decide

theorem maxLen_le (v : Variant) : maxLen v ≤ 255 := by cases v <;> decide

end Sys2Proof.Machine
end

