-- ==== Sys2Proof/Laws/State.lean ====
section
/-! SUPPORT. One lemma per field per named update of State, true by rfl, so that no later proof unfolds a record update. -/

namespace Sys2Proof.Machine

open Sys2Proof

@[simp] theorem State.loadTx_txbuf (s : State) (b : List Byte) : (s.loadTx b).txbuf = s.txbuf.writeRange 0 b := rfl
@[simp] theorem State.loadTx_txlen (s : State) (b : List Byte) : (s.loadTx b).txlen = BitVec.ofNat 16 b.length := rfl
@[simp] theorem State.loadTx_rxbuf (s : State) (b : List Byte) : (s.loadTx b).rxbuf = s.rxbuf := rfl
@[simp] theorem State.loadTx_rxlen (s : State) (b : List Byte) : (s.loadTx b).rxlen = s.rxlen := rfl
@[simp] theorem State.loadTx_scanpos (s : State) (b : List Byte) : (s.loadTx b).scanpos = s.scanpos := rfl
@[simp] theorem State.loadTx_rlen (s : State) (b : List Byte) : (s.loadTx b).rlen = s.rlen := rfl
@[simp] theorem State.loadTx_rcks (s : State) (b : List Byte) : (s.loadTx b).rcks = s.rcks := rfl
@[simp] theorem State.loadTx_rpay (s : State) (b : List Byte) : (s.loadTx b).rpay = s.rpay := rfl
@[simp] theorem State.loadTx_rpaylen (s : State) (b : List Byte) : (s.loadTx b).rpaylen = s.rpaylen := rfl
@[simp] theorem State.loadTx_cksacc (s : State) (b : List Byte) : (s.loadTx b).cksacc = s.cksacc := rfl
@[simp] theorem State.loadTx_crcacc (s : State) (b : List Byte) : (s.loadTx b).crcacc = s.crcacc := rfl
@[simp] theorem State.loadTx_crcLocal (s : State) (b : List Byte) : (s.loadTx b).crcLocal = s.crcLocal := rfl
@[simp] theorem State.loadTx_crcDevice (s : State) (b : List Byte) : (s.loadTx b).crcDevice = s.crcDevice := rfl
@[simp] theorem State.loadTx_chipid (s : State) (b : List Byte) : (s.loadTx b).chipid = s.chipid := rfl
@[simp] theorem State.loadTx_status (s : State) (b : List Byte) : (s.loadTx b).status = s.status := rfl
@[simp] theorem State.loadTx_session (s : State) (b : List Byte) : (s.loadTx b).session = s.session := rfl
@[simp] theorem State.loadTx_ackf (s : State) (b : List Byte) : (s.loadTx b).ackf = s.ackf := rfl
@[simp] theorem State.loadTx_nackf (s : State) (b : List Byte) : (s.loadTx b).nackf = s.nackf := rfl
@[simp] theorem State.loadTx_crcMatch (s : State) (b : List Byte) : (s.loadTx b).crcMatch = s.crcMatch := rfl
@[simp] theorem State.loadTx_fault (s : State) (b : List Byte) : (s.loadTx b).fault = s.fault := rfl
@[simp] theorem State.loadTx_err (s : State) (b : List Byte) : (s.loadTx b).err = s.err := rfl
@[simp] theorem State.loadTx_cfg (s : State) (b : List Byte) : (s.loadTx b).cfg = s.cfg := rfl
@[simp] theorem State.loadTx_resetN (s : State) (b : List Byte) : (s.loadTx b).resetN = s.resetN := rfl
@[simp] theorem State.loadTx_blEnN (s : State) (b : List Byte) : (s.loadTx b).blEnN = s.blEnN := rfl
@[simp] theorem State.loadTx_now (s : State) (b : List Byte) : (s.loadTx b).now = s.now := rfl
@[simp] theorem State.loadTx_trace (s : State) (b : List Byte) : (s.loadTx b).trace = s.trace := rfl
@[simp] theorem State.loadTx_env (s : State) (b : List Byte) : (s.loadTx b).env = s.env := rfl
@[simp] theorem State.loadTx_crcLocalWritten (s : State) (b : List Byte) : (s.loadTx b).crcLocalWritten = s.crcLocalWritten := rfl
@[simp] theorem State.loadTx_crcDeviceWritten (s : State) (b : List Byte) : (s.loadTx b).crcDeviceWritten = s.crcDeviceWritten := rfl
@[simp] theorem State.loadTx_pending (s : State) (b : List Byte) : (s.loadTx b).pending = s.pending := rfl
@[simp] theorem State.loadTx_result (s : State) (b : List Byte) : (s.loadTx b).result = s.result := rfl

@[simp] theorem State.storeRx_txbuf (s : State) (b : List Byte) : (s.storeRx b).txbuf = s.txbuf := rfl
@[simp] theorem State.storeRx_txlen (s : State) (b : List Byte) : (s.storeRx b).txlen = s.txlen := rfl
@[simp] theorem State.storeRx_rxbuf (s : State) (b : List Byte) : (s.storeRx b).rxbuf = s.rxbuf.writeRange 0 b := rfl
@[simp] theorem State.storeRx_rxlen (s : State) (b : List Byte) : (s.storeRx b).rxlen = BitVec.ofNat 16 b.length := rfl
@[simp] theorem State.storeRx_scanpos (s : State) (b : List Byte) : (s.storeRx b).scanpos = s.scanpos := rfl
@[simp] theorem State.storeRx_rlen (s : State) (b : List Byte) : (s.storeRx b).rlen = s.rlen := rfl
@[simp] theorem State.storeRx_rcks (s : State) (b : List Byte) : (s.storeRx b).rcks = s.rcks := rfl
@[simp] theorem State.storeRx_rpay (s : State) (b : List Byte) : (s.storeRx b).rpay = s.rpay := rfl
@[simp] theorem State.storeRx_rpaylen (s : State) (b : List Byte) : (s.storeRx b).rpaylen = s.rpaylen := rfl
@[simp] theorem State.storeRx_cksacc (s : State) (b : List Byte) : (s.storeRx b).cksacc = s.cksacc := rfl
@[simp] theorem State.storeRx_crcacc (s : State) (b : List Byte) : (s.storeRx b).crcacc = s.crcacc := rfl
@[simp] theorem State.storeRx_crcLocal (s : State) (b : List Byte) : (s.storeRx b).crcLocal = s.crcLocal := rfl
@[simp] theorem State.storeRx_crcDevice (s : State) (b : List Byte) : (s.storeRx b).crcDevice = s.crcDevice := rfl
@[simp] theorem State.storeRx_chipid (s : State) (b : List Byte) : (s.storeRx b).chipid = s.chipid := rfl
@[simp] theorem State.storeRx_status (s : State) (b : List Byte) : (s.storeRx b).status = s.status := rfl
@[simp] theorem State.storeRx_session (s : State) (b : List Byte) : (s.storeRx b).session = s.session := rfl
@[simp] theorem State.storeRx_ackf (s : State) (b : List Byte) : (s.storeRx b).ackf = s.ackf := rfl
@[simp] theorem State.storeRx_nackf (s : State) (b : List Byte) : (s.storeRx b).nackf = s.nackf := rfl
@[simp] theorem State.storeRx_crcMatch (s : State) (b : List Byte) : (s.storeRx b).crcMatch = s.crcMatch := rfl
@[simp] theorem State.storeRx_fault (s : State) (b : List Byte) : (s.storeRx b).fault = s.fault := rfl
@[simp] theorem State.storeRx_err (s : State) (b : List Byte) : (s.storeRx b).err = s.err := rfl
@[simp] theorem State.storeRx_cfg (s : State) (b : List Byte) : (s.storeRx b).cfg = s.cfg := rfl
@[simp] theorem State.storeRx_resetN (s : State) (b : List Byte) : (s.storeRx b).resetN = s.resetN := rfl
@[simp] theorem State.storeRx_blEnN (s : State) (b : List Byte) : (s.storeRx b).blEnN = s.blEnN := rfl
@[simp] theorem State.storeRx_now (s : State) (b : List Byte) : (s.storeRx b).now = s.now := rfl
@[simp] theorem State.storeRx_trace (s : State) (b : List Byte) : (s.storeRx b).trace = s.trace := rfl
@[simp] theorem State.storeRx_env (s : State) (b : List Byte) : (s.storeRx b).env = s.env := rfl
@[simp] theorem State.storeRx_crcLocalWritten (s : State) (b : List Byte) : (s.storeRx b).crcLocalWritten = s.crcLocalWritten := rfl
@[simp] theorem State.storeRx_crcDeviceWritten (s : State) (b : List Byte) : (s.storeRx b).crcDeviceWritten = s.crcDeviceWritten := rfl
@[simp] theorem State.storeRx_pending (s : State) (b : List Byte) : (s.storeRx b).pending = s.pending := rfl
@[simp] theorem State.storeRx_result (s : State) (b : List Byte) : (s.storeRx b).result = s.result := rfl

@[simp] theorem State.setCks_txbuf (s : State) (c : Byte) : (s.setCks c).txbuf = s.txbuf := rfl
@[simp] theorem State.setCks_txlen (s : State) (c : Byte) : (s.setCks c).txlen = s.txlen := rfl
@[simp] theorem State.setCks_rxbuf (s : State) (c : Byte) : (s.setCks c).rxbuf = s.rxbuf := rfl
@[simp] theorem State.setCks_rxlen (s : State) (c : Byte) : (s.setCks c).rxlen = s.rxlen := rfl
@[simp] theorem State.setCks_scanpos (s : State) (c : Byte) : (s.setCks c).scanpos = s.scanpos := rfl
@[simp] theorem State.setCks_rlen (s : State) (c : Byte) : (s.setCks c).rlen = s.rlen := rfl
@[simp] theorem State.setCks_rcks (s : State) (c : Byte) : (s.setCks c).rcks = s.rcks := rfl
@[simp] theorem State.setCks_rpay (s : State) (c : Byte) : (s.setCks c).rpay = s.rpay := rfl
@[simp] theorem State.setCks_rpaylen (s : State) (c : Byte) : (s.setCks c).rpaylen = s.rpaylen := rfl
@[simp] theorem State.setCks_cksacc (s : State) (c : Byte) : (s.setCks c).cksacc = c := rfl
@[simp] theorem State.setCks_crcacc (s : State) (c : Byte) : (s.setCks c).crcacc = s.crcacc := rfl
@[simp] theorem State.setCks_crcLocal (s : State) (c : Byte) : (s.setCks c).crcLocal = s.crcLocal := rfl
@[simp] theorem State.setCks_crcDevice (s : State) (c : Byte) : (s.setCks c).crcDevice = s.crcDevice := rfl
@[simp] theorem State.setCks_chipid (s : State) (c : Byte) : (s.setCks c).chipid = s.chipid := rfl
@[simp] theorem State.setCks_status (s : State) (c : Byte) : (s.setCks c).status = s.status := rfl
@[simp] theorem State.setCks_session (s : State) (c : Byte) : (s.setCks c).session = s.session := rfl
@[simp] theorem State.setCks_ackf (s : State) (c : Byte) : (s.setCks c).ackf = s.ackf := rfl
@[simp] theorem State.setCks_nackf (s : State) (c : Byte) : (s.setCks c).nackf = s.nackf := rfl
@[simp] theorem State.setCks_crcMatch (s : State) (c : Byte) : (s.setCks c).crcMatch = s.crcMatch := rfl
@[simp] theorem State.setCks_fault (s : State) (c : Byte) : (s.setCks c).fault = s.fault := rfl
@[simp] theorem State.setCks_err (s : State) (c : Byte) : (s.setCks c).err = s.err := rfl
@[simp] theorem State.setCks_cfg (s : State) (c : Byte) : (s.setCks c).cfg = s.cfg := rfl
@[simp] theorem State.setCks_resetN (s : State) (c : Byte) : (s.setCks c).resetN = s.resetN := rfl
@[simp] theorem State.setCks_blEnN (s : State) (c : Byte) : (s.setCks c).blEnN = s.blEnN := rfl
@[simp] theorem State.setCks_now (s : State) (c : Byte) : (s.setCks c).now = s.now := rfl
@[simp] theorem State.setCks_trace (s : State) (c : Byte) : (s.setCks c).trace = s.trace := rfl
@[simp] theorem State.setCks_env (s : State) (c : Byte) : (s.setCks c).env = s.env := rfl
@[simp] theorem State.setCks_crcLocalWritten (s : State) (c : Byte) : (s.setCks c).crcLocalWritten = s.crcLocalWritten := rfl
@[simp] theorem State.setCks_crcDeviceWritten (s : State) (c : Byte) : (s.setCks c).crcDeviceWritten = s.crcDeviceWritten := rfl
@[simp] theorem State.setCks_pending (s : State) (c : Byte) : (s.setCks c).pending = s.pending := rfl
@[simp] theorem State.setCks_result (s : State) (c : Byte) : (s.setCks c).result = s.result := rfl

@[simp] theorem State.setHeader_txbuf (s : State) (l c : Byte) : (s.setHeader l c).txbuf = s.txbuf := rfl
@[simp] theorem State.setHeader_txlen (s : State) (l c : Byte) : (s.setHeader l c).txlen = s.txlen := rfl
@[simp] theorem State.setHeader_rxbuf (s : State) (l c : Byte) : (s.setHeader l c).rxbuf = s.rxbuf := rfl
@[simp] theorem State.setHeader_rxlen (s : State) (l c : Byte) : (s.setHeader l c).rxlen = s.rxlen := rfl
@[simp] theorem State.setHeader_scanpos (s : State) (l c : Byte) : (s.setHeader l c).scanpos = s.scanpos := rfl
@[simp] theorem State.setHeader_rlen (s : State) (l c : Byte) : (s.setHeader l c).rlen = l := rfl
@[simp] theorem State.setHeader_rcks (s : State) (l c : Byte) : (s.setHeader l c).rcks = c := rfl
@[simp] theorem State.setHeader_rpay (s : State) (l c : Byte) : (s.setHeader l c).rpay = s.rpay := rfl
@[simp] theorem State.setHeader_rpaylen (s : State) (l c : Byte) : (s.setHeader l c).rpaylen = s.rpaylen := rfl
@[simp] theorem State.setHeader_cksacc (s : State) (l c : Byte) : (s.setHeader l c).cksacc = s.cksacc := rfl
@[simp] theorem State.setHeader_crcacc (s : State) (l c : Byte) : (s.setHeader l c).crcacc = s.crcacc := rfl
@[simp] theorem State.setHeader_crcLocal (s : State) (l c : Byte) : (s.setHeader l c).crcLocal = s.crcLocal := rfl
@[simp] theorem State.setHeader_crcDevice (s : State) (l c : Byte) : (s.setHeader l c).crcDevice = s.crcDevice := rfl
@[simp] theorem State.setHeader_chipid (s : State) (l c : Byte) : (s.setHeader l c).chipid = s.chipid := rfl
@[simp] theorem State.setHeader_status (s : State) (l c : Byte) : (s.setHeader l c).status = s.status := rfl
@[simp] theorem State.setHeader_session (s : State) (l c : Byte) : (s.setHeader l c).session = s.session := rfl
@[simp] theorem State.setHeader_ackf (s : State) (l c : Byte) : (s.setHeader l c).ackf = s.ackf := rfl
@[simp] theorem State.setHeader_nackf (s : State) (l c : Byte) : (s.setHeader l c).nackf = s.nackf := rfl
@[simp] theorem State.setHeader_crcMatch (s : State) (l c : Byte) : (s.setHeader l c).crcMatch = s.crcMatch := rfl
@[simp] theorem State.setHeader_fault (s : State) (l c : Byte) : (s.setHeader l c).fault = s.fault := rfl
@[simp] theorem State.setHeader_err (s : State) (l c : Byte) : (s.setHeader l c).err = s.err := rfl
@[simp] theorem State.setHeader_cfg (s : State) (l c : Byte) : (s.setHeader l c).cfg = s.cfg := rfl
@[simp] theorem State.setHeader_resetN (s : State) (l c : Byte) : (s.setHeader l c).resetN = s.resetN := rfl
@[simp] theorem State.setHeader_blEnN (s : State) (l c : Byte) : (s.setHeader l c).blEnN = s.blEnN := rfl
@[simp] theorem State.setHeader_now (s : State) (l c : Byte) : (s.setHeader l c).now = s.now := rfl
@[simp] theorem State.setHeader_trace (s : State) (l c : Byte) : (s.setHeader l c).trace = s.trace := rfl
@[simp] theorem State.setHeader_env (s : State) (l c : Byte) : (s.setHeader l c).env = s.env := rfl
@[simp] theorem State.setHeader_crcLocalWritten (s : State) (l c : Byte) : (s.setHeader l c).crcLocalWritten = s.crcLocalWritten := rfl
@[simp] theorem State.setHeader_crcDeviceWritten (s : State) (l c : Byte) : (s.setHeader l c).crcDeviceWritten = s.crcDeviceWritten := rfl
@[simp] theorem State.setHeader_pending (s : State) (l c : Byte) : (s.setHeader l c).pending = s.pending := rfl
@[simp] theorem State.setHeader_result (s : State) (l c : Byte) : (s.setHeader l c).result = s.result := rfl

@[simp] theorem State.setPayload_txbuf (s : State) (b : List Byte) : (s.setPayload b).txbuf = s.txbuf := rfl
@[simp] theorem State.setPayload_txlen (s : State) (b : List Byte) : (s.setPayload b).txlen = s.txlen := rfl
@[simp] theorem State.setPayload_rxbuf (s : State) (b : List Byte) : (s.setPayload b).rxbuf = s.rxbuf := rfl
@[simp] theorem State.setPayload_rxlen (s : State) (b : List Byte) : (s.setPayload b).rxlen = s.rxlen := rfl
@[simp] theorem State.setPayload_scanpos (s : State) (b : List Byte) : (s.setPayload b).scanpos = s.scanpos := rfl
@[simp] theorem State.setPayload_rlen (s : State) (b : List Byte) : (s.setPayload b).rlen = s.rlen := rfl
@[simp] theorem State.setPayload_rcks (s : State) (b : List Byte) : (s.setPayload b).rcks = s.rcks := rfl
@[simp] theorem State.setPayload_rpay (s : State) (b : List Byte) : (s.setPayload b).rpay = s.rpay.writeRange 0 b := rfl
@[simp] theorem State.setPayload_rpaylen (s : State) (b : List Byte) : (s.setPayload b).rpaylen = BitVec.ofNat 8 b.length := rfl
@[simp] theorem State.setPayload_cksacc (s : State) (b : List Byte) : (s.setPayload b).cksacc = s.cksacc := rfl
@[simp] theorem State.setPayload_crcacc (s : State) (b : List Byte) : (s.setPayload b).crcacc = s.crcacc := rfl
@[simp] theorem State.setPayload_crcLocal (s : State) (b : List Byte) : (s.setPayload b).crcLocal = s.crcLocal := rfl
@[simp] theorem State.setPayload_crcDevice (s : State) (b : List Byte) : (s.setPayload b).crcDevice = s.crcDevice := rfl
@[simp] theorem State.setPayload_chipid (s : State) (b : List Byte) : (s.setPayload b).chipid = s.chipid := rfl
@[simp] theorem State.setPayload_status (s : State) (b : List Byte) : (s.setPayload b).status = s.status := rfl
@[simp] theorem State.setPayload_session (s : State) (b : List Byte) : (s.setPayload b).session = s.session := rfl
@[simp] theorem State.setPayload_ackf (s : State) (b : List Byte) : (s.setPayload b).ackf = s.ackf := rfl
@[simp] theorem State.setPayload_nackf (s : State) (b : List Byte) : (s.setPayload b).nackf = s.nackf := rfl
@[simp] theorem State.setPayload_crcMatch (s : State) (b : List Byte) : (s.setPayload b).crcMatch = s.crcMatch := rfl
@[simp] theorem State.setPayload_fault (s : State) (b : List Byte) : (s.setPayload b).fault = s.fault := rfl
@[simp] theorem State.setPayload_err (s : State) (b : List Byte) : (s.setPayload b).err = s.err := rfl
@[simp] theorem State.setPayload_cfg (s : State) (b : List Byte) : (s.setPayload b).cfg = s.cfg := rfl
@[simp] theorem State.setPayload_resetN (s : State) (b : List Byte) : (s.setPayload b).resetN = s.resetN := rfl
@[simp] theorem State.setPayload_blEnN (s : State) (b : List Byte) : (s.setPayload b).blEnN = s.blEnN := rfl
@[simp] theorem State.setPayload_now (s : State) (b : List Byte) : (s.setPayload b).now = s.now := rfl
@[simp] theorem State.setPayload_trace (s : State) (b : List Byte) : (s.setPayload b).trace = s.trace := rfl
@[simp] theorem State.setPayload_env (s : State) (b : List Byte) : (s.setPayload b).env = s.env := rfl
@[simp] theorem State.setPayload_crcLocalWritten (s : State) (b : List Byte) : (s.setPayload b).crcLocalWritten = s.crcLocalWritten := rfl
@[simp] theorem State.setPayload_crcDeviceWritten (s : State) (b : List Byte) : (s.setPayload b).crcDeviceWritten = s.crcDeviceWritten := rfl
@[simp] theorem State.setPayload_pending (s : State) (b : List Byte) : (s.setPayload b).pending = s.pending := rfl
@[simp] theorem State.setPayload_result (s : State) (b : List Byte) : (s.setPayload b).result = s.result := rfl

@[simp] theorem State.setChipId_txbuf (s : State) (v : U32) : (s.setChipId v).txbuf = s.txbuf := rfl
@[simp] theorem State.setChipId_txlen (s : State) (v : U32) : (s.setChipId v).txlen = s.txlen := rfl
@[simp] theorem State.setChipId_rxbuf (s : State) (v : U32) : (s.setChipId v).rxbuf = s.rxbuf := rfl
@[simp] theorem State.setChipId_rxlen (s : State) (v : U32) : (s.setChipId v).rxlen = s.rxlen := rfl
@[simp] theorem State.setChipId_scanpos (s : State) (v : U32) : (s.setChipId v).scanpos = s.scanpos := rfl
@[simp] theorem State.setChipId_rlen (s : State) (v : U32) : (s.setChipId v).rlen = s.rlen := rfl
@[simp] theorem State.setChipId_rcks (s : State) (v : U32) : (s.setChipId v).rcks = s.rcks := rfl
@[simp] theorem State.setChipId_rpay (s : State) (v : U32) : (s.setChipId v).rpay = s.rpay := rfl
@[simp] theorem State.setChipId_rpaylen (s : State) (v : U32) : (s.setChipId v).rpaylen = s.rpaylen := rfl
@[simp] theorem State.setChipId_cksacc (s : State) (v : U32) : (s.setChipId v).cksacc = s.cksacc := rfl
@[simp] theorem State.setChipId_crcacc (s : State) (v : U32) : (s.setChipId v).crcacc = s.crcacc := rfl
@[simp] theorem State.setChipId_crcLocal (s : State) (v : U32) : (s.setChipId v).crcLocal = s.crcLocal := rfl
@[simp] theorem State.setChipId_crcDevice (s : State) (v : U32) : (s.setChipId v).crcDevice = s.crcDevice := rfl
@[simp] theorem State.setChipId_chipid (s : State) (v : U32) : (s.setChipId v).chipid = v := rfl
@[simp] theorem State.setChipId_status (s : State) (v : U32) : (s.setChipId v).status = s.status := rfl
@[simp] theorem State.setChipId_session (s : State) (v : U32) : (s.setChipId v).session = s.session := rfl
@[simp] theorem State.setChipId_ackf (s : State) (v : U32) : (s.setChipId v).ackf = s.ackf := rfl
@[simp] theorem State.setChipId_nackf (s : State) (v : U32) : (s.setChipId v).nackf = s.nackf := rfl
@[simp] theorem State.setChipId_crcMatch (s : State) (v : U32) : (s.setChipId v).crcMatch = s.crcMatch := rfl
@[simp] theorem State.setChipId_fault (s : State) (v : U32) : (s.setChipId v).fault = s.fault := rfl
@[simp] theorem State.setChipId_err (s : State) (v : U32) : (s.setChipId v).err = s.err := rfl
@[simp] theorem State.setChipId_cfg (s : State) (v : U32) : (s.setChipId v).cfg = s.cfg := rfl
@[simp] theorem State.setChipId_resetN (s : State) (v : U32) : (s.setChipId v).resetN = s.resetN := rfl
@[simp] theorem State.setChipId_blEnN (s : State) (v : U32) : (s.setChipId v).blEnN = s.blEnN := rfl
@[simp] theorem State.setChipId_now (s : State) (v : U32) : (s.setChipId v).now = s.now := rfl
@[simp] theorem State.setChipId_trace (s : State) (v : U32) : (s.setChipId v).trace = s.trace := rfl
@[simp] theorem State.setChipId_env (s : State) (v : U32) : (s.setChipId v).env = s.env := rfl
@[simp] theorem State.setChipId_crcLocalWritten (s : State) (v : U32) : (s.setChipId v).crcLocalWritten = s.crcLocalWritten := rfl
@[simp] theorem State.setChipId_crcDeviceWritten (s : State) (v : U32) : (s.setChipId v).crcDeviceWritten = s.crcDeviceWritten := rfl
@[simp] theorem State.setChipId_pending (s : State) (v : U32) : (s.setChipId v).pending = s.pending := rfl
@[simp] theorem State.setChipId_result (s : State) (v : U32) : (s.setChipId v).result = s.result := rfl

@[simp] theorem State.setCrcDevice_txbuf (s : State) (v : U32) : (s.setCrcDevice v).txbuf = s.txbuf := rfl
@[simp] theorem State.setCrcDevice_txlen (s : State) (v : U32) : (s.setCrcDevice v).txlen = s.txlen := rfl
@[simp] theorem State.setCrcDevice_rxbuf (s : State) (v : U32) : (s.setCrcDevice v).rxbuf = s.rxbuf := rfl
@[simp] theorem State.setCrcDevice_rxlen (s : State) (v : U32) : (s.setCrcDevice v).rxlen = s.rxlen := rfl
@[simp] theorem State.setCrcDevice_scanpos (s : State) (v : U32) : (s.setCrcDevice v).scanpos = s.scanpos := rfl
@[simp] theorem State.setCrcDevice_rlen (s : State) (v : U32) : (s.setCrcDevice v).rlen = s.rlen := rfl
@[simp] theorem State.setCrcDevice_rcks (s : State) (v : U32) : (s.setCrcDevice v).rcks = s.rcks := rfl
@[simp] theorem State.setCrcDevice_rpay (s : State) (v : U32) : (s.setCrcDevice v).rpay = s.rpay := rfl
@[simp] theorem State.setCrcDevice_rpaylen (s : State) (v : U32) : (s.setCrcDevice v).rpaylen = s.rpaylen := rfl
@[simp] theorem State.setCrcDevice_cksacc (s : State) (v : U32) : (s.setCrcDevice v).cksacc = s.cksacc := rfl
@[simp] theorem State.setCrcDevice_crcacc (s : State) (v : U32) : (s.setCrcDevice v).crcacc = s.crcacc := rfl
@[simp] theorem State.setCrcDevice_crcLocal (s : State) (v : U32) : (s.setCrcDevice v).crcLocal = s.crcLocal := rfl
@[simp] theorem State.setCrcDevice_crcDevice (s : State) (v : U32) : (s.setCrcDevice v).crcDevice = v := rfl
@[simp] theorem State.setCrcDevice_chipid (s : State) (v : U32) : (s.setCrcDevice v).chipid = s.chipid := rfl
@[simp] theorem State.setCrcDevice_status (s : State) (v : U32) : (s.setCrcDevice v).status = s.status := rfl
@[simp] theorem State.setCrcDevice_session (s : State) (v : U32) : (s.setCrcDevice v).session = s.session := rfl
@[simp] theorem State.setCrcDevice_ackf (s : State) (v : U32) : (s.setCrcDevice v).ackf = s.ackf := rfl
@[simp] theorem State.setCrcDevice_nackf (s : State) (v : U32) : (s.setCrcDevice v).nackf = s.nackf := rfl
@[simp] theorem State.setCrcDevice_crcMatch (s : State) (v : U32) : (s.setCrcDevice v).crcMatch = s.crcMatch := rfl
@[simp] theorem State.setCrcDevice_fault (s : State) (v : U32) : (s.setCrcDevice v).fault = s.fault := rfl
@[simp] theorem State.setCrcDevice_err (s : State) (v : U32) : (s.setCrcDevice v).err = s.err := rfl
@[simp] theorem State.setCrcDevice_cfg (s : State) (v : U32) : (s.setCrcDevice v).cfg = s.cfg := rfl
@[simp] theorem State.setCrcDevice_resetN (s : State) (v : U32) : (s.setCrcDevice v).resetN = s.resetN := rfl
@[simp] theorem State.setCrcDevice_blEnN (s : State) (v : U32) : (s.setCrcDevice v).blEnN = s.blEnN := rfl
@[simp] theorem State.setCrcDevice_now (s : State) (v : U32) : (s.setCrcDevice v).now = s.now := rfl
@[simp] theorem State.setCrcDevice_trace (s : State) (v : U32) : (s.setCrcDevice v).trace = s.trace := rfl
@[simp] theorem State.setCrcDevice_env (s : State) (v : U32) : (s.setCrcDevice v).env = s.env := rfl
@[simp] theorem State.setCrcDevice_crcLocalWritten (s : State) (v : U32) : (s.setCrcDevice v).crcLocalWritten = s.crcLocalWritten := rfl
@[simp] theorem State.setCrcDevice_crcDeviceWritten (s : State) (v : U32) : (s.setCrcDevice v).crcDeviceWritten = true := rfl
@[simp] theorem State.setCrcDevice_pending (s : State) (v : U32) : (s.setCrcDevice v).pending = s.pending := rfl
@[simp] theorem State.setCrcDevice_result (s : State) (v : U32) : (s.setCrcDevice v).result = s.result := rfl

@[simp] theorem State.setStatus_txbuf (s : State) (v : StatusValue) : (s.setStatus v).txbuf = s.txbuf := rfl
@[simp] theorem State.setStatus_txlen (s : State) (v : StatusValue) : (s.setStatus v).txlen = s.txlen := rfl
@[simp] theorem State.setStatus_rxbuf (s : State) (v : StatusValue) : (s.setStatus v).rxbuf = s.rxbuf := rfl
@[simp] theorem State.setStatus_rxlen (s : State) (v : StatusValue) : (s.setStatus v).rxlen = s.rxlen := rfl
@[simp] theorem State.setStatus_scanpos (s : State) (v : StatusValue) : (s.setStatus v).scanpos = s.scanpos := rfl
@[simp] theorem State.setStatus_rlen (s : State) (v : StatusValue) : (s.setStatus v).rlen = s.rlen := rfl
@[simp] theorem State.setStatus_rcks (s : State) (v : StatusValue) : (s.setStatus v).rcks = s.rcks := rfl
@[simp] theorem State.setStatus_rpay (s : State) (v : StatusValue) : (s.setStatus v).rpay = s.rpay := rfl
@[simp] theorem State.setStatus_rpaylen (s : State) (v : StatusValue) : (s.setStatus v).rpaylen = s.rpaylen := rfl
@[simp] theorem State.setStatus_cksacc (s : State) (v : StatusValue) : (s.setStatus v).cksacc = s.cksacc := rfl
@[simp] theorem State.setStatus_crcacc (s : State) (v : StatusValue) : (s.setStatus v).crcacc = s.crcacc := rfl
@[simp] theorem State.setStatus_crcLocal (s : State) (v : StatusValue) : (s.setStatus v).crcLocal = s.crcLocal := rfl
@[simp] theorem State.setStatus_crcDevice (s : State) (v : StatusValue) : (s.setStatus v).crcDevice = s.crcDevice := rfl
@[simp] theorem State.setStatus_chipid (s : State) (v : StatusValue) : (s.setStatus v).chipid = s.chipid := rfl
@[simp] theorem State.setStatus_status (s : State) (v : StatusValue) : (s.setStatus v).status = v := rfl
@[simp] theorem State.setStatus_session (s : State) (v : StatusValue) : (s.setStatus v).session = s.session := rfl
@[simp] theorem State.setStatus_ackf (s : State) (v : StatusValue) : (s.setStatus v).ackf = s.ackf := rfl
@[simp] theorem State.setStatus_nackf (s : State) (v : StatusValue) : (s.setStatus v).nackf = s.nackf := rfl
@[simp] theorem State.setStatus_crcMatch (s : State) (v : StatusValue) : (s.setStatus v).crcMatch = s.crcMatch := rfl
@[simp] theorem State.setStatus_fault (s : State) (v : StatusValue) : (s.setStatus v).fault = s.fault := rfl
@[simp] theorem State.setStatus_err (s : State) (v : StatusValue) : (s.setStatus v).err = s.err := rfl
@[simp] theorem State.setStatus_cfg (s : State) (v : StatusValue) : (s.setStatus v).cfg = s.cfg := rfl
@[simp] theorem State.setStatus_resetN (s : State) (v : StatusValue) : (s.setStatus v).resetN = s.resetN := rfl
@[simp] theorem State.setStatus_blEnN (s : State) (v : StatusValue) : (s.setStatus v).blEnN = s.blEnN := rfl
@[simp] theorem State.setStatus_now (s : State) (v : StatusValue) : (s.setStatus v).now = s.now := rfl
@[simp] theorem State.setStatus_trace (s : State) (v : StatusValue) : (s.setStatus v).trace = s.trace := rfl
@[simp] theorem State.setStatus_env (s : State) (v : StatusValue) : (s.setStatus v).env = s.env := rfl
@[simp] theorem State.setStatus_crcLocalWritten (s : State) (v : StatusValue) : (s.setStatus v).crcLocalWritten = s.crcLocalWritten := rfl
@[simp] theorem State.setStatus_crcDeviceWritten (s : State) (v : StatusValue) : (s.setStatus v).crcDeviceWritten = s.crcDeviceWritten := rfl
@[simp] theorem State.setStatus_pending (s : State) (v : StatusValue) : (s.setStatus v).pending = s.pending := rfl
@[simp] theorem State.setStatus_result (s : State) (v : StatusValue) : (s.setStatus v).result = s.result := rfl

@[simp] theorem State.setCrcLocal_txbuf (s : State) (v : U32) : (s.setCrcLocal v).txbuf = s.txbuf := rfl
@[simp] theorem State.setCrcLocal_txlen (s : State) (v : U32) : (s.setCrcLocal v).txlen = s.txlen := rfl
@[simp] theorem State.setCrcLocal_rxbuf (s : State) (v : U32) : (s.setCrcLocal v).rxbuf = s.rxbuf := rfl
@[simp] theorem State.setCrcLocal_rxlen (s : State) (v : U32) : (s.setCrcLocal v).rxlen = s.rxlen := rfl
@[simp] theorem State.setCrcLocal_scanpos (s : State) (v : U32) : (s.setCrcLocal v).scanpos = s.scanpos := rfl
@[simp] theorem State.setCrcLocal_rlen (s : State) (v : U32) : (s.setCrcLocal v).rlen = s.rlen := rfl
@[simp] theorem State.setCrcLocal_rcks (s : State) (v : U32) : (s.setCrcLocal v).rcks = s.rcks := rfl
@[simp] theorem State.setCrcLocal_rpay (s : State) (v : U32) : (s.setCrcLocal v).rpay = s.rpay := rfl
@[simp] theorem State.setCrcLocal_rpaylen (s : State) (v : U32) : (s.setCrcLocal v).rpaylen = s.rpaylen := rfl
@[simp] theorem State.setCrcLocal_cksacc (s : State) (v : U32) : (s.setCrcLocal v).cksacc = s.cksacc := rfl
@[simp] theorem State.setCrcLocal_crcacc (s : State) (v : U32) : (s.setCrcLocal v).crcacc = s.crcacc := rfl
@[simp] theorem State.setCrcLocal_crcLocal (s : State) (v : U32) : (s.setCrcLocal v).crcLocal = v := rfl
@[simp] theorem State.setCrcLocal_crcDevice (s : State) (v : U32) : (s.setCrcLocal v).crcDevice = s.crcDevice := rfl
@[simp] theorem State.setCrcLocal_chipid (s : State) (v : U32) : (s.setCrcLocal v).chipid = s.chipid := rfl
@[simp] theorem State.setCrcLocal_status (s : State) (v : U32) : (s.setCrcLocal v).status = s.status := rfl
@[simp] theorem State.setCrcLocal_session (s : State) (v : U32) : (s.setCrcLocal v).session = s.session := rfl
@[simp] theorem State.setCrcLocal_ackf (s : State) (v : U32) : (s.setCrcLocal v).ackf = s.ackf := rfl
@[simp] theorem State.setCrcLocal_nackf (s : State) (v : U32) : (s.setCrcLocal v).nackf = s.nackf := rfl
@[simp] theorem State.setCrcLocal_crcMatch (s : State) (v : U32) : (s.setCrcLocal v).crcMatch = s.crcMatch := rfl
@[simp] theorem State.setCrcLocal_fault (s : State) (v : U32) : (s.setCrcLocal v).fault = s.fault := rfl
@[simp] theorem State.setCrcLocal_err (s : State) (v : U32) : (s.setCrcLocal v).err = s.err := rfl
@[simp] theorem State.setCrcLocal_cfg (s : State) (v : U32) : (s.setCrcLocal v).cfg = s.cfg := rfl
@[simp] theorem State.setCrcLocal_resetN (s : State) (v : U32) : (s.setCrcLocal v).resetN = s.resetN := rfl
@[simp] theorem State.setCrcLocal_blEnN (s : State) (v : U32) : (s.setCrcLocal v).blEnN = s.blEnN := rfl
@[simp] theorem State.setCrcLocal_now (s : State) (v : U32) : (s.setCrcLocal v).now = s.now := rfl
@[simp] theorem State.setCrcLocal_trace (s : State) (v : U32) : (s.setCrcLocal v).trace = s.trace := rfl
@[simp] theorem State.setCrcLocal_env (s : State) (v : U32) : (s.setCrcLocal v).env = s.env := rfl
@[simp] theorem State.setCrcLocal_crcLocalWritten (s : State) (v : U32) : (s.setCrcLocal v).crcLocalWritten = true := rfl
@[simp] theorem State.setCrcLocal_crcDeviceWritten (s : State) (v : U32) : (s.setCrcLocal v).crcDeviceWritten = s.crcDeviceWritten := rfl
@[simp] theorem State.setCrcLocal_pending (s : State) (v : U32) : (s.setCrcLocal v).pending = s.pending := rfl
@[simp] theorem State.setCrcLocal_result (s : State) (v : U32) : (s.setCrcLocal v).result = s.result := rfl

@[simp] theorem State.setCrc_txbuf (s : State) (a v : U32) : (s.setCrc a v).txbuf = s.txbuf := rfl
@[simp] theorem State.setCrc_txlen (s : State) (a v : U32) : (s.setCrc a v).txlen = s.txlen := rfl
@[simp] theorem State.setCrc_rxbuf (s : State) (a v : U32) : (s.setCrc a v).rxbuf = s.rxbuf := rfl
@[simp] theorem State.setCrc_rxlen (s : State) (a v : U32) : (s.setCrc a v).rxlen = s.rxlen := rfl
@[simp] theorem State.setCrc_scanpos (s : State) (a v : U32) : (s.setCrc a v).scanpos = s.scanpos := rfl
@[simp] theorem State.setCrc_rlen (s : State) (a v : U32) : (s.setCrc a v).rlen = s.rlen := rfl
@[simp] theorem State.setCrc_rcks (s : State) (a v : U32) : (s.setCrc a v).rcks = s.rcks := rfl
@[simp] theorem State.setCrc_rpay (s : State) (a v : U32) : (s.setCrc a v).rpay = s.rpay := rfl
@[simp] theorem State.setCrc_rpaylen (s : State) (a v : U32) : (s.setCrc a v).rpaylen = s.rpaylen := rfl
@[simp] theorem State.setCrc_cksacc (s : State) (a v : U32) : (s.setCrc a v).cksacc = s.cksacc := rfl
@[simp] theorem State.setCrc_crcacc (s : State) (a v : U32) : (s.setCrc a v).crcacc = a := rfl
@[simp] theorem State.setCrc_crcLocal (s : State) (a v : U32) : (s.setCrc a v).crcLocal = v := rfl
@[simp] theorem State.setCrc_crcDevice (s : State) (a v : U32) : (s.setCrc a v).crcDevice = s.crcDevice := rfl
@[simp] theorem State.setCrc_chipid (s : State) (a v : U32) : (s.setCrc a v).chipid = s.chipid := rfl
@[simp] theorem State.setCrc_status (s : State) (a v : U32) : (s.setCrc a v).status = s.status := rfl
@[simp] theorem State.setCrc_session (s : State) (a v : U32) : (s.setCrc a v).session = s.session := rfl
@[simp] theorem State.setCrc_ackf (s : State) (a v : U32) : (s.setCrc a v).ackf = s.ackf := rfl
@[simp] theorem State.setCrc_nackf (s : State) (a v : U32) : (s.setCrc a v).nackf = s.nackf := rfl
@[simp] theorem State.setCrc_crcMatch (s : State) (a v : U32) : (s.setCrc a v).crcMatch = s.crcMatch := rfl
@[simp] theorem State.setCrc_fault (s : State) (a v : U32) : (s.setCrc a v).fault = s.fault := rfl
@[simp] theorem State.setCrc_err (s : State) (a v : U32) : (s.setCrc a v).err = s.err := rfl
@[simp] theorem State.setCrc_cfg (s : State) (a v : U32) : (s.setCrc a v).cfg = s.cfg := rfl
@[simp] theorem State.setCrc_resetN (s : State) (a v : U32) : (s.setCrc a v).resetN = s.resetN := rfl
@[simp] theorem State.setCrc_blEnN (s : State) (a v : U32) : (s.setCrc a v).blEnN = s.blEnN := rfl
@[simp] theorem State.setCrc_now (s : State) (a v : U32) : (s.setCrc a v).now = s.now := rfl
@[simp] theorem State.setCrc_trace (s : State) (a v : U32) : (s.setCrc a v).trace = s.trace := rfl
@[simp] theorem State.setCrc_env (s : State) (a v : U32) : (s.setCrc a v).env = s.env := rfl
@[simp] theorem State.setCrc_crcLocalWritten (s : State) (a v : U32) : (s.setCrc a v).crcLocalWritten = true := rfl
@[simp] theorem State.setCrc_crcDeviceWritten (s : State) (a v : U32) : (s.setCrc a v).crcDeviceWritten = s.crcDeviceWritten := rfl
@[simp] theorem State.setCrc_pending (s : State) (a v : U32) : (s.setCrc a v).pending = s.pending := rfl
@[simp] theorem State.setCrc_result (s : State) (a v : U32) : (s.setCrc a v).result = s.result := rfl

@[simp] theorem State.setSession_txbuf (s : State) (x : Session) : (s.setSession x).txbuf = s.txbuf := rfl
@[simp] theorem State.setSession_txlen (s : State) (x : Session) : (s.setSession x).txlen = s.txlen := rfl
@[simp] theorem State.setSession_rxbuf (s : State) (x : Session) : (s.setSession x).rxbuf = s.rxbuf := rfl
@[simp] theorem State.setSession_rxlen (s : State) (x : Session) : (s.setSession x).rxlen = s.rxlen := rfl
@[simp] theorem State.setSession_scanpos (s : State) (x : Session) : (s.setSession x).scanpos = s.scanpos := rfl
@[simp] theorem State.setSession_rlen (s : State) (x : Session) : (s.setSession x).rlen = s.rlen := rfl
@[simp] theorem State.setSession_rcks (s : State) (x : Session) : (s.setSession x).rcks = s.rcks := rfl
@[simp] theorem State.setSession_rpay (s : State) (x : Session) : (s.setSession x).rpay = s.rpay := rfl
@[simp] theorem State.setSession_rpaylen (s : State) (x : Session) : (s.setSession x).rpaylen = s.rpaylen := rfl
@[simp] theorem State.setSession_cksacc (s : State) (x : Session) : (s.setSession x).cksacc = s.cksacc := rfl
@[simp] theorem State.setSession_crcacc (s : State) (x : Session) : (s.setSession x).crcacc = s.crcacc := rfl
@[simp] theorem State.setSession_crcLocal (s : State) (x : Session) : (s.setSession x).crcLocal = s.crcLocal := rfl
@[simp] theorem State.setSession_crcDevice (s : State) (x : Session) : (s.setSession x).crcDevice = s.crcDevice := rfl
@[simp] theorem State.setSession_chipid (s : State) (x : Session) : (s.setSession x).chipid = s.chipid := rfl
@[simp] theorem State.setSession_status (s : State) (x : Session) : (s.setSession x).status = s.status := rfl
@[simp] theorem State.setSession_session (s : State) (x : Session) : (s.setSession x).session = x := rfl
@[simp] theorem State.setSession_ackf (s : State) (x : Session) : (s.setSession x).ackf = s.ackf := rfl
@[simp] theorem State.setSession_nackf (s : State) (x : Session) : (s.setSession x).nackf = s.nackf := rfl
@[simp] theorem State.setSession_crcMatch (s : State) (x : Session) : (s.setSession x).crcMatch = s.crcMatch := rfl
@[simp] theorem State.setSession_fault (s : State) (x : Session) : (s.setSession x).fault = s.fault := rfl
@[simp] theorem State.setSession_err (s : State) (x : Session) : (s.setSession x).err = s.err := rfl
@[simp] theorem State.setSession_cfg (s : State) (x : Session) : (s.setSession x).cfg = s.cfg := rfl
@[simp] theorem State.setSession_resetN (s : State) (x : Session) : (s.setSession x).resetN = s.resetN := rfl
@[simp] theorem State.setSession_blEnN (s : State) (x : Session) : (s.setSession x).blEnN = s.blEnN := rfl
@[simp] theorem State.setSession_now (s : State) (x : Session) : (s.setSession x).now = s.now := rfl
@[simp] theorem State.setSession_trace (s : State) (x : Session) : (s.setSession x).trace = s.trace := rfl
@[simp] theorem State.setSession_env (s : State) (x : Session) : (s.setSession x).env = s.env := rfl
@[simp] theorem State.setSession_crcLocalWritten (s : State) (x : Session) : (s.setSession x).crcLocalWritten = s.crcLocalWritten := rfl
@[simp] theorem State.setSession_crcDeviceWritten (s : State) (x : Session) : (s.setSession x).crcDeviceWritten = s.crcDeviceWritten := rfl
@[simp] theorem State.setSession_pending (s : State) (x : Session) : (s.setSession x).pending = s.pending := rfl
@[simp] theorem State.setSession_result (s : State) (x : Session) : (s.setSession x).result = s.result := rfl

@[simp] theorem State.setResult_txbuf (s : State) (r : Response) : (s.setResult r).txbuf = s.txbuf := rfl
@[simp] theorem State.setResult_txlen (s : State) (r : Response) : (s.setResult r).txlen = s.txlen := rfl
@[simp] theorem State.setResult_rxbuf (s : State) (r : Response) : (s.setResult r).rxbuf = s.rxbuf := rfl
@[simp] theorem State.setResult_rxlen (s : State) (r : Response) : (s.setResult r).rxlen = s.rxlen := rfl
@[simp] theorem State.setResult_scanpos (s : State) (r : Response) : (s.setResult r).scanpos = s.scanpos := rfl
@[simp] theorem State.setResult_rlen (s : State) (r : Response) : (s.setResult r).rlen = s.rlen := rfl
@[simp] theorem State.setResult_rcks (s : State) (r : Response) : (s.setResult r).rcks = s.rcks := rfl
@[simp] theorem State.setResult_rpay (s : State) (r : Response) : (s.setResult r).rpay = s.rpay := rfl
@[simp] theorem State.setResult_rpaylen (s : State) (r : Response) : (s.setResult r).rpaylen = s.rpaylen := rfl
@[simp] theorem State.setResult_cksacc (s : State) (r : Response) : (s.setResult r).cksacc = s.cksacc := rfl
@[simp] theorem State.setResult_crcacc (s : State) (r : Response) : (s.setResult r).crcacc = s.crcacc := rfl
@[simp] theorem State.setResult_crcLocal (s : State) (r : Response) : (s.setResult r).crcLocal = s.crcLocal := rfl
@[simp] theorem State.setResult_crcDevice (s : State) (r : Response) : (s.setResult r).crcDevice = s.crcDevice := rfl
@[simp] theorem State.setResult_chipid (s : State) (r : Response) : (s.setResult r).chipid = s.chipid := rfl
@[simp] theorem State.setResult_status (s : State) (r : Response) : (s.setResult r).status = s.status := rfl
@[simp] theorem State.setResult_session (s : State) (r : Response) : (s.setResult r).session = s.session := rfl
@[simp] theorem State.setResult_ackf (s : State) (r : Response) : (s.setResult r).ackf = s.ackf := rfl
@[simp] theorem State.setResult_nackf (s : State) (r : Response) : (s.setResult r).nackf = s.nackf := rfl
@[simp] theorem State.setResult_crcMatch (s : State) (r : Response) : (s.setResult r).crcMatch = s.crcMatch := rfl
@[simp] theorem State.setResult_fault (s : State) (r : Response) : (s.setResult r).fault = s.fault := rfl
@[simp] theorem State.setResult_err (s : State) (r : Response) : (s.setResult r).err = s.err := rfl
@[simp] theorem State.setResult_cfg (s : State) (r : Response) : (s.setResult r).cfg = s.cfg := rfl
@[simp] theorem State.setResult_resetN (s : State) (r : Response) : (s.setResult r).resetN = s.resetN := rfl
@[simp] theorem State.setResult_blEnN (s : State) (r : Response) : (s.setResult r).blEnN = s.blEnN := rfl
@[simp] theorem State.setResult_now (s : State) (r : Response) : (s.setResult r).now = s.now := rfl
@[simp] theorem State.setResult_trace (s : State) (r : Response) : (s.setResult r).trace = s.trace := rfl
@[simp] theorem State.setResult_env (s : State) (r : Response) : (s.setResult r).env = s.env := rfl
@[simp] theorem State.setResult_crcLocalWritten (s : State) (r : Response) : (s.setResult r).crcLocalWritten = s.crcLocalWritten := rfl
@[simp] theorem State.setResult_crcDeviceWritten (s : State) (r : Response) : (s.setResult r).crcDeviceWritten = s.crcDeviceWritten := rfl
@[simp] theorem State.setResult_pending (s : State) (r : Response) : (s.setResult r).pending = s.pending := rfl
@[simp] theorem State.setResult_result (s : State) (r : Response) : (s.setResult r).result = r := rfl

@[simp] theorem State.setPending_txbuf (s : State) (q : List Request) : (s.setPending q).txbuf = s.txbuf := rfl
@[simp] theorem State.setPending_txlen (s : State) (q : List Request) : (s.setPending q).txlen = s.txlen := rfl
@[simp] theorem State.setPending_rxbuf (s : State) (q : List Request) : (s.setPending q).rxbuf = s.rxbuf := rfl
@[simp] theorem State.setPending_rxlen (s : State) (q : List Request) : (s.setPending q).rxlen = s.rxlen := rfl
@[simp] theorem State.setPending_scanpos (s : State) (q : List Request) : (s.setPending q).scanpos = s.scanpos := rfl
@[simp] theorem State.setPending_rlen (s : State) (q : List Request) : (s.setPending q).rlen = s.rlen := rfl
@[simp] theorem State.setPending_rcks (s : State) (q : List Request) : (s.setPending q).rcks = s.rcks := rfl
@[simp] theorem State.setPending_rpay (s : State) (q : List Request) : (s.setPending q).rpay = s.rpay := rfl
@[simp] theorem State.setPending_rpaylen (s : State) (q : List Request) : (s.setPending q).rpaylen = s.rpaylen := rfl
@[simp] theorem State.setPending_cksacc (s : State) (q : List Request) : (s.setPending q).cksacc = s.cksacc := rfl
@[simp] theorem State.setPending_crcacc (s : State) (q : List Request) : (s.setPending q).crcacc = s.crcacc := rfl
@[simp] theorem State.setPending_crcLocal (s : State) (q : List Request) : (s.setPending q).crcLocal = s.crcLocal := rfl
@[simp] theorem State.setPending_crcDevice (s : State) (q : List Request) : (s.setPending q).crcDevice = s.crcDevice := rfl
@[simp] theorem State.setPending_chipid (s : State) (q : List Request) : (s.setPending q).chipid = s.chipid := rfl
@[simp] theorem State.setPending_status (s : State) (q : List Request) : (s.setPending q).status = s.status := rfl
@[simp] theorem State.setPending_session (s : State) (q : List Request) : (s.setPending q).session = s.session := rfl
@[simp] theorem State.setPending_ackf (s : State) (q : List Request) : (s.setPending q).ackf = s.ackf := rfl
@[simp] theorem State.setPending_nackf (s : State) (q : List Request) : (s.setPending q).nackf = s.nackf := rfl
@[simp] theorem State.setPending_crcMatch (s : State) (q : List Request) : (s.setPending q).crcMatch = s.crcMatch := rfl
@[simp] theorem State.setPending_fault (s : State) (q : List Request) : (s.setPending q).fault = s.fault := rfl
@[simp] theorem State.setPending_err (s : State) (q : List Request) : (s.setPending q).err = s.err := rfl
@[simp] theorem State.setPending_cfg (s : State) (q : List Request) : (s.setPending q).cfg = s.cfg := rfl
@[simp] theorem State.setPending_resetN (s : State) (q : List Request) : (s.setPending q).resetN = s.resetN := rfl
@[simp] theorem State.setPending_blEnN (s : State) (q : List Request) : (s.setPending q).blEnN = s.blEnN := rfl
@[simp] theorem State.setPending_now (s : State) (q : List Request) : (s.setPending q).now = s.now := rfl
@[simp] theorem State.setPending_trace (s : State) (q : List Request) : (s.setPending q).trace = s.trace := rfl
@[simp] theorem State.setPending_env (s : State) (q : List Request) : (s.setPending q).env = s.env := rfl
@[simp] theorem State.setPending_crcLocalWritten (s : State) (q : List Request) : (s.setPending q).crcLocalWritten = s.crcLocalWritten := rfl
@[simp] theorem State.setPending_crcDeviceWritten (s : State) (q : List Request) : (s.setPending q).crcDeviceWritten = s.crcDeviceWritten := rfl
@[simp] theorem State.setPending_pending (s : State) (q : List Request) : (s.setPending q).pending = q := rfl
@[simp] theorem State.setPending_result (s : State) (q : List Request) : (s.setPending q).result = s.result := rfl

@[simp] theorem State.targetSends_txbuf (s : State) (b : List Byte) : (s.targetSends b).txbuf = s.txbuf := rfl
@[simp] theorem State.targetSends_txlen (s : State) (b : List Byte) : (s.targetSends b).txlen = s.txlen := rfl
@[simp] theorem State.targetSends_rxbuf (s : State) (b : List Byte) : (s.targetSends b).rxbuf = s.rxbuf := rfl
@[simp] theorem State.targetSends_rxlen (s : State) (b : List Byte) : (s.targetSends b).rxlen = s.rxlen := rfl
@[simp] theorem State.targetSends_scanpos (s : State) (b : List Byte) : (s.targetSends b).scanpos = s.scanpos := rfl
@[simp] theorem State.targetSends_rlen (s : State) (b : List Byte) : (s.targetSends b).rlen = s.rlen := rfl
@[simp] theorem State.targetSends_rcks (s : State) (b : List Byte) : (s.targetSends b).rcks = s.rcks := rfl
@[simp] theorem State.targetSends_rpay (s : State) (b : List Byte) : (s.targetSends b).rpay = s.rpay := rfl
@[simp] theorem State.targetSends_rpaylen (s : State) (b : List Byte) : (s.targetSends b).rpaylen = s.rpaylen := rfl
@[simp] theorem State.targetSends_cksacc (s : State) (b : List Byte) : (s.targetSends b).cksacc = s.cksacc := rfl
@[simp] theorem State.targetSends_crcacc (s : State) (b : List Byte) : (s.targetSends b).crcacc = s.crcacc := rfl
@[simp] theorem State.targetSends_crcLocal (s : State) (b : List Byte) : (s.targetSends b).crcLocal = s.crcLocal := rfl
@[simp] theorem State.targetSends_crcDevice (s : State) (b : List Byte) : (s.targetSends b).crcDevice = s.crcDevice := rfl
@[simp] theorem State.targetSends_chipid (s : State) (b : List Byte) : (s.targetSends b).chipid = s.chipid := rfl
@[simp] theorem State.targetSends_status (s : State) (b : List Byte) : (s.targetSends b).status = s.status := rfl
@[simp] theorem State.targetSends_session (s : State) (b : List Byte) : (s.targetSends b).session = s.session := rfl
@[simp] theorem State.targetSends_ackf (s : State) (b : List Byte) : (s.targetSends b).ackf = s.ackf := rfl
@[simp] theorem State.targetSends_nackf (s : State) (b : List Byte) : (s.targetSends b).nackf = s.nackf := rfl
@[simp] theorem State.targetSends_crcMatch (s : State) (b : List Byte) : (s.targetSends b).crcMatch = s.crcMatch := rfl
@[simp] theorem State.targetSends_fault (s : State) (b : List Byte) : (s.targetSends b).fault = s.fault := rfl
@[simp] theorem State.targetSends_err (s : State) (b : List Byte) : (s.targetSends b).err = s.err := rfl
@[simp] theorem State.targetSends_cfg (s : State) (b : List Byte) : (s.targetSends b).cfg = s.cfg := rfl
@[simp] theorem State.targetSends_resetN (s : State) (b : List Byte) : (s.targetSends b).resetN = s.resetN := rfl
@[simp] theorem State.targetSends_blEnN (s : State) (b : List Byte) : (s.targetSends b).blEnN = s.blEnN := rfl
@[simp] theorem State.targetSends_now (s : State) (b : List Byte) : (s.targetSends b).now = s.now := rfl
@[simp] theorem State.targetSends_trace (s : State) (b : List Byte) : (s.targetSends b).trace = s.trace := rfl
@[simp] theorem State.targetSends_env (s : State) (b : List Byte) : (s.targetSends b).env = { s.env with miso := s.env.miso.putFirst b } := rfl
@[simp] theorem State.targetSends_crcLocalWritten (s : State) (b : List Byte) : (s.targetSends b).crcLocalWritten = s.crcLocalWritten := rfl
@[simp] theorem State.targetSends_crcDeviceWritten (s : State) (b : List Byte) : (s.targetSends b).crcDeviceWritten = s.crcDeviceWritten := rfl
@[simp] theorem State.targetSends_pending (s : State) (b : List Byte) : (s.targetSends b).pending = s.pending := rfl
@[simp] theorem State.targetSends_result (s : State) (b : List Byte) : (s.targetSends b).result = s.result := rfl

@[simp] theorem State.takeError_txbuf (s : State) (k : ErrorKind) : (s.takeError k).txbuf = s.txbuf := rfl
@[simp] theorem State.takeError_txlen (s : State) (k : ErrorKind) : (s.takeError k).txlen = s.txlen := rfl
@[simp] theorem State.takeError_rxbuf (s : State) (k : ErrorKind) : (s.takeError k).rxbuf = s.rxbuf := rfl
@[simp] theorem State.takeError_rxlen (s : State) (k : ErrorKind) : (s.takeError k).rxlen = s.rxlen := rfl
@[simp] theorem State.takeError_scanpos (s : State) (k : ErrorKind) : (s.takeError k).scanpos = s.scanpos := rfl
@[simp] theorem State.takeError_rlen (s : State) (k : ErrorKind) : (s.takeError k).rlen = s.rlen := rfl
@[simp] theorem State.takeError_rcks (s : State) (k : ErrorKind) : (s.takeError k).rcks = s.rcks := rfl
@[simp] theorem State.takeError_rpay (s : State) (k : ErrorKind) : (s.takeError k).rpay = s.rpay := rfl
@[simp] theorem State.takeError_rpaylen (s : State) (k : ErrorKind) : (s.takeError k).rpaylen = s.rpaylen := rfl
@[simp] theorem State.takeError_cksacc (s : State) (k : ErrorKind) : (s.takeError k).cksacc = s.cksacc := rfl
@[simp] theorem State.takeError_crcacc (s : State) (k : ErrorKind) : (s.takeError k).crcacc = s.crcacc := rfl
@[simp] theorem State.takeError_crcLocal (s : State) (k : ErrorKind) : (s.takeError k).crcLocal = s.crcLocal := rfl
@[simp] theorem State.takeError_crcDevice (s : State) (k : ErrorKind) : (s.takeError k).crcDevice = s.crcDevice := rfl
@[simp] theorem State.takeError_chipid (s : State) (k : ErrorKind) : (s.takeError k).chipid = s.chipid := rfl
@[simp] theorem State.takeError_status (s : State) (k : ErrorKind) : (s.takeError k).status = s.status := rfl
@[simp] theorem State.takeError_session (s : State) (k : ErrorKind) : (s.takeError k).session = .faulted := rfl
@[simp] theorem State.takeError_ackf (s : State) (k : ErrorKind) : (s.takeError k).ackf = s.ackf := rfl
@[simp] theorem State.takeError_nackf (s : State) (k : ErrorKind) : (s.takeError k).nackf = s.nackf := rfl
@[simp] theorem State.takeError_crcMatch (s : State) (k : ErrorKind) : (s.takeError k).crcMatch = s.crcMatch := rfl
@[simp] theorem State.takeError_fault (s : State) (k : ErrorKind) : (s.takeError k).fault = true := rfl
@[simp] theorem State.takeError_err (s : State) (k : ErrorKind) : (s.takeError k).err = if s.err = 0#4 then errorCode k else s.err := rfl
@[simp] theorem State.takeError_cfg (s : State) (k : ErrorKind) : (s.takeError k).cfg = s.cfg := rfl
@[simp] theorem State.takeError_resetN (s : State) (k : ErrorKind) : (s.takeError k).resetN = s.resetN := rfl
@[simp] theorem State.takeError_blEnN (s : State) (k : ErrorKind) : (s.takeError k).blEnN = s.blEnN := rfl
@[simp] theorem State.takeError_now (s : State) (k : ErrorKind) : (s.takeError k).now = s.now := rfl
@[simp] theorem State.takeError_trace (s : State) (k : ErrorKind) : (s.takeError k).trace = s.trace := rfl
@[simp] theorem State.takeError_env (s : State) (k : ErrorKind) : (s.takeError k).env = s.env := rfl
@[simp] theorem State.takeError_crcLocalWritten (s : State) (k : ErrorKind) : (s.takeError k).crcLocalWritten = s.crcLocalWritten := rfl
@[simp] theorem State.takeError_crcDeviceWritten (s : State) (k : ErrorKind) : (s.takeError k).crcDeviceWritten = s.crcDeviceWritten := rfl
@[simp] theorem State.takeError_pending (s : State) (k : ErrorKind) : (s.takeError k).pending = s.pending := rfl
@[simp] theorem State.takeError_result (s : State) (k : ErrorKind) : (s.takeError k).result = s.result := rfl

@[simp] theorem State.clearForEntry_txbuf (s : State) : (s.clearForEntry).txbuf = s.txbuf := rfl
@[simp] theorem State.clearForEntry_txlen (s : State) : (s.clearForEntry).txlen = s.txlen := rfl
@[simp] theorem State.clearForEntry_rxbuf (s : State) : (s.clearForEntry).rxbuf = s.rxbuf := rfl
@[simp] theorem State.clearForEntry_rxlen (s : State) : (s.clearForEntry).rxlen = s.rxlen := rfl
@[simp] theorem State.clearForEntry_scanpos (s : State) : (s.clearForEntry).scanpos = s.scanpos := rfl
@[simp] theorem State.clearForEntry_rlen (s : State) : (s.clearForEntry).rlen = s.rlen := rfl
@[simp] theorem State.clearForEntry_rcks (s : State) : (s.clearForEntry).rcks = s.rcks := rfl
@[simp] theorem State.clearForEntry_rpay (s : State) : (s.clearForEntry).rpay = s.rpay := rfl
@[simp] theorem State.clearForEntry_rpaylen (s : State) : (s.clearForEntry).rpaylen = s.rpaylen := rfl
@[simp] theorem State.clearForEntry_cksacc (s : State) : (s.clearForEntry).cksacc = s.cksacc := rfl
@[simp] theorem State.clearForEntry_crcacc (s : State) : (s.clearForEntry).crcacc = s.crcacc := rfl
@[simp] theorem State.clearForEntry_crcLocal (s : State) : (s.clearForEntry).crcLocal = s.crcLocal := rfl
@[simp] theorem State.clearForEntry_crcDevice (s : State) : (s.clearForEntry).crcDevice = s.crcDevice := rfl
@[simp] theorem State.clearForEntry_chipid (s : State) : (s.clearForEntry).chipid = s.chipid := rfl
@[simp] theorem State.clearForEntry_status (s : State) : (s.clearForEntry).status = .default := rfl
@[simp] theorem State.clearForEntry_session (s : State) : (s.clearForEntry).session = s.session := rfl
@[simp] theorem State.clearForEntry_ackf (s : State) : (s.clearForEntry).ackf = false := rfl
@[simp] theorem State.clearForEntry_nackf (s : State) : (s.clearForEntry).nackf = false := rfl
@[simp] theorem State.clearForEntry_crcMatch (s : State) : (s.clearForEntry).crcMatch = false := rfl
@[simp] theorem State.clearForEntry_fault (s : State) : (s.clearForEntry).fault = false := rfl
@[simp] theorem State.clearForEntry_err (s : State) : (s.clearForEntry).err = 0#4 := rfl
@[simp] theorem State.clearForEntry_cfg (s : State) : (s.clearForEntry).cfg = s.cfg := rfl
@[simp] theorem State.clearForEntry_resetN (s : State) : (s.clearForEntry).resetN = s.resetN := rfl
@[simp] theorem State.clearForEntry_blEnN (s : State) : (s.clearForEntry).blEnN = s.blEnN := rfl
@[simp] theorem State.clearForEntry_now (s : State) : (s.clearForEntry).now = s.now := rfl
@[simp] theorem State.clearForEntry_trace (s : State) : (s.clearForEntry).trace = s.trace := rfl
@[simp] theorem State.clearForEntry_env (s : State) : (s.clearForEntry).env = s.env := rfl
@[simp] theorem State.clearForEntry_crcLocalWritten (s : State) : (s.clearForEntry).crcLocalWritten = s.crcLocalWritten := rfl
@[simp] theorem State.clearForEntry_crcDeviceWritten (s : State) : (s.clearForEntry).crcDeviceWritten = s.crcDeviceWritten := rfl
@[simp] theorem State.clearForEntry_pending (s : State) : (s.clearForEntry).pending = s.pending := rfl
@[simp] theorem State.clearForEntry_result (s : State) : (s.clearForEntry).result = s.result := rfl

@[simp] theorem State.clearScan_txbuf (s : State) : (s.clearScan).txbuf = s.txbuf := rfl
@[simp] theorem State.clearScan_txlen (s : State) : (s.clearScan).txlen = s.txlen := rfl
@[simp] theorem State.clearScan_rxbuf (s : State) : (s.clearScan).rxbuf = s.rxbuf := rfl
@[simp] theorem State.clearScan_rxlen (s : State) : (s.clearScan).rxlen = s.rxlen := rfl
@[simp] theorem State.clearScan_scanpos (s : State) : (s.clearScan).scanpos = s.scanpos := rfl
@[simp] theorem State.clearScan_rlen (s : State) : (s.clearScan).rlen = s.rlen := rfl
@[simp] theorem State.clearScan_rcks (s : State) : (s.clearScan).rcks = s.rcks := rfl
@[simp] theorem State.clearScan_rpay (s : State) : (s.clearScan).rpay = s.rpay := rfl
@[simp] theorem State.clearScan_rpaylen (s : State) : (s.clearScan).rpaylen = s.rpaylen := rfl
@[simp] theorem State.clearScan_cksacc (s : State) : (s.clearScan).cksacc = s.cksacc := rfl
@[simp] theorem State.clearScan_crcacc (s : State) : (s.clearScan).crcacc = s.crcacc := rfl
@[simp] theorem State.clearScan_crcLocal (s : State) : (s.clearScan).crcLocal = s.crcLocal := rfl
@[simp] theorem State.clearScan_crcDevice (s : State) : (s.clearScan).crcDevice = s.crcDevice := rfl
@[simp] theorem State.clearScan_chipid (s : State) : (s.clearScan).chipid = s.chipid := rfl
@[simp] theorem State.clearScan_status (s : State) : (s.clearScan).status = s.status := rfl
@[simp] theorem State.clearScan_session (s : State) : (s.clearScan).session = s.session := rfl
@[simp] theorem State.clearScan_ackf (s : State) : (s.clearScan).ackf = false := rfl
@[simp] theorem State.clearScan_nackf (s : State) : (s.clearScan).nackf = false := rfl
@[simp] theorem State.clearScan_crcMatch (s : State) : (s.clearScan).crcMatch = s.crcMatch := rfl
@[simp] theorem State.clearScan_fault (s : State) : (s.clearScan).fault = s.fault := rfl
@[simp] theorem State.clearScan_err (s : State) : (s.clearScan).err = s.err := rfl
@[simp] theorem State.clearScan_cfg (s : State) : (s.clearScan).cfg = s.cfg := rfl
@[simp] theorem State.clearScan_resetN (s : State) : (s.clearScan).resetN = s.resetN := rfl
@[simp] theorem State.clearScan_blEnN (s : State) : (s.clearScan).blEnN = s.blEnN := rfl
@[simp] theorem State.clearScan_now (s : State) : (s.clearScan).now = s.now := rfl
@[simp] theorem State.clearScan_trace (s : State) : (s.clearScan).trace = s.trace := rfl
@[simp] theorem State.clearScan_env (s : State) : (s.clearScan).env = s.env := rfl
@[simp] theorem State.clearScan_crcLocalWritten (s : State) : (s.clearScan).crcLocalWritten = s.crcLocalWritten := rfl
@[simp] theorem State.clearScan_crcDeviceWritten (s : State) : (s.clearScan).crcDeviceWritten = s.crcDeviceWritten := rfl
@[simp] theorem State.clearScan_pending (s : State) : (s.clearScan).pending = s.pending := rfl
@[simp] theorem State.clearScan_result (s : State) : (s.clearScan).result = s.result := rfl

@[simp] theorem State.flagAck_txbuf (s : State) (i : Nat) : (s.flagAck i).txbuf = s.txbuf := rfl
@[simp] theorem State.flagAck_txlen (s : State) (i : Nat) : (s.flagAck i).txlen = s.txlen := rfl
@[simp] theorem State.flagAck_rxbuf (s : State) (i : Nat) : (s.flagAck i).rxbuf = s.rxbuf := rfl
@[simp] theorem State.flagAck_rxlen (s : State) (i : Nat) : (s.flagAck i).rxlen = s.rxlen := rfl
@[simp] theorem State.flagAck_scanpos (s : State) (i : Nat) : (s.flagAck i).scanpos = BitVec.ofNat 16 i := rfl
@[simp] theorem State.flagAck_rlen (s : State) (i : Nat) : (s.flagAck i).rlen = s.rlen := rfl
@[simp] theorem State.flagAck_rcks (s : State) (i : Nat) : (s.flagAck i).rcks = s.rcks := rfl
@[simp] theorem State.flagAck_rpay (s : State) (i : Nat) : (s.flagAck i).rpay = s.rpay := rfl
@[simp] theorem State.flagAck_rpaylen (s : State) (i : Nat) : (s.flagAck i).rpaylen = s.rpaylen := rfl
@[simp] theorem State.flagAck_cksacc (s : State) (i : Nat) : (s.flagAck i).cksacc = s.cksacc := rfl
@[simp] theorem State.flagAck_crcacc (s : State) (i : Nat) : (s.flagAck i).crcacc = s.crcacc := rfl
@[simp] theorem State.flagAck_crcLocal (s : State) (i : Nat) : (s.flagAck i).crcLocal = s.crcLocal := rfl
@[simp] theorem State.flagAck_crcDevice (s : State) (i : Nat) : (s.flagAck i).crcDevice = s.crcDevice := rfl
@[simp] theorem State.flagAck_chipid (s : State) (i : Nat) : (s.flagAck i).chipid = s.chipid := rfl
@[simp] theorem State.flagAck_status (s : State) (i : Nat) : (s.flagAck i).status = s.status := rfl
@[simp] theorem State.flagAck_session (s : State) (i : Nat) : (s.flagAck i).session = s.session := rfl
@[simp] theorem State.flagAck_ackf (s : State) (i : Nat) : (s.flagAck i).ackf = true := rfl
@[simp] theorem State.flagAck_nackf (s : State) (i : Nat) : (s.flagAck i).nackf = false := rfl
@[simp] theorem State.flagAck_crcMatch (s : State) (i : Nat) : (s.flagAck i).crcMatch = s.crcMatch := rfl
@[simp] theorem State.flagAck_fault (s : State) (i : Nat) : (s.flagAck i).fault = s.fault := rfl
@[simp] theorem State.flagAck_err (s : State) (i : Nat) : (s.flagAck i).err = s.err := rfl
@[simp] theorem State.flagAck_cfg (s : State) (i : Nat) : (s.flagAck i).cfg = s.cfg := rfl
@[simp] theorem State.flagAck_resetN (s : State) (i : Nat) : (s.flagAck i).resetN = s.resetN := rfl
@[simp] theorem State.flagAck_blEnN (s : State) (i : Nat) : (s.flagAck i).blEnN = s.blEnN := rfl
@[simp] theorem State.flagAck_now (s : State) (i : Nat) : (s.flagAck i).now = s.now := rfl
@[simp] theorem State.flagAck_trace (s : State) (i : Nat) : (s.flagAck i).trace = s.trace := rfl
@[simp] theorem State.flagAck_env (s : State) (i : Nat) : (s.flagAck i).env = s.env := rfl
@[simp] theorem State.flagAck_crcLocalWritten (s : State) (i : Nat) : (s.flagAck i).crcLocalWritten = s.crcLocalWritten := rfl
@[simp] theorem State.flagAck_crcDeviceWritten (s : State) (i : Nat) : (s.flagAck i).crcDeviceWritten = s.crcDeviceWritten := rfl
@[simp] theorem State.flagAck_pending (s : State) (i : Nat) : (s.flagAck i).pending = s.pending := rfl
@[simp] theorem State.flagAck_result (s : State) (i : Nat) : (s.flagAck i).result = s.result := rfl

@[simp] theorem State.flagNack_txbuf (s : State) (i : Nat) : (s.flagNack i).txbuf = s.txbuf := rfl
@[simp] theorem State.flagNack_txlen (s : State) (i : Nat) : (s.flagNack i).txlen = s.txlen := rfl
@[simp] theorem State.flagNack_rxbuf (s : State) (i : Nat) : (s.flagNack i).rxbuf = s.rxbuf := rfl
@[simp] theorem State.flagNack_rxlen (s : State) (i : Nat) : (s.flagNack i).rxlen = s.rxlen := rfl
@[simp] theorem State.flagNack_scanpos (s : State) (i : Nat) : (s.flagNack i).scanpos = BitVec.ofNat 16 i := rfl
@[simp] theorem State.flagNack_rlen (s : State) (i : Nat) : (s.flagNack i).rlen = s.rlen := rfl
@[simp] theorem State.flagNack_rcks (s : State) (i : Nat) : (s.flagNack i).rcks = s.rcks := rfl
@[simp] theorem State.flagNack_rpay (s : State) (i : Nat) : (s.flagNack i).rpay = s.rpay := rfl
@[simp] theorem State.flagNack_rpaylen (s : State) (i : Nat) : (s.flagNack i).rpaylen = s.rpaylen := rfl
@[simp] theorem State.flagNack_cksacc (s : State) (i : Nat) : (s.flagNack i).cksacc = s.cksacc := rfl
@[simp] theorem State.flagNack_crcacc (s : State) (i : Nat) : (s.flagNack i).crcacc = s.crcacc := rfl
@[simp] theorem State.flagNack_crcLocal (s : State) (i : Nat) : (s.flagNack i).crcLocal = s.crcLocal := rfl
@[simp] theorem State.flagNack_crcDevice (s : State) (i : Nat) : (s.flagNack i).crcDevice = s.crcDevice := rfl
@[simp] theorem State.flagNack_chipid (s : State) (i : Nat) : (s.flagNack i).chipid = s.chipid := rfl
@[simp] theorem State.flagNack_status (s : State) (i : Nat) : (s.flagNack i).status = s.status := rfl
@[simp] theorem State.flagNack_session (s : State) (i : Nat) : (s.flagNack i).session = s.session := rfl
@[simp] theorem State.flagNack_ackf (s : State) (i : Nat) : (s.flagNack i).ackf = false := rfl
@[simp] theorem State.flagNack_nackf (s : State) (i : Nat) : (s.flagNack i).nackf = true := rfl
@[simp] theorem State.flagNack_crcMatch (s : State) (i : Nat) : (s.flagNack i).crcMatch = s.crcMatch := rfl
@[simp] theorem State.flagNack_fault (s : State) (i : Nat) : (s.flagNack i).fault = s.fault := rfl
@[simp] theorem State.flagNack_err (s : State) (i : Nat) : (s.flagNack i).err = s.err := rfl
@[simp] theorem State.flagNack_cfg (s : State) (i : Nat) : (s.flagNack i).cfg = s.cfg := rfl
@[simp] theorem State.flagNack_resetN (s : State) (i : Nat) : (s.flagNack i).resetN = s.resetN := rfl
@[simp] theorem State.flagNack_blEnN (s : State) (i : Nat) : (s.flagNack i).blEnN = s.blEnN := rfl
@[simp] theorem State.flagNack_now (s : State) (i : Nat) : (s.flagNack i).now = s.now := rfl
@[simp] theorem State.flagNack_trace (s : State) (i : Nat) : (s.flagNack i).trace = s.trace := rfl
@[simp] theorem State.flagNack_env (s : State) (i : Nat) : (s.flagNack i).env = s.env := rfl
@[simp] theorem State.flagNack_crcLocalWritten (s : State) (i : Nat) : (s.flagNack i).crcLocalWritten = s.crcLocalWritten := rfl
@[simp] theorem State.flagNack_crcDeviceWritten (s : State) (i : Nat) : (s.flagNack i).crcDeviceWritten = s.crcDeviceWritten := rfl
@[simp] theorem State.flagNack_pending (s : State) (i : Nat) : (s.flagNack i).pending = s.pending := rfl
@[simp] theorem State.flagNack_result (s : State) (i : Nat) : (s.flagNack i).result = s.result := rfl

@[simp] theorem State.flagMatch_txbuf (s : State) : (s.flagMatch).txbuf = s.txbuf := rfl
@[simp] theorem State.flagMatch_txlen (s : State) : (s.flagMatch).txlen = s.txlen := rfl
@[simp] theorem State.flagMatch_rxbuf (s : State) : (s.flagMatch).rxbuf = s.rxbuf := rfl
@[simp] theorem State.flagMatch_rxlen (s : State) : (s.flagMatch).rxlen = s.rxlen := rfl
@[simp] theorem State.flagMatch_scanpos (s : State) : (s.flagMatch).scanpos = s.scanpos := rfl
@[simp] theorem State.flagMatch_rlen (s : State) : (s.flagMatch).rlen = s.rlen := rfl
@[simp] theorem State.flagMatch_rcks (s : State) : (s.flagMatch).rcks = s.rcks := rfl
@[simp] theorem State.flagMatch_rpay (s : State) : (s.flagMatch).rpay = s.rpay := rfl
@[simp] theorem State.flagMatch_rpaylen (s : State) : (s.flagMatch).rpaylen = s.rpaylen := rfl
@[simp] theorem State.flagMatch_cksacc (s : State) : (s.flagMatch).cksacc = s.cksacc := rfl
@[simp] theorem State.flagMatch_crcacc (s : State) : (s.flagMatch).crcacc = s.crcacc := rfl
@[simp] theorem State.flagMatch_crcLocal (s : State) : (s.flagMatch).crcLocal = s.crcLocal := rfl
@[simp] theorem State.flagMatch_crcDevice (s : State) : (s.flagMatch).crcDevice = s.crcDevice := rfl
@[simp] theorem State.flagMatch_chipid (s : State) : (s.flagMatch).chipid = s.chipid := rfl
@[simp] theorem State.flagMatch_status (s : State) : (s.flagMatch).status = s.status := rfl
@[simp] theorem State.flagMatch_session (s : State) : (s.flagMatch).session = s.session := rfl
@[simp] theorem State.flagMatch_ackf (s : State) : (s.flagMatch).ackf = s.ackf := rfl
@[simp] theorem State.flagMatch_nackf (s : State) : (s.flagMatch).nackf = s.nackf := rfl
@[simp] theorem State.flagMatch_crcMatch (s : State) : (s.flagMatch).crcMatch = decide (s.crcLocal = s.crcDevice) := rfl
@[simp] theorem State.flagMatch_fault (s : State) : (s.flagMatch).fault = s.fault := rfl
@[simp] theorem State.flagMatch_err (s : State) : (s.flagMatch).err = s.err := rfl
@[simp] theorem State.flagMatch_cfg (s : State) : (s.flagMatch).cfg = s.cfg := rfl
@[simp] theorem State.flagMatch_resetN (s : State) : (s.flagMatch).resetN = s.resetN := rfl
@[simp] theorem State.flagMatch_blEnN (s : State) : (s.flagMatch).blEnN = s.blEnN := rfl
@[simp] theorem State.flagMatch_now (s : State) : (s.flagMatch).now = s.now := rfl
@[simp] theorem State.flagMatch_trace (s : State) : (s.flagMatch).trace = s.trace := rfl
@[simp] theorem State.flagMatch_env (s : State) : (s.flagMatch).env = s.env := rfl
@[simp] theorem State.flagMatch_crcLocalWritten (s : State) : (s.flagMatch).crcLocalWritten = s.crcLocalWritten := rfl
@[simp] theorem State.flagMatch_crcDeviceWritten (s : State) : (s.flagMatch).crcDeviceWritten = s.crcDeviceWritten := rfl
@[simp] theorem State.flagMatch_pending (s : State) : (s.flagMatch).pending = s.pending := rfl
@[simp] theorem State.flagMatch_result (s : State) : (s.flagMatch).result = s.result := rfl

@[simp] theorem State.afterXfer_txbuf (s : State) (tx : List Byte) : (s.afterXfer tx).txbuf = s.txbuf := rfl
@[simp] theorem State.afterXfer_txlen (s : State) (tx : List Byte) : (s.afterXfer tx).txlen = s.txlen := rfl
@[simp] theorem State.afterXfer_rxbuf (s : State) (tx : List Byte) : (s.afterXfer tx).rxbuf = s.rxbuf := rfl
@[simp] theorem State.afterXfer_rxlen (s : State) (tx : List Byte) : (s.afterXfer tx).rxlen = s.rxlen := rfl
@[simp] theorem State.afterXfer_scanpos (s : State) (tx : List Byte) : (s.afterXfer tx).scanpos = s.scanpos := rfl
@[simp] theorem State.afterXfer_rlen (s : State) (tx : List Byte) : (s.afterXfer tx).rlen = s.rlen := rfl
@[simp] theorem State.afterXfer_rcks (s : State) (tx : List Byte) : (s.afterXfer tx).rcks = s.rcks := rfl
@[simp] theorem State.afterXfer_rpay (s : State) (tx : List Byte) : (s.afterXfer tx).rpay = s.rpay := rfl
@[simp] theorem State.afterXfer_rpaylen (s : State) (tx : List Byte) : (s.afterXfer tx).rpaylen = s.rpaylen := rfl
@[simp] theorem State.afterXfer_cksacc (s : State) (tx : List Byte) : (s.afterXfer tx).cksacc = s.cksacc := rfl
@[simp] theorem State.afterXfer_crcacc (s : State) (tx : List Byte) : (s.afterXfer tx).crcacc = s.crcacc := rfl
@[simp] theorem State.afterXfer_crcLocal (s : State) (tx : List Byte) : (s.afterXfer tx).crcLocal = s.crcLocal := rfl
@[simp] theorem State.afterXfer_crcDevice (s : State) (tx : List Byte) : (s.afterXfer tx).crcDevice = s.crcDevice := rfl
@[simp] theorem State.afterXfer_chipid (s : State) (tx : List Byte) : (s.afterXfer tx).chipid = s.chipid := rfl
@[simp] theorem State.afterXfer_status (s : State) (tx : List Byte) : (s.afterXfer tx).status = s.status := rfl
@[simp] theorem State.afterXfer_session (s : State) (tx : List Byte) : (s.afterXfer tx).session = s.session := rfl
@[simp] theorem State.afterXfer_ackf (s : State) (tx : List Byte) : (s.afterXfer tx).ackf = s.ackf := rfl
@[simp] theorem State.afterXfer_nackf (s : State) (tx : List Byte) : (s.afterXfer tx).nackf = s.nackf := rfl
@[simp] theorem State.afterXfer_crcMatch (s : State) (tx : List Byte) : (s.afterXfer tx).crcMatch = s.crcMatch := rfl
@[simp] theorem State.afterXfer_fault (s : State) (tx : List Byte) : (s.afterXfer tx).fault = s.fault := rfl
@[simp] theorem State.afterXfer_err (s : State) (tx : List Byte) : (s.afterXfer tx).err = s.err := rfl
@[simp] theorem State.afterXfer_cfg (s : State) (tx : List Byte) : (s.afterXfer tx).cfg = s.cfg := rfl
@[simp] theorem State.afterXfer_resetN (s : State) (tx : List Byte) : (s.afterXfer tx).resetN = s.resetN := rfl
@[simp] theorem State.afterXfer_blEnN (s : State) (tx : List Byte) : (s.afterXfer tx).blEnN = s.blEnN := rfl
@[simp] theorem State.afterXfer_now (s : State) (tx : List Byte) : (s.afterXfer tx).now = endTime s.now (exchangeMinNs s.cfg tx.length) (s.clockAhead 0) := rfl
@[simp] theorem State.afterXfer_trace (s : State) (tx : List Byte) : (s.afterXfer tx).trace = s.trace ++ [.xfer tx (s.capture tx.length) s.now (endTime s.now (exchangeMinNs s.cfg tx.length) (s.clockAhead 0))] := rfl
@[simp] theorem State.afterXfer_env (s : State) (tx : List Byte) : (s.afterXfer tx).env = { s.env with miso := s.env.miso.advance tx.length, clock := s.env.clock.advance 1 } := rfl
@[simp] theorem State.afterXfer_crcLocalWritten (s : State) (tx : List Byte) : (s.afterXfer tx).crcLocalWritten = s.crcLocalWritten := rfl
@[simp] theorem State.afterXfer_crcDeviceWritten (s : State) (tx : List Byte) : (s.afterXfer tx).crcDeviceWritten = s.crcDeviceWritten := rfl
@[simp] theorem State.afterXfer_pending (s : State) (tx : List Byte) : (s.afterXfer tx).pending = s.pending := rfl
@[simp] theorem State.afterXfer_result (s : State) (tx : List Byte) : (s.afterXfer tx).result = s.result := rfl

@[simp] theorem State.driveLine_txbuf (s : State) (p : Pin) (l : Bool) : (s.driveLine p l).txbuf = s.txbuf := rfl
@[simp] theorem State.driveLine_txlen (s : State) (p : Pin) (l : Bool) : (s.driveLine p l).txlen = s.txlen := rfl
@[simp] theorem State.driveLine_rxbuf (s : State) (p : Pin) (l : Bool) : (s.driveLine p l).rxbuf = s.rxbuf := rfl
@[simp] theorem State.driveLine_rxlen (s : State) (p : Pin) (l : Bool) : (s.driveLine p l).rxlen = s.rxlen := rfl
@[simp] theorem State.driveLine_scanpos (s : State) (p : Pin) (l : Bool) : (s.driveLine p l).scanpos = s.scanpos := rfl
@[simp] theorem State.driveLine_rlen (s : State) (p : Pin) (l : Bool) : (s.driveLine p l).rlen = s.rlen := rfl
@[simp] theorem State.driveLine_rcks (s : State) (p : Pin) (l : Bool) : (s.driveLine p l).rcks = s.rcks := rfl
@[simp] theorem State.driveLine_rpay (s : State) (p : Pin) (l : Bool) : (s.driveLine p l).rpay = s.rpay := rfl
@[simp] theorem State.driveLine_rpaylen (s : State) (p : Pin) (l : Bool) : (s.driveLine p l).rpaylen = s.rpaylen := rfl
@[simp] theorem State.driveLine_cksacc (s : State) (p : Pin) (l : Bool) : (s.driveLine p l).cksacc = s.cksacc := rfl
@[simp] theorem State.driveLine_crcacc (s : State) (p : Pin) (l : Bool) : (s.driveLine p l).crcacc = s.crcacc := rfl
@[simp] theorem State.driveLine_crcLocal (s : State) (p : Pin) (l : Bool) : (s.driveLine p l).crcLocal = s.crcLocal := rfl
@[simp] theorem State.driveLine_crcDevice (s : State) (p : Pin) (l : Bool) : (s.driveLine p l).crcDevice = s.crcDevice := rfl
@[simp] theorem State.driveLine_chipid (s : State) (p : Pin) (l : Bool) : (s.driveLine p l).chipid = s.chipid := rfl
@[simp] theorem State.driveLine_status (s : State) (p : Pin) (l : Bool) : (s.driveLine p l).status = s.status := rfl
@[simp] theorem State.driveLine_session (s : State) (p : Pin) (l : Bool) : (s.driveLine p l).session = s.session := rfl
@[simp] theorem State.driveLine_ackf (s : State) (p : Pin) (l : Bool) : (s.driveLine p l).ackf = s.ackf := rfl
@[simp] theorem State.driveLine_nackf (s : State) (p : Pin) (l : Bool) : (s.driveLine p l).nackf = s.nackf := rfl
@[simp] theorem State.driveLine_crcMatch (s : State) (p : Pin) (l : Bool) : (s.driveLine p l).crcMatch = s.crcMatch := rfl
@[simp] theorem State.driveLine_fault (s : State) (p : Pin) (l : Bool) : (s.driveLine p l).fault = s.fault := rfl
@[simp] theorem State.driveLine_err (s : State) (p : Pin) (l : Bool) : (s.driveLine p l).err = s.err := rfl
@[simp] theorem State.driveLine_cfg (s : State) (p : Pin) (l : Bool) : (s.driveLine p l).cfg = s.cfg := rfl
@[simp] theorem State.driveLine_resetN (s : State) (p : Pin) (l : Bool) : (s.driveLine p l).resetN = if p = .resetN then l else s.resetN := rfl
@[simp] theorem State.driveLine_blEnN (s : State) (p : Pin) (l : Bool) : (s.driveLine p l).blEnN = if p = .blEnN then l else s.blEnN := rfl
@[simp] theorem State.driveLine_now (s : State) (p : Pin) (l : Bool) : (s.driveLine p l).now = s.now := rfl
@[simp] theorem State.driveLine_trace (s : State) (p : Pin) (l : Bool) : (s.driveLine p l).trace = s.trace ++ [.line p l s.now] := rfl
@[simp] theorem State.driveLine_env (s : State) (p : Pin) (l : Bool) : (s.driveLine p l).env = s.env := rfl
@[simp] theorem State.driveLine_crcLocalWritten (s : State) (p : Pin) (l : Bool) : (s.driveLine p l).crcLocalWritten = s.crcLocalWritten := rfl
@[simp] theorem State.driveLine_crcDeviceWritten (s : State) (p : Pin) (l : Bool) : (s.driveLine p l).crcDeviceWritten = s.crcDeviceWritten := rfl
@[simp] theorem State.driveLine_pending (s : State) (p : Pin) (l : Bool) : (s.driveLine p l).pending = s.pending := rfl
@[simp] theorem State.driveLine_result (s : State) (p : Pin) (l : Bool) : (s.driveLine p l).result = s.result := rfl

@[simp] theorem State.afterWait_txbuf (s : State) (d : U64) : (waitAtLeast d s).txbuf = s.txbuf := rfl
@[simp] theorem State.afterWait_txlen (s : State) (d : U64) : (waitAtLeast d s).txlen = s.txlen := rfl
@[simp] theorem State.afterWait_rxbuf (s : State) (d : U64) : (waitAtLeast d s).rxbuf = s.rxbuf := rfl
@[simp] theorem State.afterWait_rxlen (s : State) (d : U64) : (waitAtLeast d s).rxlen = s.rxlen := rfl
@[simp] theorem State.afterWait_scanpos (s : State) (d : U64) : (waitAtLeast d s).scanpos = s.scanpos := rfl
@[simp] theorem State.afterWait_rlen (s : State) (d : U64) : (waitAtLeast d s).rlen = s.rlen := rfl
@[simp] theorem State.afterWait_rcks (s : State) (d : U64) : (waitAtLeast d s).rcks = s.rcks := rfl
@[simp] theorem State.afterWait_rpay (s : State) (d : U64) : (waitAtLeast d s).rpay = s.rpay := rfl
@[simp] theorem State.afterWait_rpaylen (s : State) (d : U64) : (waitAtLeast d s).rpaylen = s.rpaylen := rfl
@[simp] theorem State.afterWait_cksacc (s : State) (d : U64) : (waitAtLeast d s).cksacc = s.cksacc := rfl
@[simp] theorem State.afterWait_crcacc (s : State) (d : U64) : (waitAtLeast d s).crcacc = s.crcacc := rfl
@[simp] theorem State.afterWait_crcLocal (s : State) (d : U64) : (waitAtLeast d s).crcLocal = s.crcLocal := rfl
@[simp] theorem State.afterWait_crcDevice (s : State) (d : U64) : (waitAtLeast d s).crcDevice = s.crcDevice := rfl
@[simp] theorem State.afterWait_chipid (s : State) (d : U64) : (waitAtLeast d s).chipid = s.chipid := rfl
@[simp] theorem State.afterWait_status (s : State) (d : U64) : (waitAtLeast d s).status = s.status := rfl
@[simp] theorem State.afterWait_session (s : State) (d : U64) : (waitAtLeast d s).session = s.session := rfl
@[simp] theorem State.afterWait_ackf (s : State) (d : U64) : (waitAtLeast d s).ackf = s.ackf := rfl
@[simp] theorem State.afterWait_nackf (s : State) (d : U64) : (waitAtLeast d s).nackf = s.nackf := rfl
@[simp] theorem State.afterWait_crcMatch (s : State) (d : U64) : (waitAtLeast d s).crcMatch = s.crcMatch := rfl
@[simp] theorem State.afterWait_fault (s : State) (d : U64) : (waitAtLeast d s).fault = s.fault := rfl
@[simp] theorem State.afterWait_err (s : State) (d : U64) : (waitAtLeast d s).err = s.err := rfl
@[simp] theorem State.afterWait_cfg (s : State) (d : U64) : (waitAtLeast d s).cfg = s.cfg := rfl
@[simp] theorem State.afterWait_resetN (s : State) (d : U64) : (waitAtLeast d s).resetN = s.resetN := rfl
@[simp] theorem State.afterWait_blEnN (s : State) (d : U64) : (waitAtLeast d s).blEnN = s.blEnN := rfl
@[simp] theorem State.afterWait_now (s : State) (d : U64) : (waitAtLeast d s).now = endTime s.now d.toNat (s.clockAhead 0) := rfl
@[simp] theorem State.afterWait_trace (s : State) (d : U64) : (waitAtLeast d s).trace = s.trace ++ [.sleep d s.now (endTime s.now d.toNat (s.clockAhead 0))] := rfl
@[simp] theorem State.afterWait_env (s : State) (d : U64) : (waitAtLeast d s).env = { s.env with clock := s.env.clock.advance 1 } := rfl
@[simp] theorem State.afterWait_crcLocalWritten (s : State) (d : U64) : (waitAtLeast d s).crcLocalWritten = s.crcLocalWritten := rfl
@[simp] theorem State.afterWait_crcDeviceWritten (s : State) (d : U64) : (waitAtLeast d s).crcDeviceWritten = s.crcDeviceWritten := rfl
@[simp] theorem State.afterWait_pending (s : State) (d : U64) : (waitAtLeast d s).pending = s.pending := rfl
@[simp] theorem State.afterWait_result (s : State) (d : U64) : (waitAtLeast d s).result = s.result := rfl

@[simp] theorem State.afterIoDraw_txbuf (s : State) : s.afterIoDraw.txbuf = s.txbuf := by unfold State.afterIoDraw; split <;> rfl
@[simp] theorem State.afterIoDraw_txlen (s : State) : s.afterIoDraw.txlen = s.txlen := by unfold State.afterIoDraw; split <;> rfl
@[simp] theorem State.afterIoDraw_rxbuf (s : State) : s.afterIoDraw.rxbuf = s.rxbuf := by unfold State.afterIoDraw; split <;> rfl
@[simp] theorem State.afterIoDraw_rxlen (s : State) : s.afterIoDraw.rxlen = s.rxlen := by unfold State.afterIoDraw; split <;> rfl
@[simp] theorem State.afterIoDraw_scanpos (s : State) : s.afterIoDraw.scanpos = s.scanpos := by unfold State.afterIoDraw; split <;> rfl
@[simp] theorem State.afterIoDraw_rlen (s : State) : s.afterIoDraw.rlen = s.rlen := by unfold State.afterIoDraw; split <;> rfl
@[simp] theorem State.afterIoDraw_rcks (s : State) : s.afterIoDraw.rcks = s.rcks := by unfold State.afterIoDraw; split <;> rfl
@[simp] theorem State.afterIoDraw_rpay (s : State) : s.afterIoDraw.rpay = s.rpay := by unfold State.afterIoDraw; split <;> rfl
@[simp] theorem State.afterIoDraw_rpaylen (s : State) : s.afterIoDraw.rpaylen = s.rpaylen := by unfold State.afterIoDraw; split <;> rfl
@[simp] theorem State.afterIoDraw_cksacc (s : State) : s.afterIoDraw.cksacc = s.cksacc := by unfold State.afterIoDraw; split <;> rfl
@[simp] theorem State.afterIoDraw_crcacc (s : State) : s.afterIoDraw.crcacc = s.crcacc := by unfold State.afterIoDraw; split <;> rfl
@[simp] theorem State.afterIoDraw_crcLocal (s : State) : s.afterIoDraw.crcLocal = s.crcLocal := by unfold State.afterIoDraw; split <;> rfl
@[simp] theorem State.afterIoDraw_crcDevice (s : State) : s.afterIoDraw.crcDevice = s.crcDevice := by unfold State.afterIoDraw; split <;> rfl
@[simp] theorem State.afterIoDraw_chipid (s : State) : s.afterIoDraw.chipid = s.chipid := by unfold State.afterIoDraw; split <;> rfl
@[simp] theorem State.afterIoDraw_status (s : State) : s.afterIoDraw.status = s.status := by unfold State.afterIoDraw; split <;> rfl
@[simp] theorem State.afterIoDraw_session (s : State) : s.afterIoDraw.session = s.session := by unfold State.afterIoDraw; split <;> rfl
@[simp] theorem State.afterIoDraw_ackf (s : State) : s.afterIoDraw.ackf = s.ackf := by unfold State.afterIoDraw; split <;> rfl
@[simp] theorem State.afterIoDraw_nackf (s : State) : s.afterIoDraw.nackf = s.nackf := by unfold State.afterIoDraw; split <;> rfl
@[simp] theorem State.afterIoDraw_crcMatch (s : State) : s.afterIoDraw.crcMatch = s.crcMatch := by unfold State.afterIoDraw; split <;> rfl
@[simp] theorem State.afterIoDraw_fault (s : State) : s.afterIoDraw.fault = s.fault := by unfold State.afterIoDraw; split <;> rfl
@[simp] theorem State.afterIoDraw_err (s : State) : s.afterIoDraw.err = s.err := by unfold State.afterIoDraw; split <;> rfl
@[simp] theorem State.afterIoDraw_cfg (s : State) : s.afterIoDraw.cfg = s.cfg := by unfold State.afterIoDraw; split <;> rfl
@[simp] theorem State.afterIoDraw_resetN (s : State) : s.afterIoDraw.resetN = s.resetN := by unfold State.afterIoDraw; split <;> rfl
@[simp] theorem State.afterIoDraw_blEnN (s : State) : s.afterIoDraw.blEnN = s.blEnN := by unfold State.afterIoDraw; split <;> rfl
@[simp] theorem State.afterIoDraw_now (s : State) : s.afterIoDraw.now = s.now := by unfold State.afterIoDraw; split <;> rfl
@[simp] theorem State.afterIoDraw_trace (s : State) : s.afterIoDraw.trace = s.trace := by unfold State.afterIoDraw; split <;> rfl
@[simp] theorem State.afterIoDraw_crcLocalWritten (s : State) : s.afterIoDraw.crcLocalWritten = s.crcLocalWritten := by unfold State.afterIoDraw; split <;> rfl
@[simp] theorem State.afterIoDraw_crcDeviceWritten (s : State) : s.afterIoDraw.crcDeviceWritten = s.crcDeviceWritten := by unfold State.afterIoDraw; split <;> rfl
@[simp] theorem State.afterIoDraw_pending (s : State) : s.afterIoDraw.pending = s.pending := by unfold State.afterIoDraw; split <;> rfl
@[simp] theorem State.afterIoDraw_result (s : State) : s.afterIoDraw.result = s.result := by unfold State.afterIoDraw; split <;> rfl

end Sys2Proof.Machine
end

