-- ==== Sys2Proof/Laws/Draws.lean ====
section
/-! SUPPORT. The sources of draws: looking ahead after a use, and what one primitive consumes. -/

namespace Sys2Proof.Machine

open Sys2Proof

/-- Looking ahead after `n` draws is looking `n` further ahead before them. -/
theorem Tape.ahead_advance {α : Type} (free : Nat → α) (t : Tape α) (n k : Nat) :
    (t.advance n).ahead free k = t.ahead free (n + k) := by
  unfold Tape.advance Tape.ahead
  simp only [List.getElem?_drop, List.length_drop]
  rcases h : t.given[n + k]? with _ | v
  · rw [List.getElem?_eq_none_iff] at h
    simp only
    congr 1
    omega
  · rfl

theorem Tape.advance_zero {α : Type} (t : Tape α) : t.advance 0 = t := by simp [Tape.advance]

theorem Tape.advance_advance {α : Type} (t : Tape α) (m n : Nat) : (t.advance m).advance n = t.advance (m + n) := by
  simp only [Tape.advance, List.drop_drop, List.length_drop, Tape.mk.injEq, true_and]
  omega

/-- Values put first are the next ones drawn. -/
theorem Tape.ahead_putFirst {α : Type} (free : Nat → α) (t : Tape α) (vs : List α) {k : Nat} (h : k < vs.length) :
    (t.putFirst vs).ahead free k = vs[k] := by
  have e : (vs ++ t.given)[k]? = some vs[k] := by rw [List.getElem?_append_left h, List.getElem?_eq_getElem h]
  simp only [Tape.ahead, Tape.putFirst, e]

/-- Drawing exactly what was put first leaves the source as it was. -/
theorem Tape.advance_putFirst {α : Type} (t : Tape α) (vs : List α) : (t.putFirst vs).advance vs.length = t := by
  simp [Tape.advance, Tape.putFirst]

@[simp] theorem State.capture_length (s : State) (n : Nat) : (s.capture n).length = n := by simp [State.capture]

theorem State.getElem_capture (s : State) {n k : Nat} (h : k < (s.capture n).length) :
    (s.capture n)[k] = s.misoAhead k := by
  simp [State.capture]

@[simp] theorem State.misoAhead_afterIoDraw (s : State) (k : Nat) : s.afterIoDraw.misoAhead k = s.misoAhead k := by
  unfold State.afterIoDraw; split <;> rfl

@[simp] theorem State.capture_afterIoDraw (s : State) (n : Nat) : s.afterIoDraw.capture n = s.capture n := by
  unfold State.capture
  exact List.map_congr_left fun k _ => State.misoAhead_afterIoDraw s k

@[simp] theorem State.clockAhead_afterIoDraw (s : State) (k : Nat) :
    s.afterIoDraw.clockAhead k = s.clockAhead k := by
  unfold State.afterIoDraw; split <;> rfl

/-- After one I/O draw the next one is the following value. -/
theorem State.ioFails_afterIoDraw (s : State) (k : Nat) : s.afterIoDraw.ioFails k = s.ioFails (k + 1) := by
  unfold State.afterIoDraw State.ioFails
  split
  · next h => simp only [h, Bool.true_and]; rw [Tape.ahead_advance, Nat.add_comm]
  · next h => simp [h]

theorem State.envAfter_zero (s : State) : s.envAfter 0 0 0 = s.env := by
  simp [State.envAfter, Tape.advance_zero]

theorem State.afterIoDraw_env (s : State) : s.afterIoDraw.env = s.envAfter 1 0 0 := by
  unfold State.afterIoDraw State.envAfter
  split <;> simp [Tape.advance_zero]

/-- What two runs consume adds up. -/
theorem State.envAfter_envAfter {s t : State} {a b c : Nat} (hc : t.cfg = s.cfg) (he : t.env = s.envAfter a b c)
    (a' b' c' : Nat) : t.envAfter a' b' c' = s.envAfter (a + a') (b + b') (c + c') := by
  unfold State.envAfter at *
  rw [he, hc]
  simp only [Tape.advance_advance, Environment.mk.injEq, true_and, and_true]
  split
  · exact Tape.advance_advance _ _ _
  · rfl

theorem State.misoAhead_of_env {s t : State} {a b c : Nat} (he : t.env = s.envAfter a b c) (k : Nat) :
    t.misoAhead k = s.misoAhead (b + k) := by
  unfold State.misoAhead; rw [he, State.envAfter]; exact Tape.ahead_advance _ _ _ _

theorem State.ioFails_of_env {s t : State} {a b c : Nat} (hc : t.cfg = s.cfg) (he : t.env = s.envAfter a b c) (k : Nat) :
    t.ioFails k = s.ioFails (a + k) := by
  unfold State.ioFails
  rw [he, hc, State.envAfter]
  cases h : s.cfg.ioMayFail
  · rfl
  · simp only [Bool.true_and, if_true]; exact Tape.ahead_advance _ _ _ _

theorem State.clockAhead_of_env {s t : State} {a b c : Nat} (he : t.env = s.envAfter a b c) (k : Nat) :
    t.clockAhead k = s.clockAhead (c + k) := by
  unfold State.clockAhead; rw [he, State.envAfter]; exact Tape.ahead_advance _ _ _ _

/-- All that is known of the time at the end of a timed primitive. -/
theorem endTime_elapsed (t0 : U64) (least : Nat) (drawn : U64) : Elapsed t0 least (endTime t0 least drawn) := by
  have h0 := t0.isLt
  unfold Elapsed endTime
  simp only [BitVec.le_def]
  split
  · next h =>
    have e : (t0 + BitVec.ofNat 64 least).toNat = t0.toNat + least := by
      rw [BitVec.toNat_add, BitVec.toNat_ofNat]; omega
    split
    · omega
    · exact ⟨by omega, fun _ => by omega⟩
  · next h =>
    split
    · exact ⟨by assumption, fun h' => absurd h' (by omega)⟩
    · exact ⟨le_refl _, fun h' => absurd h' (by omega)⟩

/-- Time does not go back. -/
theorem le_endTime (t0 : U64) (least : Nat) (drawn : U64) : t0 ≤ endTime t0 least drawn :=
  (endTime_elapsed t0 least drawn).1

end Sys2Proof.Machine
end

