-- ==== Sys2Proof/Laws/Memory.lean ====
section
/-! SUPPORT. The buffers: what a write does to every byte, and that every operation keeps the canonical form. -/

namespace Sys2Proof.Machine

open Sys2Proof

theorem Memory.read_append_of_left {m₁ m₂ : Memory} {a : Nat} (h : ∀ c ∈ m₂, c.1 ≠ a) :
    Memory.read (m₁ ++ m₂) a = Memory.read m₁ a := by
  induction m₁ with
  | nil =>
    induction m₂ with
    | nil => rfl
    | cons c rest ih =>
      have hc : c.1 ≠ a := h c (by simp)
      simpa [Memory.read, hc] using ih fun d hd => h d (by simp [hd])
  | cons c rest ih =>
    simp only [List.cons_append, Memory.read]
    split <;> simp_all

theorem Memory.read_append_of_right {m₁ m₂ : Memory} {a : Nat} (h : ∀ c ∈ m₁, c.1 ≠ a) :
    Memory.read (m₁ ++ m₂) a = Memory.read m₂ a := by
  induction m₁ with
  | nil => rfl
  | cons c rest ih =>
    have hc : c.1 ≠ a := h c (by simp)
    simpa [Memory.read, hc] using ih fun d hd => h d (by simp [hd])

theorem Memory.read_filter {m : Memory} {a : Nat} {p : Nat → Bool} (h : p a = true) :
    Memory.read (m.filter fun c => p c.1) a = Memory.read m a := by
  induction m with
  | nil => rfl
  | cons c rest ih =>
    by_cases hc : c.1 = a
    · subst hc; simp [h, Memory.read]
    · cases hp : p c.1 <;> simp [hp, Memory.read, hc, ih]

theorem Memory.read_of_no_key {m : Memory} {a : Nat} (h : ∀ c ∈ m, c.1 ≠ a) :
    Memory.read m a = unlistedByte := by
  simpa [Memory.read] using Memory.read_append_of_right (m₂ := []) h

theorem Memory.cellsOf_key {base : Nat} {s : List Byte} {c : Host.Cell} (h : c ∈ Memory.cellsOf base s) :
    base ≤ c.1 ∧ c.1 < base + s.length ∧ c.2 ≠ unlistedByte := by
  induction s generalizing base with
  | nil => simp [Memory.cellsOf] at h
  | cons b rest ih =>
    rw [Memory.cellsOf] at h
    split at h
    · obtain ⟨lo, hi, hv⟩ := ih h
      exact ⟨by omega, by simp only [List.length_cons]; omega, hv⟩
    · next hb =>
      rcases List.mem_cons.mp h with rfl | h
      · simp [hb]
      · obtain ⟨lo, hi, hv⟩ := ih h
        exact ⟨by omega, by simp only [List.length_cons]; omega, hv⟩

theorem Memory.read_cellsOf {base a : Nat} {s : List Byte} (h : base ≤ a) :
    Memory.read (Memory.cellsOf base s) a = (s[a - base]?).getD unlistedByte := by
  induction s generalizing base with
  | nil => simp [Memory.cellsOf, Memory.read]
  | cons b rest ih =>
    rw [Memory.cellsOf]
    rcases Nat.eq_or_lt_of_le h with rfl | hlt
    · split
      · next hb =>
        rw [Memory.read_of_no_key fun c hc => by have := Memory.cellsOf_key hc; omega]
        simp [hb]
      · simp [Memory.read]
    · have e : a - base = (a - (base + 1)) + 1 := by omega
      have := ih (base := base + 1) hlt
      split
      · rw [this, e]; simp
      · rw [Memory.read, if_neg (by omega), this, e]; simp

/-- What a write does: the written bytes read back, every other index reads as before. -/
theorem Memory.read_writeRange (m : Memory) (base a : Nat) (s : List Byte) :
    Memory.read (m.writeRange base s) a =
      if base ≤ a ∧ a < base + s.length then (s[a - base]?).getD unlistedByte else Memory.read m a := by
  unfold Memory.writeRange
  by_cases hlo : a < base
  · rw [if_neg (by omega), List.append_assoc, Memory.read_append_of_left,
      Memory.read_filter (p := fun k => decide (k < base)) (by simpa using hlo)]
    intro c hc
    rcases List.mem_append.mp hc with hc | hc
    · have := Memory.cellsOf_key hc; omega
    · have := (List.mem_filter.mp hc).2; simp only [decide_eq_true_eq] at this; omega
  · rw [List.append_assoc, Memory.read_append_of_right
      (fun c hc => by have := (List.mem_filter.mp hc).2; simp only [decide_eq_true_eq] at this; omega)]
    by_cases hhi : a < base + s.length
    · rw [if_pos (by omega), Memory.read_append_of_left, Memory.read_cellsOf (by omega)]
      intro c hc
      have := (List.mem_filter.mp hc).2; simp only [decide_eq_true_eq] at this; omega
    · rw [if_neg (by omega), Memory.read_append_of_right
        (fun c hc => by have := Memory.cellsOf_key hc; omega),
        Memory.read_filter (p := fun k => decide (base + s.length ≤ k)) (by simp only [decide_eq_true_eq]; omega)]

/-- A write at index 0, as an option on the written bytes. -/
theorem Memory.read_writeRange_zero (m : Memory) (a : Nat) (s : List Byte) :
    Memory.read (m.writeRange 0 s) a = (s[a]?).getD (Memory.read m a) := by
  rw [Memory.read_writeRange]
  by_cases h : a < s.length
  · simp [h]
  · simp [h]

@[simp] theorem Memory.readRange_length (m : Memory) (base n : Nat) : (m.readRange base n).length = n := by
  simp [Memory.readRange]

theorem Memory.readRange_writeRange (m : Memory) (base : Nat) (s : List Byte) :
    (m.writeRange base s).readRange base s.length = s := by
  apply List.ext_getElem (by simp)
  intro i h₁ h₂
  simp [Memory.readRange, Memory.read_writeRange, h₂]

theorem Memory.cellsOf_sorted (base : Nat) (s : List Byte) :
    (Memory.cellsOf base s).Pairwise (fun a b => a.1 < b.1) := by
  induction s generalizing base with
  | nil => simp [Memory.cellsOf]
  | cons b rest ih =>
    rw [Memory.cellsOf]
    split
    · exact ih _
    · refine List.pairwise_cons.mpr ⟨fun c hc => ?_, ih _⟩
      have := Memory.cellsOf_key hc
      omega

/-- A write keeps the canonical form. -/
theorem Memory.wf_writeRange {m : Memory} (h : m.wf) (base : Nat) (s : List Byte) :
    (m.writeRange base s).wf := by
  obtain ⟨hs, hv⟩ := h
  refine ⟨?_, fun c hc => ?_⟩
  · unfold Memory.writeRange
    rw [List.pairwise_append, List.pairwise_append]
    refine ⟨⟨hs.filter _, Memory.cellsOf_sorted _ _, fun a ha b hb => ?_⟩, hs.filter _, fun a ha b hb => ?_⟩
    · have ha := (List.mem_filter.mp ha).2
      have hb := Memory.cellsOf_key hb
      simp only [decide_eq_true_eq] at ha; omega
    · have hb := (List.mem_filter.mp hb).2
      simp only [decide_eq_true_eq] at hb
      rcases List.mem_append.mp ha with ha | ha
      · have ha := (List.mem_filter.mp ha).2
        simp only [decide_eq_true_eq] at ha; omega
      · have := Memory.cellsOf_key ha; omega
  · simp only [Memory.writeRange, List.mem_append, List.mem_filter] at hc
    rcases hc with (hc | hc) | hc
    · exact hv c hc.1
    · exact (Memory.cellsOf_key hc).2.2
    · exact hv c hc.1

/-- A write below a capacity stays below it. -/
theorem Memory.within_writeRange {m : Memory} {cap : Nat} (h : m.within cap) (base : Nat) (s : List Byte)
    (hs : base + s.length ≤ cap) : (m.writeRange base s).within cap := by
  intro c hc
  simp only [Memory.writeRange, List.mem_append, List.mem_filter] at hc
  rcases hc with (hc | hc) | hc
  · exact h c hc.1
  · have := Memory.cellsOf_key hc; omega
  · exact h c hc.1

theorem Memory.wf_nil : Memory.wf [] := by simp [Memory.wf]

theorem Memory.within_nil (cap : Nat) : Memory.within [] cap := by simp [Memory.within]

theorem Memory.read_of_mem {m : Memory} (h : m.wf) {c : Host.Cell} (hc : c ∈ m) : Memory.read m c.1 = c.2 := by
  induction m with
  | nil => simp at hc
  | cons d rest ih =>
    obtain ⟨hs, hv⟩ := h
    rw [List.pairwise_cons] at hs
    rcases List.mem_cons.mp hc with rfl | hc
    · simp [Memory.read]
    · have := hs.1 c hc
      rw [Memory.read, if_neg (by omega)]
      exact ih ⟨hs.2, fun e he => hv e (by simp [he])⟩ hc

/-- Two buffers in canonical form that read alike are equal. -/
theorem Memory.eq_of_read_eq {m₁ m₂ : Memory} (h₁ : m₁.wf) (h₂ : m₂.wf)
    (h : ∀ a, Memory.read m₁ a = Memory.read m₂ a) : m₁ = m₂ := by
  have sub : ∀ {p q : Memory}, p.wf → q.wf → (∀ a, Memory.read p a = Memory.read q a) → p ⊆ q := by
    intro p q hp hq he c hc
    have hr := (he c.1).symm.trans (Memory.read_of_mem hp hc)
    by_contra hn
    have : ∀ d ∈ q, d.1 ≠ c.1 := by
      intro d hd hk
      have hd' := Memory.read_of_mem hq hd
      rw [hk, hr] at hd'
      exact hn (by rwa [show c = d from Prod.ext hk.symm hd'])
    exact hp.2 c hc (hr.symm.trans (Memory.read_of_no_key this))
  have perm : m₁.Perm m₂ := by
    have nd : ∀ {p : Memory}, p.wf → p.Nodup := fun hp =>
      hp.1.imp fun hlt he => by rw [he] at hlt; exact Nat.lt_irrefl _ hlt
    exact (List.perm_ext_iff_of_nodup (nd h₁) (nd h₂)).mpr fun c =>
      ⟨fun hc => sub h₁ h₂ h hc, fun hc => sub h₂ h₁ (fun a => (h a).symm) hc⟩
  exact perm.eq_of_pairwise (fun a b _ _ hab hba => absurd hab (by omega)) h₁.1 h₂.1

end Sys2Proof.Machine
end

