-- ==== Sys2Proof/Laws/Transport.lean ====
section
/-! SUPPORT. One lemma per sequencing operator and per operation of 40_transport.md: all it can do, with the state it leaves
written out. -/

namespace Sys2Proof.Machine

open Sys2Proof

/-! ## Sequencing -/

@[simp] theorem Run.andThen_done {α β : Type} (a : α) (s : State) (f : α → State → Run β) :
    (Run.done a s).andThen f = f a s := rfl

@[simp] theorem Run.andThen_raise {α β : Type} (k : ErrorKind) (s : State) (f : α → State → Run β) :
    (Run.raise (α := α) k s).andThen f = Run.raise k s := rfl

theorem Run.andThen_assoc {α β γ : Type} (r : Run α) (f : α → State → Run β) (g : β → State → Run γ) :
    (r.andThen f).andThen g = r.andThen fun a s => (f a s).andThen g := by
  rcases r with ⟨s, out⟩
  cases out <;> rfl

/-- A sequence completes exactly when both its parts do. -/
theorem Run.andThen_ok {α β : Type} {r : Run α} {f : α → State → Run β} {b : β}
    (h : (r.andThen f).out = .ok b) : ∃ a, r.out = .ok a ∧ r.andThen f = f a r.state ∧ (f a r.state).out = .ok b := by
  rcases r with ⟨s, out⟩
  cases out with
  | error k => cases h
  | ok a => exact ⟨a, rfl, rfl, h⟩

/-- A sequence fails in its first part, leaving that state, or in its second. -/
theorem Run.andThen_cases {α β : Type} (r : Run α) (f : α → State → Run β) :
    (∃ k, r.out = .error k ∧ r.andThen f = { state := r.state, out := .error k }) ∨
      ∃ a, r.out = .ok a ∧ r.andThen f = f a r.state := by
  rcases r with ⟨s, out⟩
  cases out with
  | error k => exact .inl ⟨k, rfl, rfl⟩
  | ok a => exact .inr ⟨a, rfl, rfl⟩

@[simp] theorem Run.done_state {α : Type} (a : α) (s : State) : (Run.done a s).state = s := rfl
@[simp] theorem Run.done_out {α : Type} (a : α) (s : State) : (Run.done a s).out = .ok a := rfl
@[simp] theorem Run.raise_state {α : Type} (k : ErrorKind) (s : State) :
    (Run.raise (α := α) k s).state = s.takeError k := rfl
@[simp] theorem Run.raise_out {α : Type} (k : ErrorKind) (s : State) : (Run.raise (α := α) k s).out = .error k := rfl

@[simp] theorem Run.finish_done {α : Type} (value : α → OpValue) (a : α) (s : State) :
    (Run.done a s).finish value = .next (s.setResult (.value (value a))) := rfl

@[simp] theorem Run.finish_raise {α : Type} (value : α → OpValue) (k : ErrorKind) (s : State) :
    (Run.raise k s).finish value = .next ((s.takeError k).setResult (.error k)) := rfl

/-! ## The primitives -/

theorem State.afterIoDraw_eq (s : State) : s.afterIoDraw = { s with env := s.envAfter 1 0 0 } := by
  rw [← State.afterIoDraw_env]
  unfold State.afterIoDraw
  split <;> rfl

/-- Exchange over a working link (40_transport.md R90). -/
theorem exchange_up {s : State} (tx : List Byte) (h : s.ioFails 0 = false) :
    exchange tx s = Run.done (s.capture tx.length)
      { s with
        now := endTime s.now (exchangeMinNs s.cfg tx.length) (s.clockAhead 0)
        trace := s.trace ++ [.xfer tx (s.capture tx.length) s.now
          (endTime s.now (exchangeMinNs s.cfg tx.length) (s.clockAhead 0))]
        env := s.envAfter 1 tx.length 1 } := by
  have e : ({ s with env := s.envAfter 1 0 0 } : State).envAfter 0 tx.length 1 = s.envAfter 1 tx.length 1 := by
    rw [State.envAfter_envAfter (s := s) (t := { s with env := s.envAfter 1 0 0 }) rfl rfl]; simp
  unfold exchange
  rw [if_neg (by simp [h]), State.capture_afterIoDraw]
  have hm : ∀ t : State, t.afterXfer tx = { t with
      now := endTime t.now (exchangeMinNs t.cfg tx.length) (t.clockAhead 0)
      trace := t.trace ++ [.xfer tx (t.capture tx.length) t.now
          (endTime t.now (exchangeMinNs t.cfg tx.length) (t.clockAhead 0))]
      env := t.envAfter 0 tx.length 1 } := by
    intro t
    unfold State.afterXfer State.envAfter
    simp [Tape.advance_zero]
  rw [hm, State.capture_afterIoDraw, State.clockAhead_afterIoDraw, State.afterIoDraw_eq, e]

/-- Exchange over a failing link moves no byte (40_transport.md R90). -/
theorem exchange_down {s : State} (tx : List Byte) (h : s.ioFails 0 = true) :
    exchange tx s = Run.raise .transport { s with env := s.envAfter 1 0 0 } := by
  unfold exchange; rw [if_pos h, State.afterIoDraw_eq]

theorem lineWrite_up {s : State} (pin : Pin) (level : Bool) (h : s.ioFails 0 = false) :
    lineWrite pin level s = Run.done () (State.driveLine { s with env := s.envAfter 1 0 0 } pin level) := by
  unfold lineWrite; rw [if_neg (by simp [h]), State.afterIoDraw_eq]

theorem lineWrite_down {s : State} (pin : Pin) (level : Bool) (h : s.ioFails 0 = true) :
    lineWrite pin level s = Run.raise .transport { s with env := s.envAfter 1 0 0 } := by
  unfold lineWrite; rw [if_pos h, State.afterIoDraw_eq]

/-- A wait (40_transport.md R94). -/
theorem waitAtLeast_eq (d : U64) (s : State) :
    waitAtLeast d s =
      { s with
        now := endTime s.now d.toNat (s.clockAhead 0)
        trace := s.trace ++ [.sleep d s.now (endTime s.now d.toNat (s.clockAhead 0))]
        env := s.envAfter 0 0 1 } := by
  unfold waitAtLeast State.envAfter
  simp [Tape.advance_zero]

/-- The event of a wait, its end named by the state after it. -/
theorem waitAtLeast_trace (d : U64) (s : State) :
    (waitAtLeast d s).trace = s.trace ++ [.sleep d s.now (waitAtLeast d s).now] := rfl

/-- How long a wait took (40_transport.md R94). -/
theorem waitAtLeast_elapsed (d : U64) (s : State) : Elapsed s.now d.toNat (waitAtLeast d s).now := endTime_elapsed _ _ _

/-! ## The delay products fit a `u64` (44_sequencer.md R193) -/

theorem msToNs_eq (ms : U32) : msToNs ms = BitVec.ofNat 64 (ms.toNat * 1000000) := by unfold msToNs; rw [Nat.mul_comm]

theorem msToNs_toNat (ms : U32) : (msToNs ms).toNat = ms.toNat * 1000000 := by
  have := ms.isLt
  rw [msToNs_eq, BitVec.toNat_ofNat]; exact Nat.mod_eq_of_lt (by omega)

theorem sendDataWait_eq (n : Nat) : sendDataWait n = BitVec.ofNat 64 (n * 6500) := by
  unfold sendDataWait; rw [Nat.mul_comm]

theorem sendDataWait_toNat {n : Nat} (h : n ≤ 252) : (sendDataWait n).toNat = n * 6500 := by
  rw [sendDataWait_eq, BitVec.toNat_ofNat]; exact Nat.mod_eq_of_lt (by omega)

theorem crc32Wait_eq (size : U32) : crc32Wait size = BitVec.ofNat 64 (size.toNat * 500) := by
  unfold crc32Wait; rw [Nat.mul_comm]

theorem crc32Wait_toNat (size : U32) : (crc32Wait size).toNat = size.toNat * 500 := by
  have := size.isLt
  rw [crc32Wait_eq, BitVec.toNat_ofNat]; exact Nat.mod_eq_of_lt (by omega)

/-! ## TRANSFER and what is made of it -/

@[simp] theorem State.txBytes_length (s : State) : s.txBytes.length = s.txlen.toNat := by simp [State.txBytes]

@[simp] theorem State.rxBytes_length (s : State) : s.rxBytes.length = s.rxlen.toNat := by simp [State.rxBytes]

/-- TXBUF right after it was loaded (20_memory.md R58 a). -/
theorem State.txBytes_loadTx (s : State) {bytes : List Byte} (h : bytes.length < 65536) :
    (s.loadTx bytes).txBytes = bytes := by
  unfold State.txBytes State.loadTx
  simp only [BitVec.toNat_ofNat]
  rw [Nat.mod_eq_of_lt h, Memory.readRange_writeRange]

/-- The state after TRANSFER (40_transport.md R91). -/
def State.transferred (s : State) : State :=
  { s with
    rxbuf := s.rxbuf.writeRange 0 (s.capture s.txlen.toNat)
    rxlen := s.txlen
    now := endTime s.now (exchangeMinNs s.cfg s.txlen.toNat) (s.clockAhead 0)
    trace := s.trace ++ [.xfer s.txBytes (s.capture s.txlen.toNat) s.now
      (endTime s.now (exchangeMinNs s.cfg s.txlen.toNat) (s.clockAhead 0))]
    env := s.envAfter 1 s.txlen.toNat 1 }

/-- TRANSFER over a working link (40_transport.md R91). -/
theorem transfer_up {s : State} (h : s.ioFails 0 = false) : transfer s = Run.done () s.transferred := by
  unfold transfer
  rw [exchange_up _ h]
  simp only [Run.andThen_done, State.txBytes_length, State.storeRx, State.capture_length, BitVec.ofNat_toNat,
    BitVec.setWidth_eq, State.transferred]

/-- TRANSFER over a failing link: RXBUF and RXLEN are unchanged (40_transport.md R91). -/
theorem transfer_down {s : State} (h : s.ioFails 0 = true) :
    transfer s = Run.raise .transport { s with env := s.envAfter 1 0 0 } := by
  unfold transfer
  rw [exchange_down _ h, Run.andThen_raise]

theorem State.ioFails_loadTx (s : State) (bytes : List Byte) (k : Nat) :
    (s.loadTx bytes).ioFails k = s.ioFails k := rfl

/-- The window right after a transfer is what was captured. -/
theorem State.rxBytes_transferred (s : State) : s.transferred.rxBytes = s.capture s.txlen.toNat := by
  have h := Memory.readRange_writeRange s.rxbuf 0 (s.capture s.txlen.toNat)
  rw [State.capture_length] at h
  exact h

/-- The state after the bytes `tx` were loaded and transferred. -/
def State.exchanged (s : State) (tx : List Byte) : State :=
  { s with
    txbuf := s.txbuf.writeRange 0 tx
    txlen := BitVec.ofNat 16 tx.length
    rxbuf := s.rxbuf.writeRange 0 (s.capture tx.length)
    rxlen := BitVec.ofNat 16 tx.length
    now := endTime s.now (exchangeMinNs s.cfg tx.length) (s.clockAhead 0)
    trace := s.trace ++ [.xfer tx (s.capture tx.length) s.now
      (endTime s.now (exchangeMinNs s.cfg tx.length) (s.clockAhead 0))]
    env := s.envAfter 1 tx.length 1 }

/-- Loading and transferring, for every buffer that fits (40_transport.md R91 to R93). -/
theorem transfer_loadTx_up {s : State} {tx : List Byte} (hl : tx.length < 65536) (h : s.ioFails 0 = false) :
    transfer (s.loadTx tx) = Run.done () (s.exchanged tx) := by
  rw [transfer_up (s := s.loadTx tx) h, State.transferred, State.txBytes_loadTx _ hl]
  have hn : (s.loadTx tx).txlen.toNat = tx.length := by
    simp only [State.loadTx_txlen, BitVec.toNat_ofNat]; exact Nat.mod_eq_of_lt hl
  rw [hn]
  rfl

theorem transfer_loadTx_down {s : State} {tx : List Byte} (h : s.ioFails 0 = true) :
    transfer (s.loadTx tx) = Run.raise .transport
      { s with txbuf := s.txbuf.writeRange 0 tx, txlen := BitVec.ofNat 16 tx.length, env := s.envAfter 1 0 0 } := by
  rw [transfer_down (s := s.loadTx tx) h]
  rfl

/-- HOST_ACK over a working link (40_transport.md R93). -/
theorem hostAck_up {s : State} (h : s.ioFails 0 = false) : hostAck s = Run.done () (s.exchanged [ackByte]) :=
  transfer_loadTx_up (by simp) h

/-- READ over a working link (40_transport.md R92). -/
theorem readWindow_up {s : State} {n : Nat} (hn : n < 65536) (h : s.ioFails 0 = false) :
    readWindow n s = Run.done () (s.exchanged (zeros n)) :=
  transfer_loadTx_up (by simpa using hn) h

@[simp] theorem State.exchanged_cfg (s : State) (tx : List Byte) : (s.exchanged tx).cfg = s.cfg := rfl

@[simp] theorem State.exchanged_env (s : State) (tx : List Byte) :
    (s.exchanged tx).env = s.envAfter 1 tx.length 1 := rfl

@[simp] theorem State.exchanged_txbuf (s : State) (tx : List Byte) :
    (s.exchanged tx).txbuf = s.txbuf.writeRange 0 tx := rfl

@[simp] theorem State.exchanged_txlen (s : State) (tx : List Byte) :
    (s.exchanged tx).txlen = BitVec.ofNat 16 tx.length := rfl

@[simp] theorem State.exchanged_rxbuf (s : State) (tx : List Byte) :
    (s.exchanged tx).rxbuf = s.rxbuf.writeRange 0 (s.capture tx.length) := rfl

@[simp] theorem State.exchanged_rxlen (s : State) (tx : List Byte) :
    (s.exchanged tx).rxlen = BitVec.ofNat 16 tx.length := rfl

@[simp] theorem State.exchanged_scanpos (s : State) (tx : List Byte) : (s.exchanged tx).scanpos = s.scanpos := rfl
@[simp] theorem State.exchanged_rlen (s : State) (tx : List Byte) : (s.exchanged tx).rlen = s.rlen := rfl
@[simp] theorem State.exchanged_rcks (s : State) (tx : List Byte) : (s.exchanged tx).rcks = s.rcks := rfl
@[simp] theorem State.exchanged_rpay (s : State) (tx : List Byte) : (s.exchanged tx).rpay = s.rpay := rfl
@[simp] theorem State.exchanged_rpaylen (s : State) (tx : List Byte) : (s.exchanged tx).rpaylen = s.rpaylen := rfl
@[simp] theorem State.exchanged_cksacc (s : State) (tx : List Byte) : (s.exchanged tx).cksacc = s.cksacc := rfl
@[simp] theorem State.exchanged_crcacc (s : State) (tx : List Byte) : (s.exchanged tx).crcacc = s.crcacc := rfl
@[simp] theorem State.exchanged_crcLocal (s : State) (tx : List Byte) : (s.exchanged tx).crcLocal = s.crcLocal := rfl
@[simp] theorem State.exchanged_crcDevice (s : State) (tx : List Byte) : (s.exchanged tx).crcDevice = s.crcDevice := rfl
@[simp] theorem State.exchanged_chipid (s : State) (tx : List Byte) : (s.exchanged tx).chipid = s.chipid := rfl
@[simp] theorem State.exchanged_status (s : State) (tx : List Byte) : (s.exchanged tx).status = s.status := rfl
@[simp] theorem State.exchanged_session (s : State) (tx : List Byte) : (s.exchanged tx).session = s.session := rfl
@[simp] theorem State.exchanged_ackf (s : State) (tx : List Byte) : (s.exchanged tx).ackf = s.ackf := rfl
@[simp] theorem State.exchanged_nackf (s : State) (tx : List Byte) : (s.exchanged tx).nackf = s.nackf := rfl
@[simp] theorem State.exchanged_crcMatch (s : State) (tx : List Byte) : (s.exchanged tx).crcMatch = s.crcMatch := rfl
@[simp] theorem State.exchanged_fault (s : State) (tx : List Byte) : (s.exchanged tx).fault = s.fault := rfl
@[simp] theorem State.exchanged_err (s : State) (tx : List Byte) : (s.exchanged tx).err = s.err := rfl
@[simp] theorem State.exchanged_resetN (s : State) (tx : List Byte) : (s.exchanged tx).resetN = s.resetN := rfl
@[simp] theorem State.exchanged_blEnN (s : State) (tx : List Byte) : (s.exchanged tx).blEnN = s.blEnN := rfl
@[simp] theorem State.exchanged_crcLocalWritten (s : State) (tx : List Byte) : (s.exchanged tx).crcLocalWritten = s.crcLocalWritten := rfl
@[simp] theorem State.exchanged_crcDeviceWritten (s : State) (tx : List Byte) : (s.exchanged tx).crcDeviceWritten = s.crcDeviceWritten := rfl
@[simp] theorem State.exchanged_pending (s : State) (tx : List Byte) : (s.exchanged tx).pending = s.pending := rfl
@[simp] theorem State.exchanged_result (s : State) (tx : List Byte) : (s.exchanged tx).result = s.result := rfl

/-- The event of a transfer, its end named by the state after it. -/
@[simp] theorem State.exchanged_trace (s : State) (tx : List Byte) : (s.exchanged tx).trace =
    s.trace ++ [.xfer tx (s.capture tx.length) s.now (s.exchanged tx).now] := rfl

/-- How long a transfer took (40_transport.md R90). -/
theorem State.exchanged_elapsed (s : State) (tx : List Byte) :
    Elapsed s.now (exchangeMinNs s.cfg tx.length) (s.exchanged tx).now := endTime_elapsed _ _ _

theorem State.ioFails_exchanged (s : State) (tx : List Byte) (k : Nat) :
    (s.exchanged tx).ioFails k = s.ioFails (1 + k) := State.ioFails_of_env (s := s) (t := s.exchanged tx) rfl rfl k

theorem State.rxBytes_exchanged (s : State) {tx : List Byte} (hl : tx.length < 65536) :
    (s.exchanged tx).rxBytes = s.capture tx.length := by
  have h := Memory.readRange_writeRange s.rxbuf 0 (s.capture tx.length)
  rw [State.capture_length] at h
  unfold State.rxBytes State.exchanged
  simp only [BitVec.toNat_ofNat, Nat.mod_eq_of_lt hl]
  exact h

end Sys2Proof.Machine
end

