-- ==== Sys2Proof/Laws/Framer.lean ====
section
/-! SUPPORT. One lemma per operation of 41_framer.md: SERIALIZE, ACK_SCAN and PARSE_REPLY, all each can do. -/

namespace Sys2Proof.Machine

open Sys2Proof

/-! ## SERIALIZE -/

/-- SERIALIZE of a well-formed request (41_framer.md R112). -/
theorem serialize_ok {i : Instr} {v : Variant} {cmd : Byte} (hv : variantOf i = some v) (hc : cmdOf v = some cmd)
    (h : WellFormed i) (s : State) :
    serialize i s =
      Run.done () ((s.setCks (checksum (cmd :: payloadOf i))).loadTx (encode i ++ zeros (idleOf v))) := by
  obtain ⟨lo, hi⟩ := (wellFormed_iff_bounds hv).mp h
  unfold serialize
  have hr : requestOf i = some (v, cmd) := by simp [requestOf, hv, hc]
  have hp : packetLength i = 3 + (payloadOf i).length := rfl
  simp only [hr]
  rw [if_neg (by omega), encode_request hv hc]
  rfl

/-- SERIALIZE of an ill-formed request (41_framer.md R113). -/
theorem serialize_bound {i : Instr} {v : Variant} {cmd : Byte} (hv : variantOf i = some v) (hc : cmdOf v = some cmd)
    (h : ¬ WellFormed i) (s : State) :
    serialize i s = Run.raise (.boundViolation .atSerialize (3 + (payloadOf i).length)) s := by
  have hb : ¬ (minLen v ≤ 3 + (payloadOf i).length ∧ 3 + (payloadOf i).length ≤ maxLen v) :=
    fun hb => h ((wellFormed_iff_bounds hv).mpr hb)
  unfold serialize
  have hr : requestOf i = some (v, cmd) := by simp [requestOf, hv, hc]
  have hp : packetLength i = 3 + (payloadOf i).length := rfl
  simp only [hr]
  rw [if_pos (by omega), hp]

/-- The bytes of a request's own transfer: 3 to 305 of them (20_memory.md R52). -/
theorem onWire_length {i : Instr} {v : Variant} {cmd : Byte} (hv : variantOf i = some v) (hc : cmdOf v = some cmd)
    (h : WellFormed i) :
    (encode i ++ zeros (idleOf v)).length = 3 + (payloadOf i).length + idleOf v ∧
      3 ≤ (encode i ++ zeros (idleOf v)).length ∧ (encode i ++ zeros (idleOf v)).length ≤ 305 := by
  obtain ⟨lo, hi⟩ := (wellFormed_iff_bounds hv).mp h
  rw [encode_request hv hc, List.length_append, length_requestPacket, length_zeros]
  refine ⟨rfl, by omega, ?_⟩
  cases v <;> simp only [maxLen, idleOf] at * <;> omega

/-! ## The scan -/

/-- The scan of a window whose first sentinel is an ACK (41_framer.md R114). -/
theorem scanFrom_ack {z w : List Byte} (h : SentinelFree z) (p : Nat) :
    scanFrom p (z ++ ackByte :: w) = .ack (p + z.length) := by
  induction z generalizing p with
  | nil => simp [scanFrom]
  | cons b z ih =>
    have hb := h b (by simp)
    rw [List.cons_append, scanFrom, if_neg hb.1, if_neg hb.2, ih (fun c hc => h c (by simp [hc]))]
    simp only [List.length_cons]
    congr 1
    omega

/-- The scan of a window whose first sentinel is a NACK. -/
theorem scanFrom_nack {z w : List Byte} (h : SentinelFree z) (p : Nat) :
    scanFrom p (z ++ nackByte :: w) = .nack (p + z.length) := by
  induction z generalizing p with
  | nil => simp [scanFrom, ackByte, nackByte]
  | cons b z ih =>
    have hb := h b (by simp)
    rw [List.cons_append, scanFrom, if_neg hb.1, if_neg hb.2, ih (fun c hc => h c (by simp [hc]))]
    simp only [List.length_cons]
    congr 1
    omega

/-- The scan of a window without a sentinel. -/
theorem scanFrom_nothing {z : List Byte} (h : SentinelFree z) (p : Nat) : scanFrom p z = .nothing := by
  induction z generalizing p with
  | nil => rfl
  | cons b z ih =>
    have hb := h b (by simp)
    rw [scanFrom, if_neg hb.1, if_neg hb.2]
    exact ih (fun c hc => h c (by simp [hc])) _

/-- Every window is of one of the three shapes. -/
theorem window_cases (l : List Byte) :
    (∃ z w, l = z ++ ackByte :: w ∧ SentinelFree z) ∨ (∃ z w, l = z ++ nackByte :: w ∧ SentinelFree z) ∨
      SentinelFree l := by
  induction l with
  | nil => exact .inr (.inr (by simp [SentinelFree]))
  | cons b l ih =>
    by_cases ha : b = ackByte
    · exact .inl ⟨[], l, by simp [ha], by simp [SentinelFree]⟩
    by_cases hn : b = nackByte
    · exact .inr (.inl ⟨[], l, by simp [hn], by simp [SentinelFree]⟩)
    have cons : ∀ {z}, SentinelFree z → SentinelFree (b :: z) := fun {z} hz c hc => by
      rcases List.mem_cons.mp hc with rfl | hc
      · exact ⟨ha, hn⟩
      · exact hz c hc
    rcases ih with ⟨z, w, rfl, hz⟩ | ⟨z, w, rfl, hz⟩ | hz
    · exact .inl ⟨b :: z, w, rfl, cons hz⟩
    · exact .inr (.inl ⟨b :: z, w, rfl, cons hz⟩)
    · exact .inr (.inr (cons hz))

theorem ackScan_ack {s : State} {z w : List Byte} (hr : s.rxBytes = z ++ ackByte :: w) (h : SentinelFree z) :
    ackScan s = Run.done () (s.flagAck z.length) := by
  unfold ackScan scanWindow
  rw [hr, scanFrom_ack h, Nat.zero_add]

theorem ackScan_nack {s : State} {z w : List Byte} (hr : s.rxBytes = z ++ nackByte :: w) (h : SentinelFree z) :
    ackScan s = Run.raise (.nack (BitVec.ofNat 16 z.length)) (s.flagNack z.length) := by
  unfold ackScan scanWindow
  rw [hr, scanFrom_nack h, Nat.zero_add]

theorem ackScan_nothing {s : State} (h : SentinelFree s.rxBytes) : ackScan s = Run.raise .noAck s.clearScan := by
  unfold ackScan scanWindow
  rw [scanFrom_nothing h]

/-! ## PARSE_REPLY -/

theorem State.rxbuf_read_of_rxBytes {s : State} {l : List Byte} (hr : s.rxBytes = l) {k : Nat} (hk : k < l.length) :
    s.rxbuf.read k = l[k] := by
  subst hr
  simp [State.rxBytes, Memory.readRange]

theorem State.rxbuf_readRange_of_rxBytes {s : State} {a b c : List Byte} (hr : s.rxBytes = a ++ b ++ c) :
    s.rxbuf.readRange a.length b.length = b := by
  apply List.ext_getElem (by simp)
  intro k h₁ h₂
  have hk : a.length + k < (a ++ b ++ c).length := by simp only [List.length_append]; omega
  have := State.rxbuf_read_of_rxBytes hr hk
  simp only [Memory.readRange, List.getElem_map, List.getElem_range]
  rw [this]
  simp [h₂]

/-- The state PARSE_REPLY leaves when the header and checksum hold: the scan's flags, the header, the checksum and the
payload are written (41_framer.md R116). -/
def State.parsed (s : State) (p : Nat) (len cks : Byte) (pay : List Byte) : State :=
  (((s.flagAck p).setHeader len cks).setCks cks).setPayload pay

/-- PARSE_REPLY over a window that holds a whole reply packet in its variant's bounds with the right checksum: only the
decoding of its fields remains (41_framer.md R116). -/
theorem parseReply_accepts {s : State} {v : Variant} {z pay w : List Byte} (hz : SentinelFree z)
    (hr : s.rxBytes = z ++ ackByte :: replyPacket pay ++ w) (lo : minLen v ≤ 3 + pay.length)
    (hi : 3 + pay.length ≤ maxLen v) :
    parseReply v s =
      match decodeFields (fieldsOf v) pay with
      | .ok vals => Run.done vals (storeFields v vals
          (s.parsed z.length (BitVec.ofNat 8 (2 + pay.length)) (checksum pay) pay))
      | .error e => Run.raise (fieldErrorKind e)
          (s.parsed z.length (BitVec.ofNat 8 (2 + pay.length)) (checksum pay) pay) := by
  have hmax := maxLen_le v
  have hmin := minLen_ge v
  have hlen : s.rxlen.toNat = z.length + (3 + pay.length) + w.length := by
    rw [← State.rxBytes_length, hr]; simp; omega
  have hz16 : z.length < 65536 := by have := s.rxlen.isLt; omega
  have hl8 : (BitVec.ofNat 8 (2 + pay.length)).toNat = 2 + pay.length := by
    rw [BitVec.toNat_ofNat]; exact Nat.mod_eq_of_lt (by omega)
  have hr' : s.rxBytes = z ++ (ackByte :: replyPacket pay ++ w) := by simpa using hr
  have h1 : s.rxbuf.read (z.length + 1) = BitVec.ofNat 8 (2 + pay.length) := by
    rw [State.rxbuf_read_of_rxBytes hr' (by simp)]
    rw [List.getElem_append_right (by omega)]
    simp [replyPacket]
  have h2 : s.rxbuf.read (z.length + 2) = checksum pay := by
    rw [State.rxbuf_read_of_rxBytes hr' (by simp; omega)]
    rw [List.getElem_append_right (by omega)]
    simp [replyPacket]
  have h3 : s.rxbuf.readRange (z.length + 3) pay.length = pay := by
    have e : s.rxBytes = (z ++ [ackByte, BitVec.ofNat 8 (2 + pay.length), checksum pay]) ++ pay ++ w := by
      rw [hr]; simp [replyPacket]
    simpa using State.rxbuf_readRange_of_rxBytes e
  unfold parseReply
  rw [ackScan_ack hr' hz, Run.andThen_done]
  simp only [State.flagAck_rxlen, State.flagAck_scanpos, BitVec.toNat_ofNat, Nat.mod_eq_of_lt hz16]
  rw [if_neg (by omega)]
  unfold parseBounded
  simp only [State.flagAck_rxbuf, h1, h2, State.setHeader_rlen, hl8]
  rw [if_neg (by omega), if_neg (by omega)]
  unfold parsePayload
  simp only [State.setHeader_rxlen, State.setHeader_rlen, State.setHeader_rcks, State.setHeader_rxbuf,
    State.flagAck_rxlen, State.flagAck_rxbuf, hl8, Nat.add_sub_cancel_left, h3]
  rw [if_neg (by omega), if_neg (by simp)]
  rfl

end Sys2Proof.Machine
end

