-- ==== Sys2Proof/Laws/Micro.lean ====
section
/-! SUPPORT. Said once: everything a request other than ENTER_BOOTLOADER can do to the state is a sequence of the micro steps
below. An invariant or a frame over all requests is then one case for each micro step. -/

namespace Sys2Proof.Machine

open Sys2Proof

/-- The error kinds an operation raises (60_exceptions.md R220, R226): the others never leave the block. -/
def ErrorKind.raised : ErrorKind → Prop
  | .boundViolation _ _ => True
  | .noAck => True
  | .nack _ => True
  | .badChecksum _ _ => True
  | .badCmdByte => False
  | .packetTooShort => True
  | .invalidStatusCode _ => True
  | .invalidCmdStatus => False
  | .transport => True
  | .hexParse => False
  | .imageStructure => False
  | .verification _ => True

/-- One named update, with what is known where it is made. -/
inductive Micro : State → State → Prop where
  | load (s : State) (bytes : List Byte) (h : bytes.length ≤ bufCapOf s.cfg) : Micro s (s.loadTx bytes)
  | transferred (s : State) (lo : 1 ≤ s.txlen.toNat) (hi : s.txlen.toNat ≤ bufCapOf s.cfg) : Micro s s.transferred
  | ioDraw (s : State) : Micro s { s with env := s.envAfter 1 0 0 }
  | waited (s : State) (d : U64) : Micro s (waitAtLeast d s)
  | targetSends (s : State) (bytes : List Byte) : Micro s (s.targetSends bytes)
  | setCks (s : State) (c : Byte) : Micro s (s.setCks c)
  | clearScan (s : State) : Micro s s.clearScan
  | flagAck (s : State) (p : Nat) (h : p < s.rxlen.toNat) : Micro s (s.flagAck p)
  | flagNack (s : State) (p : Nat) (h : p < s.rxlen.toNat) : Micro s (s.flagNack p)
  | setHeader (s : State) (l c : Byte) : Micro s (s.setHeader l c)
  | setPayload (s : State) (pay : List Byte) (h : pay.length ≤ 253) : Micro s (s.setPayload pay)
  | setChipId (s : State) (v : U32) : Micro s (s.setChipId v)
  | setCrcDevice (s : State) (v : U32) : Micro s (s.setCrcDevice v)
  | setStatus (s : State) (v : StatusValue) : Micro s (s.setStatus v)
  | setCrcLocal (s : State) (v : U32) : Micro s (s.setCrcLocal v)
  | setCrc (s : State) (a v : U32) : Micro s (s.setCrc a v)
  | flagMatch (s : State) : Micro s s.flagMatch
  | takeError (s : State) (k : ErrorKind) (h : k.raised) : Micro s (s.takeError k)
  | setSession (s : State) (x : Session) (h : s.session ≠ .faulted) (hx : x ≠ .faulted) : Micro s (s.setSession x)
  | setResult (s : State) (r : Response) : Micro s (s.setResult r)

/-- Any number of micro steps. -/
inductive Steps : State → State → Prop where
  | refl (s : State) : Steps s s
  | tail {s t u : State} (h : Steps s t) (m : Micro t u) : Steps s u

theorem Steps.single {s t : State} (m : Micro s t) : Steps s t := .tail (.refl s) m

theorem Steps.trans {s t u : State} (h : Steps s t) (g : Steps t u) : Steps s u := by
  induction g with
  | refl => exact h
  | tail _ m ih => exact .tail ih m

/-- A relation that is reflexive, transitive and holds of every micro step holds of every sequence of them. -/
theorem Steps.lift {R : State → State → Prop} (refl : ∀ s, R s s) (trans : ∀ {s t u}, R s t → R t u → R s u)
    (micro : ∀ {s t}, Micro s t → R s t) {s t : State} (h : Steps s t) : R s t := by
  induction h with
  | refl => exact refl _
  | tail _ m ih => exact trans ih (micro m)

/-- A predicate every micro step keeps is kept by every sequence of them. -/
theorem Steps.keep {P : State → Prop} (micro : ∀ {s t}, Micro s t → P s → P t) {s t : State} (h : Steps s t)
    (hs : P s) : P t :=
  Steps.lift (R := fun a b => P a → P b) (fun _ h => h) (fun f g h => g (f h)) micro h hs

/-- What is known of an operation that began in `s`: it made micro steps; without an error it kept FAULT and ERR and did
not enter Faulted; with an error it made the error entry (60_exceptions.md R230). -/
structure Run.Tracks {α : Type} (s : State) (r : Run α) : Prop where
  steps : Steps s r.state
  ok : ∀ a, r.out = .ok a → r.state.fault = s.fault ∧ r.state.err = s.err ∧
    (s.session ≠ .faulted → r.state.session ≠ .faulted)
  error : ∀ k, r.out = .error k → k.raised ∧ r.state.session = .faulted ∧ r.state.fault = true ∧
    r.state.err = if s.err = 0#4 then errorCode k else s.err

theorem Run.Tracks.done {α : Type} {s t : State} (a : α) (h : Steps s t) (hf : t.fault = s.fault) (he : t.err = s.err)
    (hx : s.session ≠ .faulted → t.session ≠ .faulted) : Run.Tracks s (Run.done a t) where
  steps := h
  ok _ _ := ⟨hf, he, hx⟩
  error k hk := by cases hk

theorem Run.Tracks.raise {α : Type} {s t : State} {k : ErrorKind} (hk : k.raised) (h : Steps s t) (he : t.err = s.err) :
    Run.Tracks s (Run.raise (α := α) k t) where
  steps := .tail h (.takeError t k hk)
  ok a ha := by cases ha
  error k' hk' := by
    cases hk'
    exact ⟨hk, rfl, rfl, by simp [he]⟩

theorem Run.Tracks.andThen {α β : Type} {s : State} {r : Run α} {f : α → State → Run β} (hr : Run.Tracks s r)
    (hf : ∀ a, r.out = .ok a → Run.Tracks r.state (f a r.state)) : Run.Tracks s (r.andThen f) := by
  rcases Run.andThen_cases r f with ⟨k, hk, e⟩ | ⟨a, ha, e⟩
  · rw [e]
    exact ⟨hr.steps, fun a h => (by cases h), fun k' h => (by cases h; exact hr.error k hk)⟩
  · rw [e]
    obtain ⟨okf, oke, okx⟩ := hr.ok a ha
    have g := hf a ha
    refine ⟨hr.steps.trans g.steps, fun b hb => ?_, fun k hk => ?_⟩
    · obtain ⟨gf, ge, gx⟩ := g.ok b hb
      exact ⟨gf.trans okf, ge.trans oke, fun h => gx (okx h)⟩
    · obtain ⟨a1, a2, a3, a4⟩ := g.error k hk
      exact ⟨a1, a2, a3, by rw [a4, oke]⟩

/-- An operation tracked from a state that micro steps reached without touching FAULT, ERR and Faulted. -/
theorem Run.Tracks.after {α : Type} {s t : State} {r : Run α} (h : Steps s t) (hf : t.fault = s.fault)
    (he : t.err = s.err) (hx : s.session ≠ .faulted → t.session ≠ .faulted) (hr : Run.Tracks t r) :
    Run.Tracks s r where
  steps := h.trans hr.steps
  ok a ha := by
    obtain ⟨a1, a2, a3⟩ := hr.ok a ha
    exact ⟨a1.trans hf, a2.trans he, fun h => a3 (hx h)⟩
  error k hk := by
    obtain ⟨a1, a2, a3, a4⟩ := hr.error k hk
    exact ⟨a1, a2, a3, by rw [a4, he]⟩

/-! ## The operations -/

theorem bufCap_ge (c : Configuration) : 305 ≤ bufCapOf c := by unfold bufCapOf leastBufCap; omega

theorem bufCap_le (c : Configuration) : bufCapOf c ≤ 65535 := by unfold bufCapOf; omega

theorem transfer_tracks {s : State} (lo : 1 ≤ s.txlen.toNat) (hi : s.txlen.toNat ≤ bufCapOf s.cfg) :
    Run.Tracks s (transfer s) := by
  cases h : s.ioFails 0
  · rw [transfer_up h]
    exact .done _ (.single (.transferred s lo hi)) rfl rfl id
  · rw [transfer_down h]
    exact .raise trivial (.single (.ioDraw s)) rfl

theorem transfer_loadTx_tracks {s : State} {tx : List Byte} (lo : 1 ≤ tx.length) (hi : tx.length ≤ bufCapOf s.cfg) :
    Run.Tracks s (transfer (s.loadTx tx)) := by
  have hc := bufCap_le s.cfg
  have e : (s.loadTx tx).txlen.toNat = tx.length := by
    simp only [State.loadTx_txlen, BitVec.toNat_ofNat]; exact Nat.mod_eq_of_lt (by omega)
  exact .after (.single (.load s tx hi)) rfl rfl id (transfer_tracks (by omega) (by rw [e]; exact hi))

theorem readWindow_tracks {s : State} {n : Nat} (lo : 1 ≤ n) (hi : n ≤ bufCapOf s.cfg) :
    Run.Tracks s (readWindow n s) :=
  transfer_loadTx_tracks (by simpa using lo) (by simpa using hi)

theorem hostAck_tracks (s : State) : Run.Tracks s (hostAck s) :=
  transfer_loadTx_tracks (by simp) (by have := bufCap_ge s.cfg; simp; omega)

theorem receive_tracks {bytes : List Byte} {s : State} (lo : 1 ≤ bytes.length) (hi : bytes.length ≤ bufCapOf s.cfg) :
    Run.Tracks s (receive bytes s) :=
  .after (.single (.targetSends s bytes)) rfl rfl id (readWindow_tracks lo hi)

theorem wait_tracks (d : U64) (s : State) : Run.Tracks s (wait d s) :=
  .done _ (.single (.waited s d)) rfl rfl id

theorem serialize_tracks {i : Instr} {v : Variant} {cmd : Byte} (hv : variantOf i = some v) (hc : cmdOf v = some cmd)
    (s : State) : Run.Tracks s (serialize i s) := by
  have hb := bufCap_ge s.cfg
  by_cases h : WellFormed i
  · rw [serialize_ok hv hc h]
    have := (onWire_length hv hc h).2.2
    exact .done _ (.tail (.single (.setCks s _)) (.load _ _ (by simp only [State.setCks_cfg]; omega))) rfl rfl id
  · rw [serialize_bound hv hc h]
    exact .raise trivial (.refl s) rfl

theorem ackScan_tracks (s : State) : Run.Tracks s (ackScan s) := by
  have hl := State.rxBytes_length s
  rcases window_cases s.rxBytes with ⟨z, w, hr, hz⟩ | ⟨z, w, hr, hz⟩ | hz
  · rw [ackScan_ack hr hz]
    rw [hr] at hl
    exact .done _ (.single (.flagAck s z.length (by simp at hl; omega))) rfl rfl id
  · rw [ackScan_nack hr hz]
    rw [hr] at hl
    exact .raise trivial (.single (.flagNack s z.length (by simp at hl; omega))) rfl
  · rw [ackScan_nothing hz]
    exact .raise trivial (.single (.clearScan s)) rfl

theorem storeFields_steps (v : Variant) (vals : List FieldValue) (s : State) :
    Steps s (storeFields v vals s) ∧ (storeFields v vals s).fault = s.fault ∧ (storeFields v vals s).err = s.err ∧
      (storeFields v vals s).session = s.session := by
  unfold storeFields
  split
  · exact ⟨.single (.setChipId s _), rfl, rfl, rfl⟩
  · exact ⟨.single (.setCrcDevice s _), rfl, rfl, rfl⟩
  · exact ⟨.single (.setStatus s _), rfl, rfl, rfl⟩
  · exact ⟨.refl s, rfl, rfl, rfl⟩

theorem acceptPayload_tracks (v : Variant) {pay : List Byte} (h : pay.length ≤ 253) (s : State) :
    Run.Tracks s (acceptPayload v pay s) := by
  unfold acceptPayload
  split
  · next vals _ =>
    obtain ⟨h1, h2, h3, h4⟩ := storeFields_steps v vals (s.setPayload pay)
    exact .done _ ((Steps.single (.setPayload s pay h)).trans h1) h2 h3 (by rw [h4]; exact id)
  · next e _ => exact .raise (by cases e <;> trivial) (.single (.setPayload s pay h)) rfl

theorem parsePayload_tracks (v : Variant) (p : Nat) (s : State) : Run.Tracks s (parsePayload v p s) := by
  unfold parsePayload
  have hp : (s.rxbuf.readRange (p + 3) (s.rlen.toNat - 2)).length ≤ 253 := by
    have := s.rlen.isLt
    rw [Memory.readRange_length]; omega
  split
  · exact .raise trivial (.refl s) rfl
  · simp only
    split
    · exact .raise trivial (.single (.setCks s _)) rfl
    · exact .after (t := s.setCks (checksum (s.rxbuf.readRange (p + 3) (s.rlen.toNat - 2))))
        (.single (.setCks s _)) rfl rfl id (acceptPayload_tracks v hp _)

theorem parseBounded_tracks (v : Variant) (p : Nat) (s : State) : Run.Tracks s (parseBounded v p s) := by
  unfold parseBounded
  simp only
  have h := Steps.single (.setHeader s (s.rxbuf.read (p + 1)) (s.rxbuf.read (p + 2)))
  split
  · exact .raise trivial h rfl
  · split
    · exact .raise trivial h rfl
    · exact .after h rfl rfl id (parsePayload_tracks v p _)

theorem parseReply_tracks (v : Variant) (s : State) : Run.Tracks s (parseReply v s) := by
  unfold parseReply
  refine .andThen (ackScan_tracks s) fun _ _ => ?_
  split
  · exact .raise trivial (.refl _) rfl
  · exact parseBounded_tracks _ _ _

/-! ## The wire items -/

/-- A request of the table: the wire items SERIALIZE takes (30_encoding.md R64). -/
def isRequest (i : Instr) : Prop := ∃ v cmd, variantOf i = some v ∧ cmdOf v = some cmd

theorem sendOnly_tracks {i : Instr} (hi : isRequest i) (s : State) : Run.Tracks s (sendOnly i s) := by
  obtain ⟨v, cmd, hv, hc⟩ := hi
  have hb := bufCap_ge s.cfg
  unfold sendOnly
  by_cases h : WellFormed i
  · rw [serialize_ok hv hc h, Run.andThen_done]
    obtain ⟨-, lo, hi⟩ := onWire_length hv hc h
    exact .after (t := s.setCks (checksum (cmd :: payloadOf i))) (.single (.setCks s _)) rfl rfl id
      (transfer_loadTx_tracks (tx := encode i ++ zeros (idleOf v)) (by omega) (Nat.le_trans hi hb))
  · rw [serialize_bound hv hc h, Run.andThen_raise]
    exact .raise trivial (.refl s) rfl

theorem sendBareAck_tracks {i : Instr} (hi : isRequest i) (s : State) : Run.Tracks s (sendBareAck i s) :=
  .andThen (sendOnly_tracks hi s) fun _ _ => ackScan_tracks _

theorem parseThenAck_tracks (v : Variant) (s : State) : Run.Tracks s (parseThenAck v s) :=
  .andThen (parseReply_tracks v s) fun _ _ => .andThen (hostAck_tracks _) fun _ _ => .done _ (.refl _) rfl rfl id

theorem sendForReply_tracks {i : Instr} (hi : isRequest i) (v : Variant) (s : State) :
    Run.Tracks s (sendForReply i v s) :=
  .andThen (sendOnly_tracks hi s) fun _ _ => parseThenAck_tracks v _

theorem receiveReply_tracks {v : Variant} {packet : List Byte} {s : State} (h : packet.length + 1 ≤ bufCapOf s.cfg) :
    Run.Tracks s (receiveReply v packet s) :=
  .andThen (receive_tracks (by simp) (by simpa using h)) fun _ _ => parseReply_tracks v _

theorem receiveSentinel_tracks {bytes : List Byte} {s : State} (lo : 1 ≤ bytes.length)
    (hi : bytes.length ≤ bufCapOf s.cfg) : Run.Tracks s (receiveSentinel bytes s) :=
  .andThen (receive_tracks lo hi) fun _ _ => ackScan_tracks _

end Sys2Proof.Machine
end

