-- ==== Sys2Proof/Laws/Requests.lean ====
section
/-! SUPPORT. One lemma per shape of 44_sequencer.md R170: what a request does over a working link, over a failing one, and when
it misses its bounds. -/

namespace Sys2Proof.Machine

open Sys2Proof

/-- The state after a request's own transfer. -/
def State.sent (s : State) (cmd : Byte) (v : Variant) (i : Instr) : State :=
  (s.setCks (checksum (cmd :: payloadOf i))).exchanged (encode i ++ zeros (idleOf v))

theorem sendOnly_up {i : Instr} {v : Variant} {cmd : Byte} (hv : variantOf i = some v) (hc : cmdOf v = some cmd)
    (h : WellFormed i) {s : State} (hl : s.ioFails 0 = false) : sendOnly i s = Run.done () (s.sent cmd v i) := by
  have hw := (onWire_length hv hc h).2.2
  unfold sendOnly
  rw [serialize_ok hv hc h, Run.andThen_done]
  exact transfer_loadTx_up (s := s.setCks _) (by omega) hl

theorem sendOnly_down {i : Instr} {v : Variant} {cmd : Byte} (hv : variantOf i = some v) (hc : cmdOf v = some cmd)
    (h : WellFormed i) {s : State} (hl : s.ioFails 0 = true) :
    sendOnly i s = Run.raise .transport
      { s with
        cksacc := checksum (cmd :: payloadOf i)
        txbuf := s.txbuf.writeRange 0 (encode i ++ zeros (idleOf v))
        txlen := BitVec.ofNat 16 (encode i ++ zeros (idleOf v)).length
        env := s.envAfter 1 0 0 } := by
  unfold sendOnly
  rw [serialize_ok hv hc h, Run.andThen_done]
  exact transfer_loadTx_down (s := s.setCks _) hl

theorem sendOnly_bound {i : Instr} {v : Variant} {cmd : Byte} (hv : variantOf i = some v) (hc : cmdOf v = some cmd)
    (h : ¬ WellFormed i) (s : State) :
    sendOnly i s = Run.raise (.boundViolation .atSerialize (3 + (payloadOf i).length)) s := by
  unfold sendOnly
  rw [serialize_bound hv hc h, Run.andThen_raise]

/-- The window after a request's transfer. -/
theorem State.rxBytes_sent {i : Instr} {v : Variant} {cmd : Byte} (hv : variantOf i = some v) (hc : cmdOf v = some cmd)
    (h : WellFormed i) (s : State) :
    (s.sent cmd v i).rxBytes = s.capture (encode i ++ zeros (idleOf v)).length := by
  have hw := (onWire_length hv hc h).2.2
  exact State.rxBytes_exchanged (s.setCks _) (by omega)

theorem State.ioFails_sent (s : State) (cmd : Byte) (v : Variant) (i : Instr) (k : Nat) :
    (s.sent cmd v i).ioFails k = s.ioFails (1 + k) := State.ioFails_exchanged (s.setCks _) _ k

/-- A reply packet in the window, and a working link for the host ACK (44_sequencer.md R170 shape B). -/
theorem parseThenAck_up {s : State} {v : Variant} {z pay w : List Byte} {vals : List FieldValue} (hz : SentinelFree z)
    (hr : s.rxBytes = z ++ ackByte :: replyPacket pay ++ w) (lo : minLen v ≤ 3 + pay.length)
    (hi : 3 + pay.length ≤ maxLen v) (hd : decodeFields (fieldsOf v) pay = .ok vals) (hl : s.ioFails 0 = false) :
    parseThenAck v s = Run.done vals ((storeFields v vals
      (s.parsed z.length (BitVec.ofNat 8 (2 + pay.length)) (checksum pay) pay)).exchanged [ackByte]) := by
  have e : ∀ t : State, (storeFields v vals t).env = t.env ∧ (storeFields v vals t).cfg = t.cfg := fun t => by
    unfold storeFields; split <;> exact ⟨rfl, rfl⟩
  unfold parseThenAck
  rw [parseReply_accepts hz hr lo hi]
  simp only [hd, Run.andThen_done]
  rw [hostAck_up]
  · rfl
  · generalize hp : s.parsed z.length (BitVec.ofNat 8 (2 + pay.length)) (checksum pay) pay = p
    have h1 : (storeFields v vals p).env = s.env := by rw [(e p).1, ← hp]; rfl
    have h2 : (storeFields v vals p).cfg = s.cfg := by rw [(e p).2, ← hp]; rfl
    unfold State.ioFails at hl ⊢
    rw [h1, h2]
    exact hl

/-- SERIALIZE, TRANSFER, PARSE_REPLY, HOST_ACK with a reply in the window (44_sequencer.md R170 shape B). -/
theorem sendForReply_up {s : State} {i : Instr} {v w : Variant} {cmd : Byte} {z pay rest : List Byte}
    {vals : List FieldValue} (hv : variantOf i = some v) (hc : cmdOf v = some cmd) (h : WellFormed i)
    (hz : SentinelFree z)
    (hr : s.capture (encode i ++ zeros (idleOf v)).length = z ++ ackByte :: replyPacket pay ++ rest)
    (lo : minLen w ≤ 3 + pay.length) (hi : 3 + pay.length ≤ maxLen w)
    (hd : decodeFields (fieldsOf w) pay = .ok vals) (hl : LinkUp s 2) :
    sendForReply i w s = Run.done vals ((storeFields w vals
      ((s.sent cmd v i).parsed z.length (BitVec.ofNat 8 (2 + pay.length)) (checksum pay) pay)).exchanged [ackByte]) := by
  unfold sendForReply
  rw [sendOnly_up hv hc h (hl 0 (by decide)), Run.andThen_done]
  exact parseThenAck_up hz (by rw [State.rxBytes_sent hv hc h, hr]) lo hi hd
    (by rw [State.ioFails_sent]; exact hl 1 (by decide))

/-- What comes next on the wire after a run that consumed so much. -/
theorem State.capture_of_env {s t : State} {a b c : Nat} (he : t.env = s.envAfter a b c) (n : Nat) :
    t.capture n = s.window b n := by
  unfold State.capture State.window
  exact List.map_congr_left fun k _ => State.misoAhead_of_env he k

theorem whenOpen_open {α : Type} {value : α → OpValue} {s : State} {r : Run α} (h : sessionOpen s.session = true) :
    whenOpen value s r = r.finish value := by
  unfold whenOpen; rw [if_pos h]

theorem laidOver_writeRange (m : Memory) (bytes : List Byte) : LaidOver (m.writeRange 0 bytes) m bytes :=
  fun a => Memory.read_writeRange_zero m a bytes

/-- A shorter range laid over a longer one. -/
theorem laidOver_twice (m : Memory) (a b : List Byte) :
    LaidOver ((m.writeRange 0 b).writeRange 0 a) m (a ++ b.drop a.length) := by
  intro k
  rw [Memory.read_writeRange_zero, Memory.read_writeRange_zero, List.getElem?_append, List.getElem?_drop]
  by_cases hk : k < a.length
  · simp [hk]
  · rw [if_neg hk, show a.length + (k - a.length) = k by omega, List.getElem?_eq_none (by omega)]
    rfl

/-- The bytes a target sends first are what a READ of their length captures (log 11). -/
theorem State.capture_targetSends (s : State) (bytes : List Byte) :
    (s.targetSends bytes).capture bytes.length = bytes := by
  unfold State.capture State.misoAhead State.targetSends Tape.putFirst Tape.ahead
  apply List.ext_getElem (by simp)
  intro k h1 h2
  simp [List.getElem?_append_left h2, h2]

/-- After them the tape is as it was. -/
theorem State.envAfter_targetSends (s : State) (bytes : List Byte) :
    (s.targetSends bytes).envAfter 1 bytes.length 1 = s.envAfter 1 0 1 := by
  unfold State.envAfter State.targetSends Tape.putFirst
  simp [Tape.advance]

/-- The state after a READ in which the target sends exactly these bytes (log 11). -/
def State.received (s : State) (bytes : List Byte) : State :=
  { s with
    txbuf := s.txbuf.writeRange 0 (zeros bytes.length)
    txlen := BitVec.ofNat 16 bytes.length
    rxbuf := s.rxbuf.writeRange 0 bytes
    rxlen := BitVec.ofNat 16 bytes.length
    now := endTime s.now (exchangeMinNs s.cfg bytes.length) (s.clockAhead 0)
    trace := s.trace ++ [.xfer (zeros bytes.length) bytes s.now
      (endTime s.now (exchangeMinNs s.cfg bytes.length) (s.clockAhead 0))]
    env := s.envAfter 1 0 1 }

theorem receive_up {s : State} {bytes : List Byte} (hb : bytes.length < 65536) (hl : s.ioFails 0 = false) :
    receive bytes s = Run.done () (s.received bytes) := by
  unfold receive
  rw [readWindow_up (s := s.targetSends bytes) hb hl]
  unfold State.exchanged
  simp only [length_zeros]
  rw [State.capture_targetSends, State.envAfter_targetSends]
  rfl

theorem State.rxBytes_received (s : State) {bytes : List Byte} (hb : bytes.length < 65536) :
    (s.received bytes).rxBytes = bytes := by
  unfold State.rxBytes State.received
  simp only [BitVec.toNat_ofNat, Nat.mod_eq_of_lt hb]
  exact Memory.readRange_writeRange _ _ _

end Sys2Proof.Machine
end

