-- ==== Sys2Proof/Laws/Completed.lean ====
section
/-! SUPPORT. The converse of Laws/Requests.lean: what is known of an operation that completed without an error. -/

namespace Sys2Proof.Machine

open Sys2Proof

theorem transfer_loadTx_completed {s : State} {tx : List Byte} (hl : tx.length < 65536)
    (h : (transfer (s.loadTx tx)).out = .ok ()) :
    s.ioFails 0 = false ∧ transfer (s.loadTx tx) = Run.done () (s.exchanged tx) := by
  cases hf : s.ioFails 0 with
  | false => exact ⟨rfl, transfer_loadTx_up hl hf⟩
  | true => rw [transfer_loadTx_down hf] at h; cases h

theorem sendOnly_completed {i : Instr} {v : Variant} {cmd : Byte} (hv : variantOf i = some v) (hc : cmdOf v = some cmd)
    {s : State} (h : (sendOnly i s).out = .ok ()) :
    WellFormed i ∧ s.ioFails 0 = false ∧ sendOnly i s = Run.done () (s.sent cmd v i) := by
  by_cases hw : WellFormed i
  · cases hf : s.ioFails 0 with
    | false => exact ⟨hw, rfl, sendOnly_up hv hc hw hf⟩
    | true => rw [sendOnly_down hv hc hw hf] at h; cases h
  · rw [sendOnly_bound hv hc hw] at h; cases h

theorem ackScan_completed {s : State} (h : (ackScan s).out = .ok ()) :
    ∃ z w, s.rxBytes = z ++ ackByte :: w ∧ SentinelFree z ∧ ackScan s = Run.done () (s.flagAck z.length) := by
  rcases window_cases s.rxBytes with ⟨z, w, hr, hz⟩ | ⟨z, w, hr, hz⟩ | hz
  · exact ⟨z, w, hr, hz, ackScan_ack hr hz⟩
  · rw [ackScan_nack hr hz] at h; cases h
  · rw [ackScan_nothing hz] at h; cases h

theorem acceptPayload_completed {v : Variant} {pay : List Byte} {s : State} {vals : List FieldValue}
    (h : (acceptPayload v pay s).out = .ok vals) : decodeFields (fieldsOf v) pay = .ok vals := by
  unfold acceptPayload at h
  split at h
  · next u hu => injection h with h; rw [hu, h]
  · cases h

/-- PARSE_REPLY completes only over a window that holds the ACK and a whole reply packet with the right checksum
(41_framer.md R116). -/
theorem parseReply_completed {s : State} {v : Variant} {vals : List FieldValue} (h : (parseReply v s).out = .ok vals) :
    ∃ z pay w, SentinelFree z ∧ s.rxBytes = z ++ ackByte :: replyPacket pay ++ w ∧ minLen v ≤ 3 + pay.length ∧
      3 + pay.length ≤ maxLen v ∧ decodeFields (fieldsOf v) pay = .ok vals := by
  have hmin := minLen_ge v
  have hmax := maxLen_le v
  obtain ⟨u, hu, -, h⟩ := Run.andThen_ok h
  obtain ⟨z, w, hr, hz, e⟩ := ackScan_completed hu
  rw [e] at h
  change (if s.rxlen.toNat < (BitVec.ofNat 16 z.length).toNat + 3 then Run.raise .packetTooShort (s.flagAck z.length)
    else parseBounded v (BitVec.ofNat 16 z.length).toNat (s.flagAck z.length)).out = .ok vals at h
  have hlen : s.rxlen.toNat = z.length + 1 + w.length := by rw [← State.rxBytes_length, hr]; simp; omega
  have hz16 : z.length < 65536 := by have := s.rxlen.isLt; omega
  rw [BitVec.toNat_ofNat, Nat.mod_eq_of_lt hz16] at h
  split at h
  · cases h
  next h3 =>
  obtain ⟨len, cks, rest, rfl⟩ : ∃ len cks rest, w = len :: cks :: rest := by
    rcases w with _ | ⟨a, _ | ⟨b, rest⟩⟩
    · simp at hlen; omega
    · simp at hlen; omega
    · exact ⟨a, b, rest, rfl⟩
  have h1 : s.rxbuf.read (z.length + 1) = len := by
    rw [State.rxbuf_read_of_rxBytes hr (by simp), List.getElem_append_right (by omega)]; simp
  have h2 : s.rxbuf.read (z.length + 2) = cks := by
    rw [State.rxbuf_read_of_rxBytes hr (by simp), List.getElem_append_right (by omega)]; simp
  unfold parseBounded at h
  simp only [State.flagAck_rxbuf, h1, h2, State.setHeader_rlen] at h
  split at h
  · cases h
  next lo =>
  split at h
  · cases h
  next hi =>
  unfold parsePayload at h
  split at h
  · cases h
  next hs =>
  simp only [State.setHeader_rlen, State.setHeader_rxlen, State.flagAck_rxlen] at hs
  simp only [List.length_cons] at hlen
  have hrest : len.toNat - 2 ≤ rest.length := by omega
  have hp : s.rxbuf.readRange (z.length + 3) (len.toNat - 2) = rest.take (len.toNat - 2) := by
    have e : s.rxBytes = (z ++ [ackByte, len, cks]) ++ rest.take (len.toNat - 2) ++ rest.drop (len.toNat - 2) := by
      rw [hr]; simp
    have := State.rxbuf_readRange_of_rxBytes e
    simpa [Nat.min_eq_left hrest] using this
  dsimp only at h
  split at h
  · cases h
  next hc =>
  simp only [State.setHeader_rlen, State.setHeader_rcks, State.setHeader_rxbuf, State.flagAck_rxbuf, hp] at h hc
  have hl : (rest.take (len.toNat - 2)).length = len.toNat - 2 := by rw [List.length_take]; omega
  refine ⟨z, rest.take (len.toNat - 2), rest.drop (len.toNat - 2), hz, ?_, by omega, by omega, acceptPayload_completed h⟩
  have hlb : BitVec.ofNat 8 (2 + (rest.take (len.toNat - 2)).length) = len := by
    rw [hl, show 2 + (len.toNat - 2) = len.toNat by omega]; simp
  have hcc : checksum (rest.take (len.toNat - 2)) = cks := by simpa using hc
  rw [hr]
  unfold replyPacket
  rw [hcc, hlb]
  simp

/-- PARSE_REPLY and HOST_ACK completed: the reply lies in the window, and the state is known. -/
theorem parseThenAck_completed {s : State} {v : Variant} {vals : List FieldValue}
    (h : (parseThenAck v s).out = .ok vals) :
    ∃ z pay w, SentinelFree z ∧ s.rxBytes = z ++ ackByte :: replyPacket pay ++ w ∧
      minLen v ≤ 3 + pay.length ∧ 3 + pay.length ≤ maxLen v ∧
      decodeFields (fieldsOf v) pay = .ok vals ∧
      parseThenAck v s = Run.done vals ((storeFields v vals
        (s.parsed z.length (BitVec.ofNat 8 (2 + pay.length)) (checksum pay) pay)).exchanged [ackByte]) := by
  obtain ⟨vals', h1, e1, h⟩ := Run.andThen_ok h
  obtain ⟨z, pay, w, hz, hr, lo, hi, hd⟩ := parseReply_completed h1
  have e2 := parseReply_accepts hz hr lo hi
  rw [hd] at e2
  simp only at e2
  change parseThenAck v s = _ at e1
  rw [e2] at h e1
  obtain ⟨u, h2, e3, h⟩ := Run.andThen_ok h
  obtain ⟨-, e4⟩ := transfer_loadTx_completed (by decide) h2
  injection h with h
  subst h
  refine ⟨z, pay, w, hz, hr, lo, hi, hd, ?_⟩
  simp only [Run.done_state] at e1 e4
  rw [e1, hostAck, e4]
  rfl

theorem sendForReply_completed {i : Instr} {v x : Variant} {cmd : Byte} (hv : variantOf i = some v)
    (hc : cmdOf v = some cmd) {s : State} {vals : List FieldValue} (h : (sendForReply i x s).out = .ok vals) :
    ∃ z pay w, SentinelFree z ∧
      s.capture (encode i ++ zeros (idleOf v)).length = z ++ ackByte :: replyPacket pay ++ w ∧
      minLen x ≤ 3 + pay.length ∧ 3 + pay.length ≤ maxLen x ∧
      decodeFields (fieldsOf x) pay = .ok vals ∧
      sendForReply i x s = Run.done vals ((storeFields x vals ((s.sent cmd v i).parsed z.length
        (BitVec.ofNat 8 (2 + pay.length)) (checksum pay) pay)).exchanged [ackByte]) := by
  obtain ⟨u, h1, e1, h⟩ := Run.andThen_ok h
  obtain ⟨hw, -, e2⟩ := sendOnly_completed hv hc h1
  change sendForReply i x s = _ at e1
  rw [e2] at h e1
  obtain ⟨z, pay, w, hz, hr, lo, hi, hd, e3⟩ := parseThenAck_completed h
  simp only [Run.done_state] at hr
  rw [State.rxBytes_sent hv hc hw] at hr
  exact ⟨z, pay, w, hz, hr, lo, hi, hd, e1.trans e3⟩

theorem sendBareAck_completed {i : Instr} {v : Variant} {cmd : Byte} (hv : variantOf i = some v)
    (hc : cmdOf v = some cmd) {s : State} (h : (sendBareAck i s).out = .ok ()) :
    ∃ z w, SentinelFree z ∧ s.capture (encode i ++ zeros (idleOf v)).length = z ++ ackByte :: w ∧
      sendBareAck i s = Run.done () ((s.sent cmd v i).flagAck z.length) := by
  obtain ⟨u, h1, e1, h⟩ := Run.andThen_ok h
  obtain ⟨hw, -, e2⟩ := sendOnly_completed hv hc h1
  change sendBareAck i s = _ at e1
  rw [e2] at h e1
  obtain ⟨z, w, hr, hz, e3⟩ := ackScan_completed h
  simp only [Run.done_state] at hr
  rw [State.rxBytes_sent hv hc hw] at hr
  exact ⟨z, w, hz, hr, e1.trans e3⟩

/-- Shape C with a bare ACK completed: its window holds the ACK. -/
theorem sendWaitAck_completed {i : Instr} {v : Variant} {cmd : Byte} (hv : variantOf i = some v)
    (hc : cmdOf v = some cmd) {d : U64} {n : Nat} (hn : n < 65536) {s : State} (h : (sendWaitAck i d n s).out = .ok ()) :
    WellFormed i ∧ ∃ z w, SentinelFree z ∧ (waitAtLeast d (s.sent cmd v i)).capture n = z ++ ackByte :: w ∧
      sendWaitAck i d n s =
        Run.done () (((waitAtLeast d (s.sent cmd v i)).exchanged (zeros n)).flagAck z.length) := by
  obtain ⟨u, h1, e1, h⟩ := Run.andThen_ok h
  obtain ⟨hw, -, e2⟩ := sendOnly_completed hv hc h1
  change sendWaitAck i d n s = _ at e1
  rw [e2] at h e1
  simp only [Run.done_state, wait, Run.andThen_done] at h e1
  obtain ⟨u, h2, e3, h⟩ := Run.andThen_ok h
  obtain ⟨-, e4⟩ := transfer_loadTx_completed (tx := zeros n) (by simpa using hn) h2
  rw [e3] at e1
  rw [readWindow, e4] at h e1
  obtain ⟨z, w, hr, hz, e5⟩ := ackScan_completed h
  simp only [Run.done_state] at hr
  rw [State.rxBytes_exchanged _ (by simpa using hn), length_zeros] at hr
  exact ⟨hw, z, w, hz, hr, e1.trans e5⟩

/-- Shape C with a reply completed. -/
theorem sendWaitReply_completed {i : Instr} {v x : Variant} {cmd : Byte} (hv : variantOf i = some v)
    (hc : cmdOf v = some cmd) {d : U64} {n : Nat} (hn : n < 65536) {s : State} {vals : List FieldValue}
    (h : (sendWaitReply i d n x s).out = .ok vals) :
    ∃ z pay w, SentinelFree z ∧
      (waitAtLeast d (s.sent cmd v i)).capture n = z ++ ackByte :: replyPacket pay ++ w ∧
      minLen x ≤ 3 + pay.length ∧ 3 + pay.length ≤ maxLen x ∧
      decodeFields (fieldsOf x) pay = .ok vals ∧
      sendWaitReply i d n x s = Run.done vals ((storeFields x vals
        (((waitAtLeast d (s.sent cmd v i)).exchanged (zeros n)).parsed z.length
          (BitVec.ofNat 8 (2 + pay.length)) (checksum pay) pay)).exchanged [ackByte]) := by
  obtain ⟨u, h1, e1, h⟩ := Run.andThen_ok h
  obtain ⟨hw, -, e2⟩ := sendOnly_completed hv hc h1
  change sendWaitReply i d n x s = _ at e1
  rw [e2] at h e1
  simp only [Run.done_state, wait, Run.andThen_done] at h e1
  obtain ⟨u, h2, e3, h⟩ := Run.andThen_ok h
  obtain ⟨-, e4⟩ := transfer_loadTx_completed (tx := zeros n) (by simpa using hn) h2
  rw [e3] at e1
  rw [readWindow, e4] at h e1
  obtain ⟨z, pay, w, hz, hr, lo, hi, hd, e5⟩ := parseThenAck_completed h
  simp only [Run.done_state] at hr
  rw [State.rxBytes_exchanged _ (by simpa using hn), length_zeros] at hr
  exact ⟨z, pay, w, hz, hr, lo, hi, hd, e1.trans e5⟩

/-- One reply field of 32 bits: the payload is its encoding. -/
theorem decodeFields_word {pay : List Byte} {vals : List FieldValue} (h : decodeFields [.u32] pay = .ok vals)
    (hl : pay.length = 4) : ∃ v, vals = [.u32 v] ∧ pay = be32 v := by
  rcases pay with _ | ⟨a, _ | ⟨b, _ | ⟨c, _ | ⟨d, _ | ⟨e, pay⟩⟩⟩⟩⟩ <;> simp at hl
  injection h with h
  exact ⟨fromBe32 a b c d, h.symm, (be32_fromBe32 a b c d).symm⟩

/-- One reply field of a status: the payload is its code. -/
theorem decodeFields_status {pay : List Byte} {vals : List FieldValue} (h : decodeFields [.status] pay = .ok vals)
    (hl : pay.length = 1) : ∃ v, vals = [.status v] ∧ pay = [statusCode v] := by
  rcases pay with _ | ⟨b, _ | ⟨c, r⟩⟩ <;> simp at hl
  unfold decodeFields at h
  split at h
  · next v hv =>
    injection h with h
    exact ⟨v, h.symm, by rw [statusCode_of_statusOfCode hv]⟩
  · cases h

/-- CheckStatus completed: the reply was Success (44_sequencer.md R180). -/
theorem checkStatus_completed {s : State} (h : (checkStatus s).out = .ok ()) :
    ∃ z w, SentinelFree z ∧ s.capture 35 = z ++ [0xCC#8, 0x03#8, 0x40#8, 0x40#8] ++ w ∧
      checkStatus s = Run.done () ((storeFields .commandStatus [.status .success]
        ((s.sent 0x23#8 .getStatus .getStatus).parsed z.length 3#8 0x40#8 [0x40#8])).exchanged [ackByte]) := by
  obtain ⟨vals, h1, e1, h⟩ := Run.andThen_ok h
  obtain ⟨z, pay, w, hz, hr, lo, hi, hd, e2⟩ := sendForReply_completed (v := .getStatus) (cmd := 0x23#8) rfl rfl h1
  change checkStatus s = _ at e1
  rw [e2] at h e1
  simp only [Run.done_state] at h e1
  have hl : pay.length = 1 := by simp only [minLen, maxLen] at lo hi; omega
  obtain ⟨v, rfl, rfl⟩ := decodeFields_status hd hl
  by_cases hv : v = .success
  · subst hv
    exact ⟨z, w, hz, hr, e1.trans (if_pos rfl)⟩
  · change (if v = .success then Run.done () _ else Run.raise (α := Unit) _ _).out = _ at h
    rw [if_neg hv] at h
    cases h

/-- The crc query completed: CRC_DEVICE is what a reply in the 16-byte window said (44_sequencer.md R175). -/
theorem crcQuery_completed {s : State} {a n v : U32} (h : (crcQuery a n s).out = .ok v) :
    ∃ z w, SentinelFree z ∧
      (waitAtLeast (crc32Wait n) ((s.setSession .operational).sent 0x27#8 .crc32 (.crc32 a n 0#32))).capture 16 =
        z ++ ackByte :: replyPacket (be32 v) ++ w ∧
      crcQuery a n s = Run.done v ((storeFields .crc32Reply [.u32 v]
        (((waitAtLeast (crc32Wait n)
          ((s.setSession .operational).sent 0x27#8 .crc32 (.crc32 a n 0#32))).exchanged (zeros 16)).parsed z.length
            6#8 (checksum (be32 v)) (be32 v))).exchanged [ackByte]) := by
  obtain ⟨vals, h1, e1, h2⟩ := Run.andThen_ok h
  obtain ⟨z, pay, w, hz, hr, lo, hi, hd, e2⟩ :=
    sendWaitReply_completed (v := .crc32) (cmd := 0x27#8) rfl rfl (by decide) h1
  change crcQuery a n s = _ at e1
  rw [e2] at h2 e1
  injection h2 with h2
  obtain ⟨x, rfl, rfl⟩ := decodeFields_word hd (by simp only [minLen, maxLen] at lo hi; omega)
  change x = v at h2
  subst h2
  exact ⟨z, w, hz, hr, e1⟩

/-- A procedure that answers a next state was accepted and ran. -/
theorem execProcedure_next {p : Procedure} {s t : State} (h : execProcedure p s = .next t) :
    procedureAccepted p s.session = true ∧ runProcedure p s = .next t := by
  unfold execProcedure at h
  split at h
  · next ha =>
    refine ⟨ha, ?_⟩
    split at h
    · cases h
    · exact h
  · cases h

/-- A procedure that returned a value ran to its end without an error. -/
theorem Run.finishProcedure_value {α : Type} {value : α → OpValue} {r : Run α} {t : State}
    (h : r.finishProcedure value = .next t) {v : OpValue} (hv : t.result = .value v) :
    ∃ a, r.out = .ok a ∧ v = value a ∧ t = r.state.setResult (.value (value a)) := by
  injection h with h
  subst h
  rcases ho : r.out with k | a
  · exfalso
    simp only [State.setResult, Run.wrapped, ho] at hv
    cases k <;> cases hv
  · simp only [State.setResult, Run.wrapped, ho] at hv ⊢
    injection hv with hv
    exact ⟨a, rfl, hv.symm, rfl⟩

end Sys2Proof.Machine
end

