-- ==== Sys2Proof/Laws/Crc.lean ====
section
/-! SUPPORT. The CRC's shift steps are linear over GF(2) (42_crc32.md R131, R133), and eight of them shift the upper bytes
down unchanged. -/

namespace Sys2Proof.Machine

open Sys2Proof

theorem crcShift_xor (a b : U32) : crcShift (a ^^^ b) = crcShift a ^^^ crcShift b := by
  unfold crcShift
  rw [BitVec.getLsbD_xor]
  cases a.getLsbD 0 <;> cases b.getLsbD 0 <;> simp [BitVec.ushiftRight_xor_distrib]
  all_goals (try ac_rfl)
  rw [show ∀ x y z : U32, x ^^^ z ^^^ (y ^^^ z) = x ^^^ y ^^^ (z ^^^ z) from fun x y z => by ac_rfl]
  simp

theorem crcShift8_xor (a b : U32) : crcShift8 (a ^^^ b) = crcShift8 a ^^^ crcShift8 b := by
  unfold crcShift8
  simp only [crcShift_xor]

theorem crcShift_even (a : U32) (h : a.getLsbD 0 = false) : crcShift a = a >>> 1 := by
  unfold crcShift
  rw [h]
  rfl

/-- Eight shifts of a word whose low byte is 0 only shift. -/
theorem crcShift8_low0 (a : U32) (h : ∀ i, i < 8 → a.getLsbD i = false) : crcShift8 a = a >>> 8 := by
  unfold crcShift8
  rw [crcShift_even a (h 0 (by omega))]
  rw [crcShift_even (a >>> 1) (by simpa using h 1 (by omega))]
  rw [crcShift_even (a >>> 1 >>> 1) (by simpa using h 2 (by omega))]
  rw [crcShift_even (a >>> 1 >>> 1 >>> 1) (by simpa using h 3 (by omega))]
  rw [crcShift_even (a >>> 1 >>> 1 >>> 1 >>> 1) (by simpa using h 4 (by omega))]
  rw [crcShift_even (a >>> 1 >>> 1 >>> 1 >>> 1 >>> 1) (by simpa using h 5 (by omega))]
  rw [crcShift_even (a >>> 1 >>> 1 >>> 1 >>> 1 >>> 1 >>> 1) (by simpa using h 6 (by omega))]
  rw [crcShift_even (a >>> 1 >>> 1 >>> 1 >>> 1 >>> 1 >>> 1 >>> 1) (by simpa using h 7 (by omega))]
  simp only [← BitVec.shiftRight_add]

end Sys2Proof.Machine
end

