-- ==== Sys2Proof/Laws/Entry.lean ====
section
/-! SUPPORT. ENTER_BOOTLOADER (40_transport.md R96): the six states it can stop in, and which of its five I/O primitives decides. -/

namespace Sys2Proof.Machine

open Sys2Proof

/-- The end of the reset-low wait. -/
@[irreducible] def State.entryLow (s : State) : U64 := endTime s.now (msToNs s.cfg.resetLowMs).toNat (s.clockAhead 0)

/-- The end of the reset-high wait. -/
@[irreducible] def State.entryHigh (s : State) : U64 := endTime s.entryLow (msToNs s.cfg.resetHighMs).toNat (s.clockAhead 1)

/-- The end of the dummy byte. -/
@[irreducible] def State.entryDummy (s : State) : U64 := endTime s.entryHigh (exchangeMinNs s.cfg 1) (s.clockAhead 2)

/-- The end of the quiet wait. -/
@[irreducible] def State.entryQuiet (s : State) : U64 := endTime s.entryDummy (msToNs s.cfg.blEntryQuietMs).toNat (s.clockAhead 3)

/-- The least times of ENTER_BOOTLOADER's four timed primitives (40_transport.md R96). -/
theorem State.entry_elapsed (s : State) :
    Elapsed s.now (s.cfg.resetLowMs.toNat * 1000000) s.entryLow ∧
      Elapsed s.entryLow (s.cfg.resetHighMs.toNat * 1000000) s.entryHigh ∧
      Elapsed s.entryHigh (exchangeMinNs s.cfg 1) s.entryDummy ∧
      Elapsed s.entryDummy (s.cfg.blEntryQuietMs.toNat * 1000000) s.entryQuiet := by
  simp only [← msToNs_toNat]
  refine ⟨?_, ?_, ?_, ?_⟩
  · unfold State.entryLow; exact endTime_elapsed _ _ _
  · unfold State.entryHigh; exact endTime_elapsed _ _ _
  · unfold State.entryDummy; exact endTime_elapsed _ _ _
  · unfold State.entryQuiet; exact endTime_elapsed _ _ _

/-- After step 1. -/
def State.entry1 (s : State) : State :=
  { s.clearForEntry with
    blEnN := false
    trace := s.trace ++ [.line .blEnN false s.now]
    env := s.envAfter 1 0 0 }

/-- After step 2. -/
def State.entry2 (s : State) : State :=
  { s.clearForEntry with
    blEnN := false
    resetN := false
    now := s.entryLow
    trace := s.trace ++ [.line .blEnN false s.now, .line .resetN false s.now,
      .sleep (msToNs s.cfg.resetLowMs) s.now s.entryLow]
    env := s.envAfter 2 0 1 }

/-- After step 3, with the dummy byte loaded. -/
def State.entry3 (s : State) : State :=
  { s.clearForEntry with
    blEnN := false
    resetN := true
    txbuf := s.txbuf.writeRange 0 [0x00#8]
    txlen := 1#16
    now := s.entryHigh
    trace := s.trace ++ [.line .blEnN false s.now, .line .resetN false s.now,
      .sleep (msToNs s.cfg.resetLowMs) s.now s.entryLow, .line .resetN true s.entryLow,
      .sleep (msToNs s.cfg.resetHighMs) s.entryLow s.entryHigh]
    env := s.envAfter 3 0 2 }

/-- After steps 4 and 5. -/
def State.entry4 (s : State) : State :=
  { s.clearForEntry with
    blEnN := false
    resetN := true
    txbuf := s.txbuf.writeRange 0 [0x00#8]
    txlen := 1#16
    rxbuf := s.rxbuf.writeRange 0 (s.capture 1)
    rxlen := 1#16
    now := s.entryQuiet
    trace := s.trace ++ [.line .blEnN false s.now, .line .resetN false s.now,
      .sleep (msToNs s.cfg.resetLowMs) s.now s.entryLow, .line .resetN true s.entryLow,
      .sleep (msToNs s.cfg.resetHighMs) s.entryLow s.entryHigh,
      .xfer [0x00#8] (s.capture 1) s.entryHigh s.entryDummy,
      .sleep (msToNs s.cfg.blEntryQuietMs) s.entryDummy s.entryQuiet]
    env := s.envAfter 4 1 4 }

/-- After step 6: the session is open. -/
def State.entry5 (s : State) : State :=
  { s.clearForEntry with
    blEnN := true
    resetN := true
    txbuf := s.txbuf.writeRange 0 [0x00#8]
    txlen := 1#16
    rxbuf := s.rxbuf.writeRange 0 (s.capture 1)
    rxlen := 1#16
    now := s.entryQuiet
    trace := s.trace ++ [.line .blEnN false s.now, .line .resetN false s.now,
      .sleep (msToNs s.cfg.resetLowMs) s.now s.entryLow, .line .resetN true s.entryLow,
      .sleep (msToNs s.cfg.resetHighMs) s.entryLow s.entryHigh,
      .xfer [0x00#8] (s.capture 1) s.entryHigh s.entryDummy,
      .sleep (msToNs s.cfg.blEntryQuietMs) s.entryDummy s.entryQuiet, .line .blEnN true s.entryQuiet]
    env := s.envAfter 5 1 4
    session := .entered }

/-- One more I/O draw. -/
def State.drawn (s : State) : State := { s with env := s.envAfter 1 0 0 }

/-- The state in which the k-th I/O primitive of ENTER_BOOTLOADER is tried. -/
def State.entryAt (s : State) : Nat → State
  | 0 => s.clearForEntry
  | 1 => s.entry1
  | 2 => s.entry2
  | 3 => s.entry3
  | _ => s.entry4

/-- A line write, then a wait (40_transport.md R95, R94). -/
theorem lineWait_up {t : State} (pin : Pin) (level : Bool) (f : Configuration → U64) (h : t.ioFails 0 = false) :
    (lineWrite pin level t).andThen (fun _ s => wait (f s.cfg) s) =
      Run.done () { t with
        resetN := if pin = .resetN then level else t.resetN
        blEnN := if pin = .blEnN then level else t.blEnN
        now := endTime t.now (f t.cfg).toNat (t.clockAhead 0)
        trace := t.trace ++ [.line pin level t.now, .sleep (f t.cfg) t.now (endTime t.now (f t.cfg).toNat (t.clockAhead 0))]
        env := t.envAfter 1 0 1 } := by
  rw [lineWrite_up _ _ h, Run.andThen_done, wait, waitAtLeast_eq]
  have hd : State.envAfter (State.driveLine { t with env := t.envAfter 1 0 0 } pin level) 0 0 1 = t.envAfter 1 0 1 :=
    State.envAfter_envAfter (s := t) (t := State.driveLine { t with env := t.envAfter 1 0 0 } pin level) rfl rfl 0 0 1
  have ho : State.clockAhead (State.driveLine { t with env := t.envAfter 1 0 0 } pin level) 0 = t.clockAhead 0 :=
    State.clockAhead_of_env (s := t) (t := State.driveLine { t with env := t.envAfter 1 0 0 } pin level) rfl 0
  rw [hd, ho]
  simp only [State.driveLine, List.append_assoc, List.cons_append, List.nil_append]

theorem entry_stage1 {s : State} (h : s.ioFails 0 = false) :
    lineWrite .blEnN false s.clearForEntry = Run.done () s.entry1 := by
  rw [lineWrite_up (s := s.clearForEntry) _ _ h]
  rfl

theorem entry_stage2 {s : State} (h : s.ioFails 1 = false) :
    (lineWrite .resetN false s.entry1).andThen (fun _ s => wait (msToNs s.cfg.resetLowMs) s) =
      Run.done () s.entry2 := by
  have hi : s.entry1.ioFails 0 = s.ioFails 1 := State.ioFails_of_env (s := s) (t := s.entry1) rfl rfl 0
  have hv : s.entry1.envAfter 1 0 1 = s.envAfter 2 0 1 :=
    State.envAfter_envAfter (s := s) (t := s.entry1) rfl rfl 1 0 1
  have ho : s.entry1.clockAhead 0 = s.clockAhead 0 :=
    State.clockAhead_of_env (s := s) (t := s.entry1) (a := 1) (b := 0) (c := 0) rfl 0
  rw [lineWait_up _ _ (fun c => msToNs c.resetLowMs) (hi.trans h), hv, ho]
  simp only [State.entry1, State.entry2, State.clearForEntry, State.entryLow, reduceCtorEq, if_false, if_true,
    List.append_assoc, List.cons_append, List.nil_append]

theorem entry_stage3 {s : State} (h : s.ioFails 2 = false) :
    ∃ u, (lineWrite .resetN true s.entry2).andThen (fun _ s => wait (msToNs s.cfg.resetHighMs) s) = Run.done () u ∧
      u.loadTx [0x00#8] = s.entry3 := by
  have hi : s.entry2.ioFails 0 = s.ioFails 2 := State.ioFails_of_env (s := s) (t := s.entry2) rfl rfl 0
  have hv : s.entry2.envAfter 1 0 1 = s.envAfter 3 0 2 :=
    State.envAfter_envAfter (s := s) (t := s.entry2) rfl rfl 1 0 1
  have ho : s.entry2.clockAhead 0 = s.clockAhead 1 :=
    State.clockAhead_of_env (s := s) (t := s.entry2) (a := 2) (b := 0) (c := 1) rfl 0
  refine ⟨_, lineWait_up _ _ (fun c => msToNs c.resetHighMs) (hi.trans h), ?_⟩
  rw [hv, ho]
  simp only [State.loadTx, State.entry2, State.entry3, State.clearForEntry, State.entryHigh, reduceCtorEq, if_false,
    if_true, List.append_assoc, List.cons_append, List.nil_append]
  rfl

theorem entry_stage4 {s : State} (h : s.ioFails 3 = false) :
    ∃ u, exchange [0x00#8] s.entry3 = Run.done (s.capture 1) u ∧
      waitAtLeast (msToNs (u.storeRx (s.capture 1)).cfg.blEntryQuietMs) (u.storeRx (s.capture 1)) = s.entry4 := by
  have hi : s.entry3.ioFails 0 = s.ioFails 3 := State.ioFails_of_env (s := s) (t := s.entry3) rfl rfl 0
  have hc : s.entry3.capture 1 = s.capture 1 := by
    unfold State.capture
    exact List.map_congr_left fun k _ => by
      rw [State.misoAhead_of_env (s := s) (t := s.entry3) (a := 3) (b := 0) (c := 2) rfl, Nat.zero_add]
  have hv : s.entry3.envAfter 1 1 1 = s.envAfter 4 1 3 :=
    State.envAfter_envAfter (s := s) (t := s.entry3) rfl rfl 1 1 1
  have ho : s.entry3.clockAhead 0 = s.clockAhead 2 :=
    State.clockAhead_of_env (s := s) (t := s.entry3) (a := 3) (b := 0) (c := 2) rfl 0
  have he := exchange_up (s := s.entry3) [0x00#8] (hi.trans h)
  simp only [List.length_cons, List.length_nil, Nat.zero_add] at he
  rw [hc, hv, ho] at he
  refine ⟨_, he, ?_⟩
  generalize hu : State.storeRx _ (s.capture 1) = u
  have ue : u.env = s.envAfter 4 1 3 := by rw [← hu]; rfl
  have uc : u.cfg = s.cfg := by rw [← hu]; rfl
  rw [waitAtLeast_eq, State.clockAhead_of_env ue 0, State.envAfter_envAfter uc ue, uc, ← hu]
  simp only [State.storeRx, State.entry3, State.entry4, State.entryDummy, State.entryQuiet, State.clearForEntry,
    State.capture_length, List.append_assoc, List.cons_append, List.nil_append]

theorem entry_stage5 {s : State} (h : s.ioFails 4 = false) :
    (lineWrite .blEnN true s.entry4).andThen (fun _ s => Run.done () (s.setSession .entered)) =
      Run.done () s.entry5 := by
  have hi : s.entry4.ioFails 0 = s.ioFails 4 := State.ioFails_of_env (s := s) (t := s.entry4) rfl rfl 0
  have hv : s.entry4.envAfter 1 0 0 = s.envAfter 5 1 4 :=
    State.envAfter_envAfter (s := s) (t := s.entry4) rfl rfl 1 0 0
  rw [lineWrite_up _ _ (hi.trans h), Run.andThen_done, hv]
  simp only [State.setSession, State.driveLine, State.entry4, State.entry5, State.clearForEntry, reduceCtorEq, if_false,
    if_true, List.append_assoc, List.cons_append, List.nil_append]

/-- ENTER_BOOTLOADER stops at its first failing I/O primitive, or completes (40_transport.md R96). -/
theorem enterBootloader_cases (s : State) :
    (∃ k, k < 5 ∧ (∀ j, j < k → s.ioFails j = false) ∧ s.ioFails k = true ∧
        enterBootloader s = Run.raise .transport (s.entryAt k).drawn) ∨
      ((∀ j, j < 5 → s.ioFails j = false) ∧ enterBootloader s = Run.done () s.entry5) := by
  have shape : enterBootloader s =
      (lineWrite .blEnN false s.clearForEntry).andThen fun _ s =>
      ((lineWrite .resetN false s).andThen (fun _ s => wait (msToNs s.cfg.resetLowMs) s)).andThen fun _ s =>
      ((lineWrite .resetN true s).andThen (fun _ s => wait (msToNs s.cfg.resetHighMs) s)).andThen fun _ s =>
      (exchange [0x00#8] (s.loadTx [0x00#8])).andThen fun rx s =>
      (wait (msToNs (s.storeRx rx).cfg.blEntryQuietMs) (s.storeRx rx)).andThen fun _ s =>
      (lineWrite .blEnN true s).andThen fun _ s => Run.done () (s.setSession .entered) := by
    unfold enterBootloader resetPulse dummyByte
    simp only [Run.andThen_assoc, Run.andThen_done]
  rw [shape]
  cases h0 : s.ioFails 0 with
  | true =>
    refine .inl ⟨0, by decide, by simp, h0, ?_⟩
    rw [lineWrite_down (s := s.clearForEntry) _ _ h0]
    rfl
  | false =>
  rw [entry_stage1 h0, Run.andThen_done]
  cases h1 : s.ioFails 1 with
  | true =>
    refine .inl ⟨1, by decide, fun j hj => (by interval_cases j; assumption), h1, ?_⟩
    rw [lineWrite_down (s := s.entry1) _ _
      ((State.ioFails_of_env (s := s) (t := s.entry1) rfl rfl 0).trans h1)]
    rfl
  | false =>
  rw [entry_stage2 h1, Run.andThen_done]
  cases h2 : s.ioFails 2 with
  | true =>
    refine .inl ⟨2, by decide, fun j hj => (by interval_cases j <;> assumption), h2, ?_⟩
    rw [lineWrite_down (s := s.entry2) _ _
      ((State.ioFails_of_env (s := s) (t := s.entry2) rfl rfl 0).trans h2)]
    rfl
  | false =>
  obtain ⟨u, hu, hl⟩ := entry_stage3 h2
  rw [hu, Run.andThen_done, hl]
  cases h3 : s.ioFails 3 with
  | true =>
    refine .inl ⟨3, by decide, fun j hj => (by interval_cases j <;> assumption), h3, ?_⟩
    rw [exchange_down (s := s.entry3) _
      ((State.ioFails_of_env (s := s) (t := s.entry3) rfl rfl 0).trans h3)]
    rfl
  | false =>
  obtain ⟨u', hu', hw⟩ := entry_stage4 h3
  rw [hu', Run.andThen_done, wait, Run.andThen_done, hw]
  cases h4 : s.ioFails 4 with
  | true =>
    refine .inl ⟨4, by decide, fun j hj => (by interval_cases j <;> assumption), h4, ?_⟩
    rw [lineWrite_down (s := s.entry4) _ _
      ((State.ioFails_of_env (s := s) (t := s.entry4) rfl rfl 0).trans h4)]
    rfl
  | false =>
  exact .inr ⟨fun j hj => (by interval_cases j <;> assumption), entry_stage5 h4⟩

end Sys2Proof.Machine
end

