-- ==== Sys2Proof/Laws/Failed.lean ====
section
/-! SUPPORT. The counterpart of Laws/Completed.lean: where TRACE ends when an operation ends in an error (44_sequencer.md R170,
60_exceptions.md R230). `tr` is TRACE before the operation. -/

namespace Sys2Proof.Machine

open Sys2Proof

/-- The errors of ACK_SCAN and PARSE_REPLY (41_framer.md R114, R116, R117). -/
def ErrorKind.ofScan : ErrorKind → Prop
  | .boundViolation .minPayloadNotMet _ => True
  | .boundViolation .maxPayloadExceeded _ => True
  | .noAck => True
  | .nack _ => True
  | .badChecksum _ _ => True
  | .packetTooShort => True
  | .invalidStatusCode _ => True
  | _ => False

/-- TRACE ends with a transfer that is no host ACK, and the window it filled is still in RXBUF. -/
def EndsInWindow (tr : List Event) (s : State) : Prop :=
  ∃ l tx rx t, s.trace = tr ++ l ++ [.xfer tx rx t s.now] ∧ tx ≠ [ackByte] ∧ s.rxBytes = rx

/-- TRACE ends with a host ACK. -/
def EndsInHostAck (tr : List Event) (s : State) : Prop := ∃ l rx t, s.trace = tr ++ l ++ [.xfer [ackByte] rx t s.now]

/-- The first sentinel of the window is an ACK. -/
def AckFirst (s : State) : Prop := ∃ z w, s.rxBytes = z ++ ackByte :: w ∧ SentinelFree z

/-- Which sentinel comes first in the window that a scan error ends with. -/
def Scanned (k : ErrorKind) (s : State) : Prop :=
  (k = .noAck → SentinelFree s.rxBytes) ∧
  (∀ p, k = .nack p → ∃ z w, s.rxBytes = z ++ nackByte :: w ∧ SentinelFree z ∧ p = BitVec.ofNat 16 z.length) ∧
  (k ≠ .noAck → (∀ p, k ≠ .nack p) → AckFirst s)

/-- What the error `k` leaves at the end of TRACE. -/
def EndsAt (tr : List Event) (k : ErrorKind) (s : State) : Prop :=
  (k.ofScan → EndsInWindow tr s ∧ Scanned k s) ∧ (∀ c, k = .verification c → EndsInHostAck tr s)

/-- An operation only extended TRACE; without an error it left `Q`, with one nothing follows what failed. -/
structure Run.Ends {α : Type} (tr : List Event) (Q : State → Prop) (r : Run α) : Prop where
  grows : tr <+: r.state.trace
  ok : ∀ a, r.out = .ok a → Q r.state
  error : ∀ k, r.out = .error k → EndsAt tr k r.state

variable {tr : List Event} {Q R : State → Prop} {α β : Type}

theorem EndsInWindow.prefix {s : State} (w : EndsInWindow tr s) : tr <+: s.trace := by
  obtain ⟨l, tx, rx, t, h, -⟩ := w
  rw [h, List.append_assoc]; exact List.prefix_append _ _

theorem EndsInHostAck.prefix {s : State} (w : EndsInHostAck tr s) : tr <+: s.trace := by
  obtain ⟨l, rx, t, h⟩ := w
  rw [h, List.append_assoc]; exact List.prefix_append _ _

theorem EndsInWindow.congr {s t : State} (w : EndsInWindow tr s) (h1 : t.trace = s.trace) (h2 : t.now = s.now)
    (h3 : t.rxBytes = s.rxBytes) : EndsInWindow tr t := by
  obtain ⟨l, tx, rx, t0, h, a, b⟩ := w
  exact ⟨l, tx, rx, t0, by rw [h1, h2, h], a, h3.trans b⟩

theorem EndsInHostAck.congr {s t : State} (w : EndsInHostAck tr s) (h1 : t.trace = s.trace) (h2 : t.now = s.now) :
    EndsInHostAck tr t := by
  obtain ⟨l, rx, t0, h⟩ := w
  exact ⟨l, rx, t0, by rw [h1, h2, h]⟩

/-- The answer of a request leaves TRACE and RXBUF as they are. -/
theorem EndsAt.setResult {k : ErrorKind} {s : State} (h : EndsAt tr k s) (r : Response) : EndsAt tr k (s.setResult r) :=
  ⟨fun x => ⟨(h.1 x).1.congr rfl rfl rfl, (h.1 x).2⟩, fun c x => (h.2 c x).congr rfl rfl⟩

/-- An error that is neither the scan's nor Verification says nothing of TRACE's end. -/
theorem EndsAt.other {k : ErrorKind} (hk : ¬ k.ofScan) (hv : ∀ c, k ≠ .verification c) (s : State) : EndsAt tr k s :=
  ⟨fun h => absurd h hk, fun c h => absurd h (hv c)⟩

theorem Run.Ends.andThen {r : Run α} {f : α → State → Run β} (h : Run.Ends tr Q r)
    (g : ∀ a s, tr <+: s.trace → Q s → Run.Ends tr R (f a s)) : Run.Ends tr R (r.andThen f) := by
  rcases Run.andThen_cases r f with ⟨k, hk, e⟩ | ⟨a, ha, e⟩
  · rw [e]
    exact ⟨h.grows, fun a h => (by cases h), fun k' h' => (by cases h'; exact h.error k hk)⟩
  · rw [e]
    exact g a _ h.grows (h.ok a ha)

theorem Run.Ends.done {a : α} {s : State} (h : tr <+: s.trace) (q : Q s) : Run.Ends tr Q (Run.done a s) :=
  ⟨h, fun _ _ => q, fun k h => by cases h⟩

theorem Run.Ends.raise {k : ErrorKind} {s : State} (h : tr <+: s.trace) (q : EndsAt tr k (s.takeError k)) :
    Run.Ends tr Q (Run.raise (α := α) k s) :=
  ⟨h, fun _ h => (by cases h), fun k' h => (by cases h; exact q)⟩

theorem Run.Ends.mono {r : Run α} (h : Run.Ends tr Q r) (g : ∀ s, Q s → R s) : Run.Ends tr R r :=
  ⟨h.grows, fun a x => g _ (h.ok a x), h.error⟩

/-- Verification right after a host ACK. -/
theorem Run.Ends.verification {c : VerifyCause} {s : State} (w : EndsInHostAck tr s) :
    Run.Ends tr Q (Run.raise (α := α) (.verification c) s) :=
  .raise w.prefix ⟨fun h => absurd h id, fun _ _ => w.congr rfl rfl⟩

/-! ## The operations -/

theorem transfer_loadTx_ends {s : State} {tx : List Byte} (h : tr <+: s.trace) (hl : tx.length < 65536) :
    Run.Ends tr (fun t => ∃ l rx t0, t.trace = tr ++ l ++ [.xfer tx rx t0 t.now] ∧ t.rxBytes = rx)
      (transfer (s.loadTx tx)) := by
  obtain ⟨l, h⟩ := h
  cases hf : s.ioFails 0
  · rw [transfer_loadTx_up hl hf]
    refine .done ?_ ⟨l, s.capture tx.length, s.now, ?_, s.rxBytes_exchanged hl⟩
    · rw [State.exchanged_trace, ← h, List.append_assoc]; exact List.prefix_append _ _
    · rw [State.exchanged_trace, h]
  · rw [transfer_loadTx_down hf]
    exact .raise ⟨l, h⟩ (.other id (by simp) _)

/-- A transfer that is no host ACK. -/
theorem transfer_window_ends {s : State} {tx : List Byte} (h : tr <+: s.trace) (hl : tx.length < 65536)
    (hne : tx ≠ [ackByte]) : Run.Ends tr (EndsInWindow tr) (transfer (s.loadTx tx)) :=
  (transfer_loadTx_ends h hl).mono fun _ ⟨l, rx, t0, a, b⟩ => ⟨l, tx, rx, t0, a, hne, b⟩

theorem hostAck_ends {s : State} (h : tr <+: s.trace) : Run.Ends tr (EndsInHostAck tr) (hostAck s) :=
  (transfer_loadTx_ends h (by decide)).mono fun _ ⟨l, rx, t0, a, _⟩ => ⟨l, rx, t0, a⟩

theorem wait_ends {s : State} (h : tr <+: s.trace) (d : U64) : Run.Ends tr (fun _ => True) (wait d s) :=
  .done (h.trans (List.prefix_append _ _)) trivial

theorem readWindow_ends {s : State} {n : Nat} (h : tr <+: s.trace) (hn : n < 65536) :
    Run.Ends tr (EndsInWindow tr) (readWindow n s) :=
  transfer_window_ends h (by simpa using hn) fun e => by
    have hm : ackByte ∈ zeros n := by rw [e]; simp
    simp [zeros, ackByte] at hm

theorem receive_ends {s : State} {bytes : List Byte} (h : tr <+: s.trace) (hn : bytes.length < 65536) :
    Run.Ends tr (EndsInWindow tr) (receive bytes s) := readWindow_ends (s := s.targetSends bytes) h hn

theorem sendOnly_ends {i : Instr} (hi : isRequest i) {s : State} (h : tr <+: s.trace) :
    Run.Ends tr (EndsInWindow tr) (sendOnly i s) := by
  obtain ⟨v, cmd, hv, hc⟩ := hi
  by_cases hw : WellFormed i
  · obtain ⟨-, h3, hl⟩ := onWire_length hv hc hw
    unfold sendOnly
    rw [serialize_ok hv hc hw, Run.andThen_done]
    exact transfer_window_ends (s := s.setCks _) h (by omega) fun h => by rw [h] at h3; simp at h3
  · rw [sendOnly_bound hv hc hw]
    exact .raise h (.other id (by simp) _)

theorem ackScan_ends {s : State} (w : EndsInWindow tr s) :
    Run.Ends tr (fun t => EndsInWindow tr t ∧ AckFirst t) (ackScan s) := by
  rcases window_cases s.rxBytes with ⟨z, b, hr, hz⟩ | ⟨z, b, hr, hz⟩ | hz
  · rw [ackScan_ack hr hz]
    exact .done w.prefix ⟨w.congr rfl rfl rfl, z, b, hr, hz⟩
  · rw [ackScan_nack hr hz]
    refine .raise w.prefix ⟨fun _ => ⟨w.congr rfl rfl rfl, fun h => (by cases h), fun p h => ?_, fun _ h => absurd rfl (h _)⟩,
      fun c h => by cases h⟩
    cases h
    exact ⟨z, b, hr, hz, rfl⟩
  · rw [ackScan_nothing hz]
    exact .raise w.prefix ⟨fun _ => ⟨w.congr rfl rfl rfl, fun _ => hz, fun p h => (by cases h), fun h => absurd rfl h⟩,
      fun c h => by cases h⟩

/-- An error after the scan, in a state whose TRACE and RXBUF are those the scan left. -/
theorem Run.Ends.afterScan {k : ErrorKind} {s t : State} (w : EndsInWindow tr s) (f : AckFirst s) (h1 : t.trace = s.trace)
    (h2 : t.now = s.now) (h3 : t.rxBytes = s.rxBytes) (hk : ∀ c, k ≠ .verification c) (hn : k ≠ .noAck)
    (hm : ∀ p, k ≠ .nack p) : Run.Ends tr Q (Run.raise (α := α) k t) := by
  refine .raise (by rw [h1]; exact w.prefix) ⟨fun _ => ⟨w.congr h1 h2 h3, fun h => absurd h hn, fun p h => absurd h (hm p),
    fun _ _ => ?_⟩, fun c h => absurd h (hk c)⟩
  obtain ⟨z, b, f1, f2⟩ := f
  exact ⟨z, b, (show t.rxBytes = _ from h3.trans f1), f2⟩

theorem storeFields_trace (v : Variant) (vals : List FieldValue) (s : State) : (storeFields v vals s).trace = s.trace := by
  unfold storeFields; split <;> rfl

theorem parseReply_ends (v : Variant) {s : State} (w : EndsInWindow tr s) :
    Run.Ends tr (fun _ => True) (parseReply v s) := by
  refine (ackScan_ends w).andThen fun _ s _ ⟨w, f⟩ => ?_
  split
  · exact .afterScan w f rfl rfl rfl (by simp) (by simp) (by simp)
  unfold parseBounded
  dsimp only
  split
  · exact .afterScan w f rfl rfl rfl (by simp) (by simp) (by simp)
  split
  · exact .afterScan w f rfl rfl rfl (by simp) (by simp) (by simp)
  unfold parsePayload
  dsimp only
  split
  · exact .afterScan w f rfl rfl rfl (by simp) (by simp) (by simp)
  split
  · exact .afterScan w f rfl rfl rfl (by simp) (by simp) (by simp)
  unfold acceptPayload
  split
  · exact .done (by rw [storeFields_trace]; exact w.prefix) trivial
  · next e _ =>
    cases e <;> exact .afterScan w f rfl rfl rfl (by simp [fieldErrorKind]) (by simp [fieldErrorKind])
      (by simp [fieldErrorKind])

/-! ## The shapes of 44_sequencer.md R170 -/

theorem parseThenAck_ends (v : Variant) {s : State} (w : EndsInWindow tr s) :
    Run.Ends tr (EndsInHostAck tr) (parseThenAck v s) :=
  (parseReply_ends v w).andThen fun _ _ h _ => (hostAck_ends h).andThen fun _ _ h q => .done h q

theorem sendBareAck_ends {i : Instr} (hi : isRequest i) {s : State} (h : tr <+: s.trace) :
    Run.Ends tr (fun _ => True) (sendBareAck i s) :=
  (sendOnly_ends hi h).andThen fun _ _ _ w => (ackScan_ends w).mono fun _ _ => trivial

theorem sendForReply_ends {i : Instr} (hi : isRequest i) (v : Variant) {s : State} (h : tr <+: s.trace) :
    Run.Ends tr (EndsInHostAck tr) (sendForReply i v s) :=
  (sendOnly_ends hi h).andThen fun _ _ _ w => parseThenAck_ends v w

theorem sendWaitAck_ends {i : Instr} (hi : isRequest i) (d : U64) {n : Nat} (hn : n < 65536) {s : State}
    (h : tr <+: s.trace) : Run.Ends tr (fun _ => True) (sendWaitAck i d n s) :=
  (sendOnly_ends hi h).andThen fun _ _ h _ => (wait_ends h d).andThen fun _ _ h _ =>
    (readWindow_ends h hn).andThen fun _ _ _ w => (ackScan_ends w).mono fun _ _ => trivial

theorem sendWaitReply_ends {i : Instr} (hi : isRequest i) (d : U64) {n : Nat} (hn : n < 65536) (v : Variant) {s : State}
    (h : tr <+: s.trace) : Run.Ends tr (EndsInHostAck tr) (sendWaitReply i d n v s) :=
  (sendOnly_ends hi h).andThen fun _ _ h _ => (wait_ends h d).andThen fun _ _ h _ =>
    (readWindow_ends h hn).andThen fun _ _ _ w => parseThenAck_ends v w

end Sys2Proof.Machine
end

