-- ==== Sys2Proof/Laws/PerInstr.lean ====
section
/-! SUPPORT. The per-instruction family WireLength: a well-formed wire item is 1 to 255 bytes on the wire. -/

namespace Sys2Proof.Laws

open Sys2Proof Sys2Proof.Machine

/-- A well-formed wire item encodes to at least one byte and to no more than its `len` byte can count
(30_encoding.md R60, R61, R67). -/
def WireLength.Statement (i : Instr) : Prop := WellFormed i → 1 ≤ (encode i).length ∧ (encode i).length ≤ 255

theorem WireLength.ping : WireLength.Statement .ping := by
  simp [WireLength.Statement, encode, length_payloadOf, payloadWidth]

theorem WireLength.download (address size : U32) : WireLength.Statement (.download address size) := by
  simp [WireLength.Statement, encode, length_payloadOf, payloadWidth]

theorem WireLength.getStatus : WireLength.Statement .getStatus := by
  simp [WireLength.Statement, encode, length_payloadOf, payloadWidth]

theorem WireLength.sendData (data : List Byte) : WireLength.Statement (.sendData data) := by
  intro h
  simp only [WellFormed, Instr.wellFormed, decide_eq_true_eq] at h
  simp only [encode, length_requestPacket, length_payloadOf, payloadWidth]
  omega

theorem WireLength.reset : WireLength.Statement .reset := by
  simp [WireLength.Statement, encode, length_payloadOf, payloadWidth]

theorem WireLength.sectorErase (address : U32) : WireLength.Statement (.sectorErase address) := by
  simp [WireLength.Statement, encode, length_payloadOf, payloadWidth]

theorem WireLength.crc32 (address size repeats : U32) : WireLength.Statement (.crc32 address size repeats) := by
  simp [WireLength.Statement, encode, length_payloadOf, payloadWidth]

theorem WireLength.getChipId : WireLength.Statement .getChipId := by
  simp [WireLength.Statement, encode, length_payloadOf, payloadWidth]

theorem WireLength.memoryRead (address : U32) (accessType count : Byte) : WireLength.Statement (.memoryRead address accessType count) := by
  simp [WireLength.Statement, encode, length_payloadOf, payloadWidth]

theorem WireLength.memoryWrite (address size : U32) (data : List Byte) : WireLength.Statement (.memoryWrite address size data) := by
  intro h
  simp only [WellFormed, Instr.wellFormed, decide_eq_true_eq] at h
  simp only [encode, length_requestPacket, length_payloadOf, payloadWidth]
  omega

theorem WireLength.bankErase : WireLength.Statement .bankErase := by
  simp [WireLength.Statement, encode, length_payloadOf, payloadWidth]

theorem WireLength.chipIdReply (value : U32) : WireLength.Statement (.chipIdReply value) := by
  simp [WireLength.Statement, encode, length_payloadOf, payloadWidth]

theorem WireLength.crc32Reply (value : U32) : WireLength.Statement (.crc32Reply value) := by
  simp [WireLength.Statement, encode, length_payloadOf, payloadWidth]

theorem WireLength.commandStatus (value : StatusValue) : WireLength.Statement (.commandStatus value) := by
  simp [WireLength.Statement, encode, length_payloadOf, payloadWidth]

theorem WireLength.ack (sender : Sender) : WireLength.Statement (.ack sender) := by
  simp [WireLength.Statement, encode]

theorem WireLength.nack : WireLength.Statement .nack := by
  simp [WireLength.Statement, encode]

end Sys2Proof.Laws
end

