-- ==== Sys2Proof/Laws/StepCases.lean ====
section
/-! SUPPORT. What a wire item, a procedure and a step can do, in micro steps. -/

namespace Sys2Proof.Machine

open Sys2Proof

/-! ## Procedures -/

theorem isRequest_ping : isRequest .ping := ⟨_, _, rfl, rfl⟩
theorem isRequest_download (a n : U32) : isRequest (.download a n) := ⟨_, _, rfl, rfl⟩
theorem isRequest_getStatus : isRequest .getStatus := ⟨_, _, rfl, rfl⟩
theorem isRequest_sendData (d : List Byte) : isRequest (.sendData d) := ⟨_, _, rfl, rfl⟩
theorem isRequest_reset : isRequest .reset := ⟨_, _, rfl, rfl⟩
theorem isRequest_sectorErase (a : U32) : isRequest (.sectorErase a) := ⟨_, _, rfl, rfl⟩
theorem isRequest_crc32 (a n r : U32) : isRequest (.crc32 a n r) := ⟨_, _, rfl, rfl⟩
theorem isRequest_getChipId : isRequest .getChipId := ⟨_, _, rfl, rfl⟩
theorem isRequest_memoryRead (a : U32) (t c : Byte) : isRequest (.memoryRead a t c) := ⟨_, _, rfl, rfl⟩
theorem isRequest_memoryWrite (a n : U32) (d : List Byte) : isRequest (.memoryWrite a n d) := ⟨_, _, rfl, rfl⟩
theorem isRequest_bankErase : isRequest .bankErase := ⟨_, _, rfl, rfl⟩

theorem readWindow_tracks_small {n : Nat} (lo : 1 ≤ n) (hi : n ≤ 305) (s : State) : Run.Tracks s (readWindow n s) :=
  readWindow_tracks lo (Nat.le_trans hi (bufCap_ge s.cfg))

theorem sendWaitAck_tracks {i : Instr} (hi : isRequest i) (d : Nat) {w : Nat} (lo : 1 ≤ w) (hw : w ≤ 305) (s : State) :
    Run.Tracks s (sendWaitAck i d w s) :=
  .andThen (sendOnly_tracks hi s) fun _ _ => .andThen (wait_tracks d _) fun _ _ =>
    .andThen (readWindow_tracks_small lo hw _) fun _ _ => ackScan_tracks _

theorem sendWaitReply_tracks {i : Instr} (hi : isRequest i) (d : Nat) {w : Nat} (lo : 1 ≤ w) (hw : w ≤ 305)
    (v : Variant) (s : State) : Run.Tracks s (sendWaitReply i d w v s) :=
  .andThen (sendOnly_tracks hi s) fun _ _ => .andThen (wait_tracks d _) fun _ _ =>
    .andThen (readWindow_tracks_small lo hw _) fun _ _ => parseThenAck_tracks v _

theorem checkStatus_tracks (s : State) : Run.Tracks s (checkStatus s) := by
  refine .andThen (sendForReply_tracks isRequest_getStatus _ s) fun _ _ => ?_
  split
  · exact .done _ (.refl _) rfl rfl id
  · exact .raise trivial (.refl _) rfl

/-- Moving SESSION outside Faulted, then an operation. -/
theorem Run.Tracks.afterSession {α : Type} {s : State} {x : Session} {r : Run α} (h : s.session ≠ .faulted)
    (hx : x ≠ .faulted) (hr : Run.Tracks (s.setSession x) r) : Run.Tracks s r :=
  .after (t := s.setSession x) (.single (.setSession s x h hx)) rfl rfl (fun _ => hx) hr

theorem Run.Tracks.doneSession {s : State} {x : Session} (h : s.session ≠ .faulted) (hx : x ≠ .faulted) :
    Run.Tracks s (Run.done () (s.setSession x)) :=
  .done (t := s.setSession x) _ (.single (.setSession s x h hx)) rfl rfl (fun _ => hx)

theorem initialise_tracks {s : State} (h : s.session ≠ .faulted) : Run.Tracks s (initialise s) := by
  have hp := sendBareAck_tracks isRequest_ping s
  refine .andThen hp fun _ ha => ?_
  have h1 := (hp.ok _ ha).2.2 h
  have hg := sendForReply_tracks isRequest_getChipId .chipIdReply (sendBareAck .ping s).state
  refine .andThen hg fun _ hb => ?_
  have h2 := (hg.ok _ hb).2.2 h1
  split
  · exact .doneSession h2 (by decide)
  · exact .raise trivial (.refl _) rfl

theorem eraseSector_tracks {s : State} (h : s.session ≠ .faulted) (a : U32) : Run.Tracks s (eraseSector a s) :=
  .afterSession h (by decide : Session.operational ≠ .faulted)
    (.andThen (sendWaitAck_tracks (isRequest_sectorErase a) _ (by decide) (by decide) _) fun _ _ => checkStatus_tracks _)

theorem bankErase_tracks {s : State} (h : s.session ≠ .faulted) : Run.Tracks s (bankErase s) :=
  .afterSession h (by decide : Session.operational ≠ .faulted)
    (.andThen (sendWaitAck_tracks isRequest_bankErase _ (by decide) (by decide) _) fun _ _ => checkStatus_tracks _)

theorem sendChunk_tracks (d : List Byte) (s : State) : Run.Tracks s (sendChunk d s) :=
  sendWaitAck_tracks (isRequest_sendData d) _ (by decide) (by decide) s

theorem crcQuery_tracks {s : State} (h : s.session ≠ .faulted) (a n : U32) : Run.Tracks s (crcQuery a n s) :=
  .afterSession h (by decide : Session.operational ≠ .faulted)
    (.andThen (sendWaitReply_tracks (isRequest_crc32 a n 0#32) _ (by decide) (by decide) _ _) fun _ _ =>
      .done _ (.refl _) rfl rfl id)

theorem systemReset_tracks {s : State} (h : s.session ≠ .faulted) : Run.Tracks s (systemReset s) := by
  have hr := sendBareAck_tracks isRequest_reset s
  refine .andThen hr fun _ ha => ?_
  have h1 := (hr.ok _ ha).2.2 h
  refine .afterSession h1 (by decide : Session.reset ≠ .faulted) (.andThen (wait_tracks _ _) fun _ _ => ?_)
  exact .doneSession (by simp [wait, Run.done]) (by decide)

theorem sendChunks_tracks (l : List (List Byte)) (s : State) : Run.Tracks s (sendChunks l s) := by
  induction l generalizing s with
  | nil => exact .done _ (.refl _) rfl rfl id
  | cons d rest ih => exact .andThen (sendChunk_tracks d s) fun _ _ => ih _

theorem crcCompare_tracks (s : State) : Run.Tracks s (crcCompare s) := .done _ (.single (.flagMatch s)) rfl rfl id

theorem setCrcLocal_tracks {α : Type} {s : State} {v : U32} {r : Run α} (h : Run.Tracks (s.setCrcLocal v) r) :
    Run.Tracks s r := .after (t := s.setCrcLocal v) (.single (.setCrcLocal s v)) rfl rfl id h

theorem verifySegment_tracks {s : State} (h : s.session ≠ .faulted) (g : Segment) : Run.Tracks s (verifySegment g s) := by
  refine .andThen (setCrcLocal_tracks (crcQuery_tracks (s := s.setCrcLocal g.crc) h _ _)) fun _ _ =>
    .andThen (crcCompare_tracks _) fun _ _ => ?_
  split
  · exact .done _ (.refl _) rfl rfl id
  · exact .raise trivial (.refl _) rfl

theorem writeSegment_tracks {s : State} (h : s.session ≠ .faulted) (g : Segment) : Run.Tracks s (writeSegment g s) := by
  refine .afterSession h (by decide : Session.operational ≠ .faulted) ?_
  have h0 : (s.setSession .operational).session ≠ .faulted := by simp
  have hd := sendBareAck_tracks (isRequest_download g.start (segmentSize g)) (s.setSession .operational)
  refine .andThen hd fun _ ha => ?_
  have h1 := (hd.ok _ ha).2.2 h0
  have hc := sendChunks_tracks (chunksOf (sendBareAck (.download g.start (segmentSize g))
    (s.setSession .operational)).state.cfg.maxPayload.toNat g.data) (sendBareAck (.download g.start (segmentSize g))
    (s.setSession .operational)).state
  refine .andThen hc fun _ hb => ?_
  have h2 := (hc.ok _ hb).2.2 h1
  have hs := checkStatus_tracks (sendChunks (chunksOf (sendBareAck (.download g.start (segmentSize g))
    (s.setSession .operational)).state.cfg.maxPayload.toNat g.data) (sendBareAck (.download g.start (segmentSize g))
    (s.setSession .operational)).state).state
  refine .andThen hs fun _ hv => ?_
  have h3 := (hs.ok _ hv).2.2 h2
  exact .andThen (verifySegment_tracks h3 g) fun _ _ => checkStatus_tracks _

theorem writeSegments_tracks (l : Image) {s : State} (h : s.session ≠ .faulted) :
    Run.Tracks s (writeSegments l s) := by
  induction l generalizing s with
  | nil => exact .done _ (.refl _) rfl rfl id
  | cons g rest ih =>
    rw [writeSegments]
    split
    · exact ih h
    · have hw := writeSegment_tracks h g
      exact .andThen hw fun _ ha => ih ((hw.ok _ ha).2.2 h)

theorem flashImage_tracks (l : Image) {s : State} (h : s.session ≠ .faulted) : Run.Tracks s (flashImage l s) := by
  have hi := initialise_tracks h
  refine .andThen hi fun _ ha => ?_
  have h1 := (hi.ok _ ha).2.2 h
  have hb := bankErase_tracks h1
  refine .andThen hb fun _ ha => ?_
  have h2 := (hb.ok _ ha).2.2 h1
  have hw := writeSegments_tracks l h2
  exact .andThen hw fun _ ha => systemReset_tracks ((hw.ok _ ha).2.2 h2)

theorem compareSegments_tracks (l : Image) {s : State} (h : s.session ≠ .faulted) :
    Run.Tracks s (compareSegments l s) := by
  induction l generalizing s with
  | nil => exact .done _ (.refl _) rfl rfl id
  | cons g rest ih =>
    rw [compareSegments]
    split
    · exact ih h
    · have hq := setCrcLocal_tracks (crcQuery_tracks (s := s.setCrcLocal g.crc) h g.start (segmentSize g))
      refine .andThen hq fun _ ha => ?_
      have h1 := (hq.ok _ ha).2.2 h
      have hc := crcCompare_tracks (crcQuery g.start (segmentSize g) (s.setCrcLocal g.crc)).state
      refine .andThen hc fun _ hb => ?_
      have h2 := (hc.ok _ hb).2.2 h1
      split
      · exact ih h2
      · exact .done _ (.refl _) rfl rfl id

theorem imageMatches_tracks (l : Image) {s : State} (h : s.session ≠ .faulted) : Run.Tracks s (imageMatches l s) := by
  have hi := initialise_tracks h
  refine .andThen hi fun _ ha => ?_
  have h1 := (hi.ok _ ha).2.2 h
  have hc := compareSegments_tracks l h1
  refine .andThen hc fun _ hb => ?_
  exact .andThen (systemReset_tracks ((hc.ok _ hb).2.2 h1)) fun _ _ => .done _ (.refl _) rfl rfl id

theorem needToUpdate_tracks (l : Image) {s : State} (h : s.session ≠ .faulted) : Run.Tracks s (needToUpdate l s) :=
  .andThen (imageMatches_tracks l h) fun _ _ => .done _ (.refl _) rfl rfl id

theorem exchangeCommand_tracks (i : Instr) (s : State) : Run.Tracks s (exchangeCommand i s) := by
  have fin : ∀ {r : Run Unit}, Run.Tracks s r →
      Run.Tracks s (r.andThen fun _ s => Run.done ([] : List FieldValue) s) :=
    fun h => .andThen h fun _ _ => .done _ (.refl _) rfl rfl id
  cases i with
  | ping => exact fin (sendBareAck_tracks isRequest_ping s)
  | download a n => exact fin (sendBareAck_tracks (isRequest_download a n) s)
  | getStatus => exact sendForReply_tracks isRequest_getStatus _ s
  | sendData d => exact fin (sendWaitAck_tracks (isRequest_sendData d) _ (by decide) (by decide) s)
  | reset => exact fin (sendBareAck_tracks isRequest_reset s)
  | sectorErase a => exact fin (sendWaitAck_tracks (isRequest_sectorErase a) _ (by decide) (by decide) s)
  | crc32 a n r => exact sendWaitReply_tracks (isRequest_crc32 a n 0#32) _ (by decide) (by decide) _ s
  | getChipId => exact sendForReply_tracks isRequest_getChipId _ s
  | memoryRead a t c => exact fin (sendOnly_tracks (isRequest_memoryRead a t c) s)
  | memoryWrite a n d => exact fin (sendOnly_tracks (isRequest_memoryWrite a n d) s)
  | bankErase => exact fin (sendWaitAck_tracks isRequest_bankErase _ (by decide) (by decide) s)
  | chipIdReply v => exact .done _ (.refl _) rfl rfl id
  | crc32Reply v => exact .done _ (.refl _) rfl rfl id
  | commandStatus v => exact .done _ (.refl _) rfl rfl id
  | ack x => exact .done _ (.refl _) rfl rfl id
  | nack => exact .done _ (.refl _) rfl rfl id

/-! ## Outcomes -/

/-- What is known of an outcome `next t` of a request made in `s`, ENTER_BOOTLOADER apart: micro steps were made, and the
controller received a value, with FAULT and ERR kept, or an error, with the error entry made. -/
structure Tracked (s t : State) : Prop where
  steps : Steps s t
  response : (∃ v, t.result = .value v ∧ t.fault = s.fault ∧ t.err = s.err ∧
      (s.session ≠ .faulted → t.session ≠ .faulted)) ∨
    ∃ k : ErrorKind, (t.result = .error k ∨ t.result = .protocol k) ∧ k.raised ∧ t.session = .faulted ∧ t.fault = true ∧
      t.err = if s.err = 0#4 then errorCode k else s.err

theorem Run.Tracks.finish {α : Type} {value : α → OpValue} {s t : State} {r : Run α} (h : Run.Tracks s r)
    (e : r.finish value = .next t) : Tracked s t := by
  injection e with e
  subst e
  refine ⟨.tail h.steps (.setResult _ _), ?_⟩
  rcases ho : r.out with k | a
  · exact .inr ⟨k, .inl (by simp [Run.response, ho]), h.error k ho⟩
  · exact .inl ⟨value a, by simp [Run.response, ho], h.ok a ho⟩

theorem Run.Tracks.finishProcedure {α : Type} {value : α → OpValue} {s t : State} {r : Run α} (h : Run.Tracks s r)
    (e : r.finishProcedure value = .next t) : Tracked s t := by
  injection e with e
  subst e
  refine ⟨.tail h.steps (.setResult _ _), ?_⟩
  rcases ho : r.out with k | a
  · refine .inr ⟨k, ?_, h.error k ho⟩
    cases k <;> simp [Run.wrapped, ho]
  · exact .inl ⟨value a, by simp [Run.wrapped, ho], h.ok a ho⟩

theorem whenOpen_next {α : Type} {value : α → OpValue} {s t : State} {r : Run α} (e : whenOpen value s r = .next t) :
    sessionOpen s.session = true ∧ r.finish value = .next t := by
  unfold whenOpen at e
  split at e
  · next h => exact ⟨h, e⟩
  · cases e

theorem length_reply_le (s : State) {packet : List Byte} (h : packet.length ≤ 304) :
    packet.length + 1 ≤ bufCapOf s.cfg := by
  have := bufCap_ge s.cfg; omega

theorem length_sentinel_le (s : State) (b : Byte) : [b].length ≤ bufCapOf s.cfg := by
  have := bufCap_ge s.cfg; simp only [List.length_cons, List.length_nil]; omega

/-- What a wire item can do. -/
theorem exec_tracked {i : Instr} {s t : State} (e : exec i s = .next t) :
    sessionOpen s.session = true ∧ Tracked s t := by
  cases i with
  | ping =>
    obtain ⟨ho, e⟩ := whenOpen_next e; exact ⟨ho, (sendBareAck_tracks isRequest_ping s).finish e⟩
  | download a n =>
    obtain ⟨ho, e⟩ := whenOpen_next e; exact ⟨ho, (sendBareAck_tracks (isRequest_download a n) s).finish e⟩
  | getStatus =>
    obtain ⟨ho, e⟩ := whenOpen_next e; exact ⟨ho, (sendForReply_tracks isRequest_getStatus _ s).finish e⟩
  | sendData d =>
    obtain ⟨ho, e⟩ := whenOpen_next e; exact ⟨ho, (sendOnly_tracks (isRequest_sendData d) s).finish e⟩
  | reset =>
    obtain ⟨ho, e⟩ := whenOpen_next e; exact ⟨ho, (sendBareAck_tracks isRequest_reset s).finish e⟩
  | sectorErase a =>
    obtain ⟨ho, e⟩ := whenOpen_next e; exact ⟨ho, (sendOnly_tracks (isRequest_sectorErase a) s).finish e⟩
  | crc32 a n r =>
    obtain ⟨ho, e⟩ := whenOpen_next e; exact ⟨ho, (sendOnly_tracks (isRequest_crc32 a n 0#32) s).finish e⟩
  | getChipId =>
    obtain ⟨ho, e⟩ := whenOpen_next e; exact ⟨ho, (sendForReply_tracks isRequest_getChipId _ s).finish e⟩
  | memoryRead a t c =>
    obtain ⟨ho, e⟩ := whenOpen_next e; exact ⟨ho, (sendOnly_tracks (isRequest_memoryRead a t c) s).finish e⟩
  | memoryWrite a n d =>
    obtain ⟨ho, e⟩ := whenOpen_next e; exact ⟨ho, (sendOnly_tracks (isRequest_memoryWrite a n d) s).finish e⟩
  | bankErase =>
    obtain ⟨ho, e⟩ := whenOpen_next e; exact ⟨ho, (sendOnly_tracks isRequest_bankErase s).finish e⟩
  | chipIdReply v =>
    obtain ⟨ho, e⟩ := whenOpen_next e
    exact ⟨ho, (receiveReply_tracks (length_reply_le s (by simp [encode, length_payloadOf, payloadWidth]))).finish e⟩
  | crc32Reply v =>
    obtain ⟨ho, e⟩ := whenOpen_next e
    exact ⟨ho, (receiveReply_tracks (length_reply_le s (by simp [encode, length_payloadOf, payloadWidth]))).finish e⟩
  | commandStatus v =>
    obtain ⟨ho, e⟩ := whenOpen_next e
    exact ⟨ho, (receiveReply_tracks (length_reply_le s (by simp [encode, length_payloadOf, payloadWidth]))).finish e⟩
  | ack x =>
    obtain ⟨ho, e⟩ := whenOpen_next e
    cases x
    · exact ⟨ho, (receiveSentinel_tracks (by simp) (length_sentinel_le s _)).finish e⟩
    · exact ⟨ho, (hostAck_tracks s).finish e⟩
  | nack =>
    obtain ⟨ho, e⟩ := whenOpen_next e; exact ⟨ho, (receiveSentinel_tracks (by simp) (length_sentinel_le s _)).finish e⟩

theorem requireOpen_next {s t : State} {out : Host.Outcome State Fault Refusal} (e : requireOpen s out = .next t) :
    sessionOpen s.session = true ∧ out = .next t := by
  unfold requireOpen at e
  split at e
  · next h => exact ⟨h, e⟩
  · cases e

theorem requireLength_next {s t : State} {n : Nat} {out : Host.Outcome State Fault Refusal}
    (e : requireLength s n out = .next t) : 1 ≤ n ∧ n ≤ bufCapOf s.cfg ∧ out = .next t := by
  unfold requireLength at e
  split at e
  · cases e
  · split at e
    · cases e
    · exact ⟨by omega, by omega, e⟩

/-- What a block operation other than ENTER_BOOTLOADER can do. -/
theorem execOp_tracked {o : BlockOp} {s t : State} (ho : o ≠ .enterBootloader) (e : execOp o s = .next t) :
    Tracked s t := by
  cases o with
  | loadTx bytes =>
    simp only [execOp, execLoadTx] at e
    split at e
    · cases e
    · next h =>
      exact (Run.Tracks.done () (.single (.load s bytes (by omega))) rfl rfl id).finish e
  | transfer =>
    obtain ⟨-, e⟩ := requireOpen_next e
    obtain ⟨lo, hi, e⟩ := requireLength_next e
    exact (transfer_tracks lo hi).finish e
  | read n =>
    obtain ⟨-, e⟩ := requireOpen_next e
    obtain ⟨lo, hi, e⟩ := requireLength_next e
    exact (readWindow_tracks lo hi).finish e
  | hostAck =>
    obtain ⟨-, e⟩ := requireOpen_next e
    exact (hostAck_tracks s).finish e
  | wait d => exact (wait_tracks _ s).finish e
  | enterBootloader => exact absurd rfl ho
  | checksum b =>
    have h : Run.Tracks s (checksumOp b s) :=
      .done (t := s.setCks (checksum b)) _ (.single (.setCks s _)) rfl rfl id
    exact h.finish e
  | serialize i =>
    simp only [execOp, execSerialize] at e
    split at e
    · next p h =>
      unfold requestOf at h
      split at h
      · next v hv =>
        rw [Option.map_eq_some_iff] at h
        obtain ⟨c, hc, -⟩ := h
        exact (serialize_tracks hv hc s).finish e
      · cases h
    · cases e
  | ackScan =>
    obtain ⟨-, e⟩ := requireOpen_next e
    exact (ackScan_tracks s).finish e
  | parseReply v =>
    obtain ⟨-, e⟩ := requireOpen_next e
    exact (parseReply_tracks v s).finish e
  | crc32 img a n =>
    simp only [execOp, execCrc32Op] at e
    split at e
    · split at e
      · next bytes _ =>
        have h : Run.Tracks s (crc32Op bytes s) :=
          .done (t := s.setCrc (crcAcc bytes) (crc32 bytes)) _ (.single (.setCrc s _ _)) rfl rfl id
        exact h.finish e
      · cases e
    · cases e
  | crcCompare =>
    obtain ⟨-, e⟩ := requireOpen_next e
    split at e
    · exact (crcCompare_tracks s).finish e
    · cases e

theorem procedureAccepted_open {p : Procedure} {x : Session} (h : procedureAccepted p x = true) :
    sessionOpen x = true := by
  cases p <;> cases x <;> simp [procedureAccepted, sessionOpen] at h ⊢

theorem sessionOpen_ne_faulted {x : Session} (h : sessionOpen x = true) : x ≠ .faulted := by
  rintro rfl; cases h

/-- What a procedure can do. -/
theorem execProcedure_tracked {p : Procedure} {s t : State} (e : execProcedure p s = .next t) :
    procedureAccepted p s.session = true ∧ Tracked s t := by
  unfold execProcedure at e
  split at e
  · next hacc =>
    have hx := sessionOpen_ne_faulted (procedureAccepted_open hacc)
    refine ⟨hacc, ?_⟩
    split at e
    · cases e
    · cases p with
      | exchangeCommand i => exact (exchangeCommand_tracks i s).finishProcedure e
      | checkStatus => exact (checkStatus_tracks s).finishProcedure e
      | initialise => exact (initialise_tracks hx).finishProcedure e
      | eraseSector a => exact (eraseSector_tracks hx a).finishProcedure e
      | bankErase => exact (bankErase_tracks hx).finishProcedure e
      | sendChunk d => exact (sendChunk_tracks d s).finishProcedure e
      | crcQuery a n => exact (crcQuery_tracks hx a n).finishProcedure e
      | systemReset => exact (systemReset_tracks hx).finishProcedure e
      | writeSegment g => exact (writeSegment_tracks hx g).finishProcedure e
      | flashImage l => exact (flashImage_tracks l hx).finishProcedure e
      | imageMatches l => exact (imageMatches_tracks l hx).finishProcedure e
      | needToUpdate l => exact (needToUpdate_tracks l hx).finishProcedure e
  · cases e

theorem badLength_tracks (len : Byte) (s : State) : Run.Tracks s (badLength len s) :=
  .raise trivial (.refl s) rfl

theorem execReplyBytes_tracked {v : Variant} {bytes : List Byte} {s t : State}
    (e : execReplyBytes v bytes s = .next t) : Tracked s t := by
  obtain ⟨-, e⟩ := requireOpen_next e
  obtain ⟨-, hi, e⟩ := requireLength_next e
  exact (receiveReply_tracks hi).finish e

/-- What bytes that are no wire item can do. -/
theorem execUndecoded_tracked {x : Expectation} {bytes : List Byte} {d : DecodeError} {s t : State}
    (e : execUndecoded x bytes d s = .next t) : Tracked s t := by
  cases x with
  | request =>
    cases d with
    | lenTooSmall len => obtain ⟨-, e⟩ := whenOpen_next e; exact (badLength_tracks len s).finish e
    | lenTooLarge len => obtain ⟨-, e⟩ := whenOpen_next e; exact (badLength_tracks len s).finish e
    | truncated => cases e
    | unassignedCmd _ => cases e
    | badChecksum _ => cases e
    | fieldTooShort => cases e
    | badStatus _ => cases e
    | fieldShape => cases e
    | notASentinel _ => cases e
  | chipIdReply => exact execReplyBytes_tracked e
  | crc32Reply => exact execReplyBytes_tracked e
  | commandStatus => exact execReplyBytes_tracked e
  | sentinel =>
    obtain ⟨-, e⟩ := requireOpen_next e
    obtain ⟨lo, hi, e⟩ := requireLength_next e
    exact (receiveSentinel_tracks lo hi).finish e
  | hostAck => cases e

/-- What a request can do: ENTER_BOOTLOADER runs, or micro steps are made. -/
theorem execRequest_cases {r : Request} {s t : State} (e : execRequest r s = .next t) :
    (r = .op .enterBootloader ∧ t = (enterBootloader s).state.setResult ((enterBootloader s).response fun _ => .unit)) ∨
      (r ≠ .op .enterBootloader ∧ Tracked s t) := by
  cases r with
  | wire x bytes =>
    simp only [execRequest, execWire] at e
    split at e
    · exact .inr ⟨by simp, (exec_tracked e).2⟩
    · exact .inr ⟨by simp, execUndecoded_tracked e⟩
  | item i => exact .inr ⟨by simp, (exec_tracked e).2⟩
  | op o =>
    by_cases ho : o = .enterBootloader
    · subst ho
      injection e with e
      exact .inl ⟨rfl, e.symm⟩
    · exact .inr ⟨by simpa using ho, execOp_tracked ho e⟩
  | procedure p => exact .inr ⟨by simp, (execProcedure_tracked e).2⟩

/-- What a step can do: nothing, with no request; or one request, taken off the queue. -/
theorem step_cases {s t : State} (e : step s = .next t) :
    (s.pending = [] ∧ t = s) ∨ ∃ r rest, s.pending = r :: rest ∧ execRequest r (s.setPending rest) = .next t := by
  unfold step stepRequest at e
  split at e
  · next h => injection e with e; exact .inl ⟨h, e.symm⟩
  · next r rest h => exact .inr ⟨r, rest, h, e⟩

end Sys2Proof.Machine
end

