-- ==== Sys2Proof/Tests/Slice0.lean ====
section
/-! SUPPORT. Tests on values the spec gives (95_test_vectors.md and the examples of the rules), and for each statement with
hypotheses a state and operands that meet them. -/

namespace Sys2Proof.Tests

open Sys2Proof Sys2Proof.Machine

set_option maxRecDepth 100000

/-! ## Helpers -/

/-- A block in a session state over a working link, with the bytes the target will answer. -/
def linked (x : Session) (miso : List Byte) : State :=
  { State.ofConfiguration { defaultConfiguration with ioMayFail := false } with
    session := x
    env := { miso := ⟨miso, 0⟩, io := ⟨[], 0⟩, clock := ⟨List.replicate 40 0, 0⟩ } }

/-- A block in a session state over a link whose next I/O primitives fail or not as given. -/
def failing (x : Session) (io : List Bool) : State :=
  { State.ofConfiguration { defaultConfiguration with ioMayFail := true } with
    session := x
    env := { miso := ⟨zeros 40, 0⟩, io := ⟨io, 0⟩, clock := ⟨List.replicate 40 0, 0⟩ } }

/-- The block with a captured window in RXBUF. -/
def holding (rx : List Byte) : State := (linked .operational []).storeRx rx

/-- The outcome is a next state with this property. -/
def leads (o : Host.Outcome State Fault Refusal) (p : State → Bool) : Bool :=
  match o with
  | .next t => p t
  | .fault _ => false
  | .refused _ => false

/-- The outcome is a next state in which the controller received this. -/
def answers (o : Host.Outcome State Fault Refusal) (r : Response) : Bool := leads o fun t => decide (t.result = r)

theorem next_of_leads {o : Host.Outcome State Fault Refusal} {p : State → Bool} (h : leads o p = true) :
    ∃ t, o = .next t ∧ p t = true := by
  cases o with
  | next t => exact ⟨t, rfl, h⟩
  | fault _ => cases h
  | refused _ => cases h

theorem next_of_answers {o : Host.Outcome State Fault Refusal} {r : Response} (h : answers o r = true) :
    ∃ t, o = .next t ∧ t.result = r := by
  obtain ⟨t, h1, h2⟩ := next_of_leads h
  exact ⟨t, h1, of_decide_eq_true h2⟩

/-! ## WellFormed refuses -/

theorem test_refuses_empty_sendData : ¬ WellFormed (.sendData []) := by decide
theorem test_refuses_long_sendData : ¬ WellFormed (.sendData (zeros 253)) := by decide
theorem test_accepts_longest_sendData : WellFormed (.sendData (zeros 252)) := by decide
theorem test_refuses_long_memoryWrite : ¬ WellFormed (.memoryWrite 1#32 2#32 (zeros 245)) := by decide
theorem test_accepts_longest_memoryWrite : WellFormed (.memoryWrite 1#32 2#32 (zeros 244)) := by decide

/-! ## Decoding words written out from the spec's encodings (V1, V12, V40 to V61, V82, V92) -/

theorem test_decode_ping : decode .request [0x03#8, 0x20#8, 0x20#8] = .ok .ping := by decide
theorem test_decode_download : decode .request [0x0B#8, 0x35#8, 0x21#8, 0x00#8, 0x00#8, 0x10#8, 0x00#8, 0x00#8, 0x00#8,
    0x00#8, 0x04#8] = .ok (.download 0x1000#32 4#32) := by decide
theorem test_decode_getStatus : decode .request [0x03#8, 0x23#8, 0x23#8] = .ok .getStatus := by decide
theorem test_decode_sendData : decode .request [0x04#8, 0x23#8, 0x24#8, 0xFF#8] = .ok (.sendData [0xFF#8]) := by decide
theorem test_decode_reset : decode .request [0x03#8, 0x25#8, 0x25#8] = .ok .reset := by decide
theorem test_decode_sectorErase : decode .request [0x07#8, 0x46#8, 0x26#8, 0x00#8, 0x00#8, 0x20#8, 0x00#8] =
    .ok (.sectorErase 0x2000#32) := by decide
theorem test_decode_crc32 : decode .request [0x0F#8, 0x31#8, 0x27#8, 0x00#8, 0x00#8, 0x10#8, 0x00#8, 0x00#8, 0x00#8,
    0x01#8, 0xF9#8, 0x00#8, 0x00#8, 0x00#8, 0x00#8] = .ok (.crc32 0x1000#32 505#32 0#32) := by decide
theorem test_decode_getChipId : decode .request [0x03#8, 0x28#8, 0x28#8] = .ok .getChipId := by decide
theorem test_decode_memoryRead : decode .request [0x09#8, 0x4F#8, 0x2A#8, 0x20#8, 0x00#8, 0x00#8, 0x00#8, 0x01#8, 0x04#8] =
    .ok (.memoryRead 0x20000000#32 1#8 4#8) := by decide
theorem test_decode_memoryWrite : decode .request [0x0F#8, 0x87#8, 0x2B#8, 0x20#8, 0x00#8, 0x00#8, 0x00#8, 0x00#8,
    0x00#8, 0x00#8, 0x04#8, 0xDE#8, 0xAD#8, 0xBE#8, 0xEF#8] =
    .ok (.memoryWrite 0x20000000#32 4#32 [0xDE#8, 0xAD#8, 0xBE#8, 0xEF#8]) := by decide
theorem test_decode_bankErase : decode .request [0x03#8, 0x2C#8, 0x2C#8] = .ok .bankErase := by decide
theorem test_decode_chipIdReply : decode .chipIdReply [0x06#8, 0x66#8, 0x33#8, 0x33#8, 0x00#8, 0x00#8] =
    .ok (.chipIdReply 0x33330000#32) := by decide
theorem test_decode_crc32Reply : decode .crc32Reply [0x06#8, 0xBA#8, 0xB6#8, 0x3C#8, 0xFB#8, 0xCD#8] =
    .ok (.crc32Reply 0xB63CFBCD#32) := by decide
theorem test_decode_commandStatus : decode .commandStatus [0x03#8, 0x40#8, 0x40#8] = .ok (.commandStatus .success) := by
  decide
theorem test_decode_ack : decode .sentinel [0xCC#8] = .ok (.ack .target) := by decide
theorem test_decode_host_ack : decode .hostAck [0xCC#8] = .ok (.ack .block) := by decide
theorem test_decode_nack : decode .sentinel [0x33#8] = .ok .nack := by decide

/-- What is no wire item is refused by name: the gaps of the CMD values, a wrong checksum, a short packet, a length out of
bounds, a status byte outside the enumeration, a byte that is no sentinel (30_encoding.md R70, R74). -/
theorem test_decode_refuses :
    decode .request [0x03#8, 0x29#8, 0x29#8] = .error (.unassignedCmd 0x29#8) ∧
    decode .request [0x03#8, 0x21#8, 0x20#8] = .error (.badChecksum 0x21#8) ∧
    decode .request [0x07#8, 0x46#8, 0x26#8, 0x00#8, 0x00#8, 0x20#8] = .error .truncated ∧
    decode .request [0x04#8, 0x20#8, 0x20#8, 0x00#8] = .error (.lenTooLarge 0x04#8) ∧
    decode .chipIdReply [0x05#8, 0x00#8, 0x00#8, 0x00#8, 0x00#8] = .error (.lenTooSmall 0x05#8) ∧
    (decode .commandStatus [0x03#8, 0x45#8, 0x45#8]).isOk = false ∧
    decode .sentinel [0x34#8] = .error (.notASentinel 0x34#8) := by decide

/-! ## Checksum, CRC and time (R110, V20 to V31, R90) -/

theorem test_checksum : checksum [0x27#8, 0x00#8, 0x00#8, 0x30#8, 0x30#8, 0x00#8, 0x00#8, 0xAB#8, 0xAB#8, 0x00#8, 0x00#8,
    0x00#8, 0x00#8] = 0xDD#8 := by decide
theorem test_crc_check_value : crc32 [0x31#8, 0x32#8, 0x33#8, 0x34#8, 0x35#8, 0x36#8, 0x37#8, 0x38#8, 0x39#8] =
    0xCBF43926#32 := by decide
theorem test_crc_table : crc32ByTable [0x61#8, 0x62#8, 0x63#8] = 0x352441C2#32 := by decide
theorem test_crc_empty : crc32 [] = 0#32 := by decide
theorem test_exchange_time : exchangeMinNs defaultConfiguration 39 = 78000 := by decide
theorem test_record_segmentation : (chunksOf 252 (zeros 505)).map List.length = [252, 252, 1] := by decide

/-! ## The wire items, one step each (the examples of 43_commands.md) -/

theorem test_ping : leads (exec .ping (linked .entered (zeros 5 ++ [0xCC#8] ++ zeros 33)))
    (fun t => t.ackf && decide (t.scanpos = 5#16) && decide (t.txlen = 39#16)) = true := by decide
theorem test_download : leads (exec (.download 0x1000#32 505#32) (linked .initialized (zeros 34 ++ [0xCC#8])))
    (fun t => decide (t.cksacc = 0x2B#8) && decide (t.scanpos = 34#16) && decide (t.txbuf.read 10 = 0xF9#8)) = true := by
  decide
theorem test_getStatus : leads
    (exec .getStatus (linked .initialized (zeros 4 ++ [0xCC#8, 0x03#8, 0x40#8, 0x40#8] ++ zeros 28)))
    (fun t => decide (t.status = .success) && decide (t.txlen = 1#16) && decide (t.rxlen = 1#16)) = true := by decide
theorem test_sendData : leads (exec (.sendData [0x01#8, 0x02#8, 0x03#8, 0x04#8]) (linked .operational (zeros 7)))
    (fun t => decide (t.txBytes = [0x07#8, 0x2E#8, 0x24#8, 0x01#8, 0x02#8, 0x03#8, 0x04#8]) && !t.ackf) = true := by decide
theorem test_reset : leads (exec .reset (linked .operational (zeros 3 ++ [0xCC#8] ++ zeros 31)))
    (fun t => t.ackf && decide (t.session = .operational) && t.resetN) = true := by decide
theorem test_sectorErase : leads (exec (.sectorErase 0xCC33CC33#32) (linked .initialized (zeros 7)))
    (fun t => decide (t.txBytes = [0x07#8, 0x24#8, 0x26#8, 0xCC#8, 0x33#8, 0xCC#8, 0x33#8])) = true := by decide
theorem test_crc32 : leads (exec (.crc32 0xFFFFFFFF#32 0xFFFFFFFF#32 0xFFFFFFFF#32) (linked .initialized (zeros 15)))
    (fun t => decide (t.cksacc = 0x1F#8) && decide (t.rxlen = 15#16)) = true := by decide
theorem test_getChipId : leads
    (exec .getChipId (linked .entered (zeros 6 ++ [0xCC#8, 0x06#8, 0xA2#8, 0x20#8, 0x02#8, 0x80#8, 0x00#8] ++ zeros 33)))
    (fun t => decide (t.chipid = 0x20028000#32) && decide (t.rcks = 0xA2#8) && decide (t.session = .entered)) = true := by
  decide
theorem test_memoryRead : leads (exec (.memoryRead 0xFFFFFFFF#32 0xFF#8 0xFF#8) (linked .entered (zeros 281)))
    (fun t => decide (t.txlen = 281#16) && decide (t.cksacc = 0x24#8)) = true := by decide
theorem test_memoryWrite : leads
    (exec (.memoryWrite 0x20000000#32 4#32 [0xDE#8, 0xAD#8, 0xBE#8, 0xEF#8]) (linked .entered (zeros 65)))
    (fun t => decide (t.txlen = 65#16) && decide (t.cksacc = 0x87#8) && decide (t.txbuf.read 14 = 0xEF#8)) = true := by
  decide
theorem test_bankErase : leads (exec .bankErase (linked .initialized [0xCC#8, 0x33#8, 0xCC#8]))
    (fun t => decide (t.rxBytes = [0xCC#8, 0x33#8, 0xCC#8]) && !t.ackf && !t.nackf) = true := by decide
theorem test_chipIdReply : leads (exec (.chipIdReply 0x20028000#32) (linked .entered []))
    (fun t => decide (t.chipid = 0x20028000#32) && decide (t.rlen = 6#8) && decide (t.rcks = 0xA2#8)) = true := by decide
theorem test_crc32Reply : leads (exec (.crc32Reply 0xCC33CC33#32) (linked .operational []))
    (fun t => decide (t.crcDevice = 0xCC33CC33#32) && t.crcDeviceWritten && decide (t.scanpos = 0#16)) = true := by decide
theorem test_commandStatus : leads (exec (.commandStatus .flashFail) (linked .operational []))
    (fun t => decide (t.status = .flashFail) && decide (t.rpaylen = 1#8) && !t.fault) = true := by decide
theorem test_ack : leads (exec (.ack .block) (linked .entered [0x33#8]))
    (fun t => decide (t.txBytes = [0xCC#8]) && !t.nackf && decide (t.rxBytes = [0x33#8])) = true := by decide
theorem test_nack : leads (exec .nack (linked .entered []))
    (fun t => t.nackf && decide (t.session = .faulted) && decide (t.err = 3#4)) = true := by decide
theorem test_refused_when_idle : exec .ping State.reset = .refused (.sessionState .idle) := by rfl

/-! ## Replies (V2, V80 to V99) -/

theorem test_parse_request_shape : answers (execOp (.parseReply .crc32) (holding [0x00#8, 0x00#8, 0xCC#8, 0x0E#8, 0xB6#8,
    0x00#8, 0x00#8, 0x30#8, 0x30#8, 0x00#8, 0x00#8, 0xAB#8, 0xAB#8, 0x00#8, 0x00#8, 0x00#8, 0x00#8]))
    (.value (.fields [.u32 0x3030#32, .u32 0xABAB#32, .u32 0#32])) = true := by decide
theorem test_parse_short_header : answers (execOp (.parseReply .commandStatus) (holding [0xCC#8, 0x03#8]))
    (.error .packetTooShort) = true := by decide
theorem test_parse_bad_checksum : leads (execOp (.parseReply .commandStatus) (holding [0xCC#8, 0x03#8, 0x41#8, 0x40#8]))
    (fun t => decide (t.err = 4#4) && decide (t.rcks = 0x41#8) && decide (t.cksacc = 0x40#8) &&
      decide (t.status = .default)) = true := by decide
theorem test_parse_bad_status : leads (execOp (.parseReply .commandStatus) (holding [0xCC#8, 0x03#8, 0x45#8, 0x45#8]))
    (fun t => decide (t.err = 7#4) && decide (t.rpay.read 0 = 0x45#8) && decide (t.status = .default)) = true := by decide

/-! ## Mode entry and the machine -/

theorem test_enter : leads (execOp .enterBootloader (linked .faulted [0x5A#8]))
    (fun t => decide (t.session = .entered) && decide (t.trace.length = 8) && decide (t.rxBytes = [0x5A#8]) &&
      decide (t.now = 70002000#64)) = true := by decide
theorem test_reset_memory : BufferOk State.reset.txbuf 0 ∧ BufferOk State.reset.rxbuf 0 ∧ BufferOk State.reset.rpay 0 := by
  decide
theorem test_fetch_word_decodes : decodeTableWord 24 0x030020 = some .ping ∧ decodeTableWord 24 0x0F0027 = some
    (.crc32 0#32 0#32 0#32) ∧ decodeTableWord 24 0x24 = some (.sendData [0x00#8]) ∧ decodeTableWord 8 0x33 = some .nack := by
  decide
theorem test_fetch_word_runs : answers (step ((linked .idle (zeros 3)).withFetchWord 24 0x03002C)) (.value .unit) = true := by
  decide

/-! ## For each statement with hypotheses, what meets them -/

/-- Windows of the target: Ping's, GetChipId's with its host ACK, CheckStatus's with its host ACK, Download's, a 32-byte one, a
Crc32 one with its host ACK, an erase's, Reset's. -/
def pingWindow : List Byte := zeros 4 ++ [0xCC#8] ++ zeros 34
def chipWindow (v : U32) : List Byte := zeros 4 ++ (0xCC#8 :: 6#8 :: checksum (be32 v) :: be32 v) ++ zeros 34 ++ [0x00#8]
def statusWindow (b : Byte) : List Byte := zeros 4 ++ [0xCC#8, 3#8, b, b] ++ zeros 27 ++ [0x00#8]
def downloadWindow : List Byte := zeros 12 ++ [0xCC#8] ++ zeros 22
def ackWindow : List Byte := [0x00#8, 0xCC#8] ++ zeros 30
def crcWindow (v : U32) : List Byte := [0x00#8] ++ (0xCC#8 :: 6#8 :: checksum (be32 v) :: be32 v) ++ zeros 8 ++ [0x00#8]
def eraseWindow : List Byte := [0x00#8, 0xCC#8] ++ zeros 26
def resetWindow : List Byte := zeros 4 ++ [0xCC#8] ++ zeros 30

/-- One segment of four bytes outside the RAM aperture, with its CRC (95_test_vectors.md), and one inside. -/
def segment : Segment := ⟨0x1000#32, [0x01#8, 0x02#8, 0x03#8, 0x04#8], 0xB63CFBCD#32⟩
def ramSegment : Segment := ⟨0x20000000#32, [0xFF#8], 0#32⟩

/-- What the target sends in Write one segment of `segment`, after Download. -/
def segmentWindows : List Byte :=
  downloadWindow ++ zeros 7 ++ ackWindow ++ statusWindow 0x40#8 ++ zeros 15 ++ crcWindow 0xB63CFBCD#32 ++
    statusWindow 0x40#8

/-- What the target sends in Initialize. -/
def initWindows : List Byte := pingWindow ++ chipWindow 0x20028000#32

theorem test_witness_DecodeOfEncode : WellFormed .ping ∧ WellFormed (.sendData [0x00#8]) ∧
    WellFormed (.sendData (zeros 252)) ∧ WellFormed (.memoryWrite 0#32 0#32 []) ∧
    WellFormed (.memoryWrite 0#32 0#32 (zeros 244)) := by decide
theorem test_witness_EncodeOfDecode :
    decode .request ([0x04#8, 0x24#8, 0x24#8, 0x00#8] ++ [0xAA#8]) = .ok (.sendData [0x00#8]) := by decide
theorem test_witness_PacketLayouts : ∀ i ∈ [Instr.ping, .getStatus, .reset, .getChipId, .bankErase],
    ∃ cmd, (i, cmd) ∈ [(Instr.ping, 0x20#8), (.getStatus, 0x23#8), (.reset, 0x25#8), (.getChipId, 0x28#8),
      (.bankErase, 0x2C#8)] ∧ (encode i)[2]? = some cmd := by
  simp only [List.forall_mem_cons]
  exact ⟨⟨0x20#8, by decide⟩, ⟨0x23#8, by decide⟩, ⟨0x25#8, by decide⟩, ⟨0x28#8, by decide⟩, ⟨0x2C#8, by decide⟩, by decide⟩
theorem test_witness_BitsOnTheWire : (wireBits [0x80#8, 0x01#8])[0]? = some true ∧
    (wireBits [0x80#8, 0x01#8])[8 * 1 + 7]? = some true ∧
    byteOfBits [true, true, false, false, true, true, false, false] = 0xCC#8 := by decide
theorem test_witness_ChecksumOperation : variantOf (.sendData (zeros 252)) = some .sendData ∧
    cmdOf .sendData = some 0x24#8 ∧ variantOf .bankErase = some .bankErase ∧ cmdOf .bankErase = some 0x2C#8 ∧
    variantOf (.commandStatus .success) = some .commandStatus ∧ cmdOf .commandStatus = none := by decide
theorem test_witness_SerializeLoadsPacket :
    (variantOf (.sendData [0xFF#8]) = some .sendData ∧ cmdOf .sendData = some 0x24#8 ∧
      minLen .sendData ≤ 3 + (payloadOf (.sendData [0xFF#8])).length ∧
      3 + (payloadOf (.sendData [0xFF#8])).length ≤ maxLen .sendData) ∧
    (minLen .sendData ≤ 3 + (payloadOf (.sendData (zeros 252))).length ∧
      3 + (payloadOf (.sendData (zeros 252))).length ≤ maxLen .sendData) ∧
    (variantOf (.memoryWrite 1#32 1#32 (zeros 244)) = some .memoryWrite ∧
      3 + (payloadOf (.memoryWrite 1#32 1#32 (zeros 244))).length ≤ maxLen .memoryWrite) := by decide
theorem test_witness_SerializeBoundViolation : ¬ WellFormed (.sendData []) ∧ ¬ WellFormed (.sendData (zeros 253)) ∧
    ¬ WellFormed (.memoryWrite 0#32 0#32 (zeros 245)) := by decide
theorem test_witness_AckScanDecides : sessionOpen (holding []).session = true ∧
    (holding [0xCC#8]).rxBytes = [] ++ 0xCC#8 :: [] ∧
    ((holding [0x00#8, 0xCC#8, 0x33#8]).rxBytes = [0x00#8] ++ 0xCC#8 :: [0x33#8] ∧ SentinelFree [0x00#8]) ∧
    ((holding [0x00#8, 0x33#8, 0xCC#8]).rxBytes = [0x00#8] ++ 0x33#8 :: [0xCC#8]) ∧
    SentinelFree (holding []).rxBytes ∧ SentinelFree (holding [0x34#8, 0xCD#8]).rxBytes := by decide

/-- The clauses of PARSE_REPLY for CommandStatus, whose `len` is 3: a header of one byte, a length below, above, a payload
too short, a wrong checksum, a good packet with a status byte in and outside the enumeration; for MemoryWrite, a payload
shorter than its fields. -/
theorem test_witness_ParseReplyChecksInOrder : sessionOpen (holding []).session = true ∧
    (holding [0x00#8, 0xCC#8, 0x03#8]).rxBytes = [0x00#8] ++ 0xCC#8 :: [0x03#8] ∧
    SentinelFree [0x00#8] ∧
    minLen .commandStatus - 1 = 3 ∧ maxLen .commandStatus - 1 = 3 ∧
    (holding [0xCC#8, 0x02#8, 0x00#8]).rxBytes = [] ++ 0xCC#8 :: 0x02#8 :: 0x00#8 :: [] ∧
    (holding [0xCC#8, 0x04#8, 0x80#8, 0x40#8, 0x40#8]).rxBytes = [] ++ 0xCC#8 :: 0x04#8 :: 0x80#8 :: [0x40#8, 0x40#8] ∧
    ((holding [0xCC#8, 0x03#8, 0x40#8]).rxBytes = [] ++ 0xCC#8 :: 0x03#8 :: 0x40#8 :: [] ∧ 0 < (0x03#8).toNat - 2) ∧
    ((holding [0xCC#8, 0x03#8, 0x41#8, 0x40#8]).rxBytes = [] ++ 0xCC#8 :: 0x03#8 :: 0x41#8 :: [0x40#8] ∧
      checksum ([0x40#8].take ((0x03#8).toNat - 2)) ≠ 0x41#8) ∧
    (checksum ([0x40#8].take ((0x03#8).toNat - 2)) = 0x40#8 ∧
      decodeFields (fieldsOf .commandStatus) [0x40#8] = .ok [.status .success]) ∧
    (decodeFields (fieldsOf .commandStatus) [0x45#8]).toOption = none ∧
    (minLen .memoryWrite - 1 = 8 ∧ checksum ([0x00#8, 0x00#8, 0x00#8, 0x01#8, 0x00#8, 0x00#8].take ((8#8).toNat - 2)) = 1#8 ∧
      (decodeFields (fieldsOf .memoryWrite) [0x00#8, 0x00#8, 0x00#8, 0x01#8, 0x00#8, 0x00#8]).toOption = none) := by
  decide
theorem test_witness_ParseReplyChecksInOrder_scan :
    ((holding [0x00#8, 0x33#8, 0xCC#8]).rxBytes = [0x00#8] ++ 0x33#8 :: [0xCC#8] ∧ SentinelFree [0x00#8]) ∧
    SentinelFree (holding []).rxBytes ∧ SentinelFree (holding [0x03#8, 0x40#8, 0x40#8]).rxBytes := by decide
theorem test_witness_ReplyRoundTrip : sessionOpen (holding []).session = true ∧
    (haveTypes [.u32 0x20028000#32] (fieldsOf .chipIdReply) = true ∧
      serializeReply .chipIdReply [.u32 0x20028000#32] =
        .ok [0xCC#8, 0x06#8, 0xA2#8, 0x20#8, 0x02#8, 0x80#8, 0x00#8] ∧ SentinelFree [0x00#8] ∧
      (holding [0x00#8, 0xCC#8, 0x06#8, 0xA2#8, 0x20#8, 0x02#8, 0x80#8, 0x00#8, 0x33#8]).rxBytes =
        [0x00#8] ++ [0xCC#8, 0x06#8, 0xA2#8, 0x20#8, 0x02#8, 0x80#8, 0x00#8] ++ [0x33#8]) ∧
    (haveTypes [.status .flashFail] (fieldsOf .commandStatus) = true ∧
      serializeReply .commandStatus [.status .flashFail] = .ok [0xCC#8, 0x03#8, 0x44#8, 0x44#8]) := by decide
theorem test_witness_ExchangeLeastDuration : 1 ≤ defaultConfiguration.spiClockHz.toNat ∧
    1 ≤ { defaultConfiguration with spiClockHz := 1#32 }.spiClockHz.toNat ∧
    defaultConfiguration.spiClockHz = 4000000#32 := by decide
theorem test_witness_AcceptanceBySession_load : sessionOpen (linked .entered []).session = true ∧
    (zeros 305).length ≤ bufCapOf (linked .entered []).cfg ∧ ([] : List Byte).length ≤ bufCapOf (linked .entered []).cfg := by
  decide
theorem test_witness_TransferOperation : sessionOpen (linked .idle []).session = false ∧
    sessionOpen (linked .entered []).session = true ∧ (linked .entered []).txlen = 0#16 ∧
    bufCapOf { linked .entered [] with txlen := 306#16 }.cfg < { linked .entered [] with txlen := 306#16 }.txlen.toNat ∧
    (1 ≤ { linked .entered [] with txlen := 305#16 }.txlen.toNat ∧
      { linked .entered [] with txlen := 305#16 }.txlen.toNat ≤ bufCapOf { linked .entered [] with txlen := 305#16 }.cfg ∧
      { linked .entered [] with txlen := 305#16 }.ioFails 0 = false) ∧
    (sessionOpen (failing .entered [true]).session = true ∧
      1 ≤ { failing .entered [true] with txlen := 1#16 }.txlen.toNat ∧
      { failing .entered [true] with txlen := 1#16 }.ioFails 0 = true) := by decide
theorem test_witness_ReadOperation : sessionOpen (linked .reset []).session = false ∧
    sessionOpen (linked .operational []).session = true ∧ bufCapOf (linked .operational []).cfg < (306#16).toNat ∧
    ((305#16).toNat ≤ bufCapOf (linked .operational []).cfg ∧ (linked .operational []).ioFails 0 = false) ∧
    (1 ≤ (1#16).toNat ∧ (failing .operational [true]).ioFails 0 = true) := by decide
theorem test_witness_HostAckOperation : sessionOpen (linked .initialized []).session = true ∧
    (linked .initialized []).ioFails 0 = false ∧ sessionOpen (failing .initialized [true]).session = true ∧
    (failing .initialized [true]).ioFails 0 = true := by decide
theorem test_witness_EnterBootloaderCompletes : LinkUp (linked .faulted []) 5 ∧
    LinkUp (failing .idle [false, false, false, false, false]) 5 := by decide
theorem test_witness_EnterBootloaderStopsWhereItFails : ∀ k, k < 5 →
    (∀ j, j < k → (failing .idle (List.replicate k false ++ [true])).ioFails j = false) ∧
    (failing .idle (List.replicate k false ++ [true])).ioFails k = true := by decide
theorem test_witness_AcceptanceBySession : sessionOpen (linked .idle []).session = false ∧
    sessionOpen (linked .reset []).session = false ∧ sessionOpen (linked .faulted []).session = false ∧
    (requestOf .ping).isSome = true ∧ requestOf (.ack .block) = none ∧ imageInBounds [segment] = true ∧
    (zeros 305).length ≤ bufCapOf (linked .idle []).cfg ∧ bufCapOf (linked .idle []).cfg < (zeros 306).length := by decide
theorem test_witness_Crc32Operation : memRead [segment] 0x1000 4 = some [0x01#8, 0x02#8, 0x03#8, 0x04#8] ∧
    memRead [segment] 0x1003 1 = some [0x04#8] ∧ memRead [segment] 0x1003 2 = none ∧ memRead [segment] 0xFFF 1 = none ∧
    memRead [segment] 0 0 = some [] ∧ imageInBounds [segment] = true ∧
    imageInBounds [⟨0xFFFFFFFF#32, [0x01#8, 0x02#8], 0#32⟩] = false ∧
    imageInBounds [⟨0xFFFFFFFF#32, [0x01#8], 0#32⟩] = true ∧ imageInBounds [⟨0#32, [], 0#32⟩] = false := by decide
theorem test_witness_CrcAffine : ([0x01#8, 0x02#8] : List Byte).length = [0x03#8, 0x04#8].length ∧
    ([0x03#8, 0x04#8] : List Byte).length = [0xFF#8, 0x00#8].length := by decide
theorem test_witness_CrcCompareOperation :
    sessionOpen (linked .operational []).session = true ∧ (linked .operational []).crcLocalWritten = false ∧
    ({ linked .operational [] with crcLocalWritten := true, crcDeviceWritten := true }.crcLocalWritten = true ∧
      { linked .operational [] with crcLocalWritten := true, crcDeviceWritten := true }.crcDeviceWritten = true) := by
  decide
theorem test_witness_BareAckRequestsComplete : sessionOpen (linked .entered pingWindow).session = true ∧
    LinkUp (linked .entered pingWindow) 1 ∧ (encode .ping).length + 36 = 39 ∧
    (linked .entered pingWindow).capture 39 = zeros 4 ++ 0xCC#8 :: zeros 34 ∧ SentinelFree (zeros 4) ∧
    ((encode (.download 0x1000#32 4#32)).length + 24 = 35 ∧
      (linked .initialized downloadWindow).capture 35 = zeros 12 ++ 0xCC#8 :: zeros 22 ∧ SentinelFree (zeros 12)) ∧
    ((encode .reset).length + 32 = 35 ∧
      (linked .operational resetWindow).capture 35 = zeros 4 ++ 0xCC#8 :: zeros 30) := by decide
theorem test_witness_SendOnlyRequestsComplete : sessionOpen (linked .operational []).session = true ∧
    LinkUp (linked .operational []) 1 ∧ (1 ≤ [0x00#8].length ∧ (zeros 252).length ≤ 252) ∧
    ((zeros 244).length ≤ 244) ∧ (encode (.sendData (zeros 252))).length + 0 = 255 ∧
    (encode (.memoryWrite 0#32 0#32 (zeros 244))).length + 50 = 305 ∧
    (encode (.memoryRead 0#32 0#8 0#8)).length + 272 = 281 ∧ (encode (.crc32 0#32 0#32 0#32)).length + 0 = 15 := by decide
theorem test_witness_GetStatusCompletes : sessionOpen (linked .operational (statusWindow 0x40#8)).session = true ∧
    LinkUp (linked .operational (statusWindow 0x40#8)) 2 ∧
    (linked .operational (statusWindow 0x40#8)).capture 35 =
      zeros 4 ++ [0xCC#8, 3#8, statusCode .success, statusCode .success] ++ zeros 27 ∧ SentinelFree (zeros 4) := by decide
theorem test_witness_GetChipIdCompletes : sessionOpen (linked .entered (chipWindow 0x20028000#32)).session = true ∧
    LinkUp (linked .entered (chipWindow 0x20028000#32)) 2 ∧
    (linked .entered (chipWindow 0x20028000#32)).capture 45 =
      zeros 4 ++ (0xCC#8 :: 6#8 :: checksum (be32 0x20028000#32) :: be32 0x20028000#32) ++ zeros 34 ∧
    SentinelFree (zeros 4) := by decide
theorem test_witness_RepliesComplete : sessionOpen (linked .entered []).session = true ∧ LinkUp (linked .entered []) 1 ∧
    be32 0xCC33CC33#32 = [0xCC#8, 0x33#8, 0xCC#8, 0x33#8] ∧ statusCode .success = 0x40#8 := by decide
theorem test_witness_AckCompletes_NackRaisesNack :
    sessionOpen (linked .entered [0x33#8]).session = true ∧ LinkUp (linked .entered [0x33#8]) 1 := by decide
theorem test_witness_RequestsWithoutAck : sessionOpen (linked .entered (zeros 38 ++ [0x33#8])).session = true ∧
    LinkUp (linked .entered (zeros 38 ++ [0x33#8])) 1 ∧ (encode .ping).length + 36 = 39 ∧
    (linked .entered (zeros 38 ++ [0x33#8])).capture 39 = zeros 38 ++ 0x33#8 :: [] ∧ SentinelFree (zeros 38) ∧
    SentinelFree ((linked .entered (zeros 39)).capture 39) ∧ (encode .getChipId).length + 42 = 45 ∧
    SentinelFree ((linked .entered (zeros 45)).capture 45) ∧ (encode .getStatus).length + 32 = 35 ∧
    (linked .entered (zeros 34 ++ [0x33#8])).capture 35 = zeros 34 ++ 0x33#8 :: [] := by decide
theorem test_witness_RequestsOverFailingLink : variantOf .bankErase = some .bankErase ∧ cmdOf .bankErase = some 0x2C#8 ∧
    WellFormed .bankErase ∧ WellFormed (.crc32 0#32 0#32 1#32) ∧ sessionOpen (failing .operational [true]).session = true ∧
    (failing .operational [true]).ioFails 0 = true := by decide
theorem test_witness_IllFormedRequestsRaise : ¬ WellFormed (.sendData []) ∧
    ¬ WellFormed (.memoryWrite 0#32 0#32 (zeros 245)) ∧ sessionOpen (linked .entered []).session = true := by decide
theorem test_witness_WireItemsKeepSessionOrFault : sessionOpen (linked .reset []).session = false ∧
    sessionOpen (linked .operational []).session = true := by decide
theorem test_witness_AcceptanceOfProcedures : (linked .operational []).session ≠ .entered ∧
    ((linked .entered []).session ≠ .initialized ∧ (linked .entered []).session ≠ .operational) ∧
    sessionOpen (linked .faulted []).session = false ∧ (linked .entered []).session = .entered ∧
    imageInBounds [segment, ramSegment] = true ∧ segmentInBounds ⟨0xFFFFFFFF#32, [0x01#8, 0x02#8], 0#32⟩ = false ∧
    imageInBounds [segment, ⟨0#32, [], 0#32⟩] = false ∧ (linked .initialized []).session = .initialized ∧
    segmentInBounds segment = true ∧ (linked .operational []).session = .operational ∧
    sessionOpen (linked .entered []).session = true ∧ (requestOf (.crc32 0#32 0#32 1#32)).isSome = true ∧
    requestOf .nack = none := by decide
theorem test_witness_ExchangeCommandIsItsShape :
    (∃ t, exec .ping (linked .entered pingWindow) = .next t ∧ t.result = .value .unit) ∧
    (∃ t, exec .getStatus (linked .entered (zeros 35)) = .next t ∧ t.result = .error .noAck) ∧
    (∃ t, exec (.memoryRead 0#32 1#8 1#8) (linked .entered []) = .next t ∧ t.result = .value .unit) :=
  ⟨next_of_answers (by decide), next_of_answers (by decide), next_of_answers (by decide)⟩
theorem test_witness_ExchangeCommandWaits :
    (∃ t, execProcedure (.exchangeCommand (.sendData [0x01#8])) (linked .operational (zeros 4 ++ ackWindow)) = .next t ∧
      t.result = .value (.fields [])) ∧
    (∃ t, execProcedure (.exchangeCommand (.sectorErase 0#32)) (linked .initialized (zeros 7 ++ eraseWindow)) = .next t ∧
      t.result = .value (.fields [])) ∧
    (∃ t, execProcedure (.exchangeCommand .bankErase) (linked .initialized (zeros 3 ++ eraseWindow)) = .next t ∧
      t.result = .value (.fields [])) ∧
    (∃ t, execProcedure (.exchangeCommand (.crc32 0#32 0#32 1#32)) (linked .operational (zeros 15 ++ crcWindow 7#32)) =
      .next t ∧ t.result = .value (.fields [.u32 7#32])) :=
  ⟨next_of_answers (by decide), next_of_answers (by decide), next_of_answers (by decide), next_of_answers (by decide)⟩
theorem test_witness_CheckStatusRequiresSuccess : (linked .operational (statusWindow 0x44#8)).session = .operational ∧
    LinkUp (linked .operational (statusWindow 0x44#8)) 2 ∧
    (linked .operational (statusWindow 0x44#8)).capture 35 =
      zeros 4 ++ [0xCC#8, 3#8, statusCode .flashFail, statusCode .flashFail] ++ zeros 27 ∧
    (linked .operational (statusWindow 0x40#8)).capture 35 =
      zeros 4 ++ [0xCC#8, 3#8, statusCode .success, statusCode .success] ++ zeros 27 ∧ SentinelFree (zeros 4) := by decide
theorem test_witness_InitializeVerifiesChipId : (linked .entered initWindows).session = .entered ∧
    LinkUp (linked .entered initWindows) 3 ∧
    (linked .entered initWindows).capture 39 = zeros 4 ++ 0xCC#8 :: zeros 34 ∧ SentinelFree (zeros 4) ∧
    (linked .entered initWindows).window 39 45 =
      zeros 4 ++ (0xCC#8 :: 6#8 :: checksum (be32 0x20028000#32) :: be32 0x20028000#32) ++ zeros 34 ∧
    (linked .entered initWindows).cfg.expectedChipId = 0x20028000#32 ∧
    (linked .entered (pingWindow ++ chipWindow 0x20028001#32)).window 39 45 =
      zeros 4 ++ (0xCC#8 :: 6#8 :: checksum (be32 0x20028001#32) :: be32 0x20028001#32) ++ zeros 34 := by decide
theorem test_witness_SystemResetEndsIdle : sessionOpen (linked .operational resetWindow).session = true ∧
    LinkUp (linked .operational resetWindow) 1 ∧
    (linked .operational resetWindow).capture 35 = zeros 4 ++ 0xCC#8 :: zeros 30 ∧ SentinelFree (zeros 4) := by decide
theorem test_witness_ErasesWaitThenCheck :
    (∃ t, execProcedure (.eraseSector 0#32) (linked .initialized (zeros 7 ++ eraseWindow ++ statusWindow 0x40#8)) =
      .next t ∧ t.result = .value .unit) ∧
    (∃ t, execProcedure .bankErase (linked .operational (zeros 3 ++ eraseWindow ++ statusWindow 0x40#8)) = .next t ∧
      t.result = .value .unit) :=
  ⟨next_of_answers (by decide), next_of_answers (by decide)⟩
theorem test_witness_SendChunkWaitsPerByte : ∃ t,
    execProcedure (.sendChunk [0x01#8]) (linked .operational (zeros 4 ++ ackWindow)) = .next t ∧
    t.result = .value .unit := next_of_answers (by decide)
theorem test_witness_CrcQueryReturnsDeviceCrc : ∃ t,
    execProcedure (.crcQuery 0x1000#32 4#32) (linked .operational (zeros 15 ++ crcWindow 0xB63CFBCD#32)) = .next t ∧
    t.result = .value (.word 0xB63CFBCD#32) := next_of_answers (by decide)
theorem test_witness_ChunkingLaw : (chunksOf 2 [0x01#8, 0x02#8, 0x03#8])[0]? = some [0x01#8, 0x02#8] ∧
    0 + 1 < (chunksOf 2 [0x01#8, 0x02#8, 0x03#8]).length ∧ [0x03#8] ∈ chunksOf 2 [0x01#8, 0x02#8, 0x03#8] := by decide
theorem test_witness_WriteSegmentVerifies : configurationLegal (linked .initialized segmentWindows).cfg = true ∧
    ∃ t, execProcedure (.writeSegment segment) (linked .initialized segmentWindows) = .next t ∧
      t.result = .value .unit := ⟨by decide, next_of_answers (by decide)⟩
theorem test_witness_FlashNeverSendsAperture : configurationLegal (linked .entered []).cfg = true ∧ ∃ t,
    execProcedure (.flashImage [ramSegment, segment]) (linked .entered (initWindows ++ zeros 3 ++ eraseWindow ++
      statusWindow 0x40#8 ++ segmentWindows ++ resetWindow)) = .next t ∧ t.result = .value .unit :=
  ⟨by decide, next_of_answers (by decide)⟩
theorem test_witness_ImageMatchesEndsWithReset :
    (∃ t, execProcedure (.imageMatches [ramSegment, segment]) (linked .entered (initWindows ++ zeros 15 ++
      crcWindow 0xB63CFBCD#32 ++ resetWindow)) = .next t ∧ t.result = .value (.bool true)) ∧
    (∃ t, execProcedure (.imageMatches [ramSegment, segment]) (linked .entered (initWindows ++ zeros 15 ++
      crcWindow 0xB63CFBCC#32 ++ resetWindow)) = .next t ∧ t.result = .value (.bool false)) :=
  ⟨next_of_answers (by decide), next_of_answers (by decide)⟩
theorem test_witness_NeedToUpdateNegatesMatch :
    (∃ t, execProcedure (.imageMatches []) (linked .entered (initWindows ++ resetWindow)) = .next t ∧
      t.result = .value (.bool true)) ∧
    (∃ t, execProcedure (.imageMatches []) (linked .entered (zeros 39)) = .next t ∧ t.result = .protocol .noAck) :=
  ⟨next_of_answers (by decide), next_of_answers (by decide)⟩

/-- A state with requests: after a transfer whose one captured byte was an ACK. -/
def waiting (l : List Request) : State :=
  { linked .entered pingWindow with
    txlen := 1#16, rxlen := 1#16, rxbuf := [⟨0, 0xCC#8⟩], ackf := true, now := 3000#64
    trace := [.xfer [0x00#8] [0xCC#8] 1000#64 3000#64]
    pending := l }

theorem test_witness_StepRunsDecodedInstruction :
    ((waiting [.wire .request [0x03#8, 0x20#8, 0x20#8]]).pending = [.wire .request [0x03#8, 0x20#8, 0x20#8]] ∧
      decode .request [0x03#8, 0x20#8, 0x20#8] = .ok .ping) ∧
    (waiting [.item .ping]).pending = [.item .ping] ∧
    (sessionOpen (waiting []).session = true ∧ decodeTableWord 24 0x030020 = some .ping) := by decide
theorem test_witness_StepKeepsInvariant : Inv (waiting [.item .ping]) ∧
    ∃ t, step (waiting [.item .ping]) = .next t ∧ t.result = .value .unit := by
  refine ⟨?_, next_of_answers (by decide)⟩
  constructor <;> first | decide | skip
  · simp [waiting, Event.lawful, Elapsed]; decide
  · exact ⟨by simp [waiting], by simp [waiting, Event.start, Event.stop]⟩
theorem test_witness_IdleStepHoldsState : (waiting []).pending = [] := by decide
theorem test_witness_ConstructionValues : configurationLegal defaultConfiguration = true ∧
    configurationLegal { defaultConfiguration with spiClockHz := 4000001#32 } = false ∧
    configurationLegal { defaultConfiguration with resetLowMs := 14#32 } = false ∧
    configurationLegal { defaultConfiguration with maxPayload := 0#8 } = false := by decide
theorem test_witness_InvariantAtReset : ∃ s, State.construct true defaultConfiguration = .ok s := ⟨State.reset, rfl⟩
theorem test_construction_fails :
    (∀ opens, State.construct opens { defaultConfiguration with maxPayload := 253#8 } = .error .illegalConfiguration) ∧
    State.construct false defaultConfiguration = .error (.error .transport) := ⟨fun _ => rfl, rfl⟩
theorem test_time_is_u64 : endTime 5#64 10 0#64 = 15#64 ∧ endTime 5#64 10 99#64 = 99#64 ∧
    endTime (BitVec.ofNat 64 (2 ^ 64 - 1)) 0 7#64 = BitVec.ofNat 64 (2 ^ 64 - 1) ∧
    endTime (BitVec.ofNat 64 (2 ^ 64 - 1)) 1 7#64 = BitVec.ofNat 64 (2 ^ 64 - 1) := by decide
theorem test_witness_UndecodedBytes :
    (decode .request [0x03#8, 0x24#8, 0x24#8] = .error (.lenTooSmall 3#8) ∧
      decode .request [0x04#8, 0x20#8, 0x20#8] = .error (.lenTooLarge 4#8) ∧
      decode .request [0x03#8, 0x22#8, 0x22#8] = .error (.unassignedCmd 0x22#8)) ∧
    decode .hostAck [0x33#8] = .error (.notASentinel 0x33#8) ∧
    (decode .chipIdReply [] = .error .truncated ∧ decode .crc32Reply [0x05#8, 0x00#8] = .error (.lenTooSmall 5#8) ∧
      decode .commandStatus [0x04#8, 0x00#8] = .error (.lenTooLarge 4#8) ∧
      decode .commandStatus [0x03#8, 0x41#8, 0x40#8] = .error (.badChecksum 0x41#8) ∧
      decode .commandStatus [0x03#8, 0x45#8, 0x45#8] = .error (.badStatus 0x45#8)) ∧
    (sessionOpen (waiting []).session = true ∧ LinkUp (waiting []) 1 ∧ (zeros 304).length + 1 ≤ bufCapOf (waiting []).cfg) ∧
    (decode .sentinel [0x34#8] = .error (.notASentinel 0x34#8) ∧ SentinelFree [0x34#8] ∧
      decode .sentinel [0x00#8, 0xCC#8, 0x33#8] = .error (.notASentinel 0x00#8) ∧
      ([0x00#8, 0xCC#8, 0x33#8] : List Byte) = [0x00#8] ++ 0xCC#8 :: [0x33#8] ∧ SentinelFree [0x00#8] ∧
      decode .sentinel [0x34#8, 0x33#8] = .error (.notASentinel 0x34#8) ∧
      ([0x34#8, 0x33#8] : List Byte) = [0x34#8] ++ 0x33#8 :: []) := by decide
theorem test_bad_reply : answers (step { linked .entered [] with pending := [.wire .commandStatus [0x03#8, 0x45#8, 0x45#8]] })
    (.error (.invalidStatusCode 0x45#8)) = true := by decide
theorem test_witness_OnlyEntryDrivesLinesAndRecovers :
    (waiting [.item .ping]).pending.head? ≠ some (.op .enterBootloader) ∧
    (∃ t, step { linked .faulted [] with err := 2#4, fault := true, pending := [.op (.wait 5#64)] } = .next t ∧
      t.result = .value .unit) ∧
    ∃ t, step { linked .faulted [] with err := 2#4, fault := true, pending := [.op .enterBootloader] } = .next t ∧
      t.result = .value .unit := ⟨by decide, next_of_answers (by decide), next_of_answers (by decide)⟩
theorem test_witness_ErrorsAreTaken :
    (∃ t, step (waiting [.item .nack]) = .next t ∧ t.result = .error (.nack 0#16)) ∧
    (∃ t, step { linked .entered (zeros 39) with pending := [.procedure .initialise] } = .next t ∧
      t.result = .protocol .noAck) ∧
    (∃ t, step { linked .entered (zeros 4 ++ [0xCC#8, 3#8, 0x41#8, 0x40#8] ++ zeros 27) with pending := [.item .getStatus] } =
      .next t ∧ t.result = .error (.badChecksum 0x41#8 0x40#8)) ∧
    (∃ t, step { linked .operational (zeros 15 ++ [0xCC#8, 7#8, 0#8] ++ zeros 13) with
      pending := [.procedure (.crcQuery 0#32 0#32)] } = .next t ∧
      t.result = .protocol (.boundViolation .maxPayloadExceeded 7)) ∧
    ∃ t, step { linked .operational (statusWindow 0x44#8) with pending := [.procedure .checkStatus] } = .next t ∧
      t.result = .error (.verification (.statusNotSuccess .flashFail)) :=
  ⟨next_of_answers (by decide), next_of_answers (by decide), next_of_answers (by decide), next_of_answers (by decide),
    next_of_answers (by decide)⟩
theorem test_witness_TraceOnlyGrows_ValuesRaiseNothing :
    (∃ t, step (waiting [.op .hostAck, .op .ackScan]) = .next t ∧ t.result = .value .unit) ∧
    (∃ t, step (waiting [.op .enterBootloader]) = .next t ∧ t.result = .value .unit) :=
  ⟨next_of_answers (by decide), next_of_answers (by decide)⟩

end Sys2Proof.Tests
end

section
/-! SUPPORT. How a step serves the head of the controller's queue, and what a placed opcode-table word leaves of the state. -/

namespace Sys2Proof.Machine

open Sys2Proof

/-! ## The queue -/

theorem step_of_pending {s : State} {r : Request} {rest : List Request} (h : s.pending = r :: rest) :
    step s = execRequest r (s.setPending rest) := by
  simp only [step, stepRequest, h]

theorem execWire_of_decode {e : Expectation} {bytes : List Byte} {i : Instr} (h : decode e bytes = .ok i) (s : State) :
    execWire e bytes s = exec i s := by
  simp only [execWire, h]

theorem step_wire_of_decode {s : State} {e : Expectation} {bytes : List Byte} {rest : List Request} {i : Instr}
    (hq : s.pending = .wire e bytes :: rest) (hd : decode e bytes = .ok i) : step s = exec i (s.setPending rest) :=
  (step_of_pending hq).trans (execWire_of_decode hd _)

theorem step_item {s : State} {i : Instr} {rest : List Request} (hq : s.pending = .item i :: rest) :
    step s = exec i (s.setPending rest) :=
  step_of_pending hq

/-! ## Opcode-table words -/

theorem decodeTableWord_eq_some_iff {nbits w : Nat} {i : Instr} :
    decodeTableWord nbits w = some i ↔ decode (tableExpectation nbits w) (tableBytes nbits w) = .ok i := by
  cases hd : decode (tableExpectation nbits w) (tableBytes nbits w) with
  | error d => simp [decodeTableWord, hd]
  | ok j => simp [decodeTableWord, hd]

theorem openSession_of_open {s : State} (h : sessionOpen s.session = true) : openSession s = s := if_pos h

theorem withFetchWord_pending (s : State) (nbits w : Nat) :
    (s.withFetchWord nbits w).pending = .wire (tableExpectation nbits w) (tableBytes nbits w) :: s.pending := rfl

/-- In an open session, placing a word only lengthens the queue: with its request taken off, the state is what it was. -/
theorem withFetchWord_setPending_of_open {s : State} (h : sessionOpen s.session = true) (nbits w : Nat) :
    (s.withFetchWord nbits w).setPending s.pending = s := by
  rw [State.withFetchWord, placeWord, openSession_of_open h]
  rfl

theorem step_withFetchWord {s : State} {nbits w : Nat} {i : Instr} (ho : sessionOpen s.session = true)
    (hd : decodeTableWord nbits w = some i) : step (s.withFetchWord nbits w) = exec i s := by
  have hrun := step_wire_of_decode (withFetchWord_pending s nbits w) (decodeTableWord_eq_some_iff.mp hd)
  rwa [withFetchWord_setPending_of_open ho] at hrun

/-- Settles O51, one clause for each way a wire item comes to the head of the queue: as bytes, typed, and as a placed
opcode-table word. -/
theorem stepRunsDecodedInstruction : Obligations.StepRunsDecodedInstruction := by
  refine ⟨fun s e bytes rest i hq hd => ?bytes, fun s i rest hq => ?typed, fun s nbits w i ho hd => ?word⟩
  case bytes => exact step_wire_of_decode hq hd
  case typed => exact step_item hq
  case word => exact step_withFetchWord ho hd

end Sys2Proof.Machine
end

section
/-! SUPPORT. What construction leaves, and what every step keeps: the invariant of Sys2Proof/Safety.lean, TRACE and time,
and the lines and the error outside ENTER_BOOTLOADER, which three updates of its own join to the micro steps of
Laws/Micro.lean. -/

namespace Sys2Proof.Machine

open Sys2Proof

/-! ## Construction -/

theorem configurationLegal_iff (c : Configuration) :
    configurationLegal c = true ↔ (1 ≤ c.spiClockHz.toNat ∧ c.spiClockHz.toNat ≤ 4000000) ∧
      15 ≤ c.resetLowMs.toNat ∧ 35 ≤ c.resetHighMs.toNat ∧ 20 ≤ c.blEntryQuietMs.toNat ∧
      1 ≤ c.maxPayload.toNat ∧ c.maxPayload.toNat ≤ 252 := by
  rw [configurationLegal, decide_eq_true_iff, and_assoc]

theorem configurationLegal_default : configurationLegal defaultConfiguration = true := by decide

theorem construct_of_illegal {c : Configuration} (h : configurationLegal c = false) (opens : Bool) :
    State.construct opens c = .error .illegalConfiguration := by simp [State.construct, h]

theorem construct_of_closed {c : Configuration} (h : configurationLegal c = true) :
    State.construct false c = .error (.error .transport) := by simp [State.construct, h]

theorem construct_of_legal {c : Configuration} (h : configurationLegal c = true) :
    State.construct true c = .ok (State.ofConfiguration c) := by simp [State.construct, h]

/-- A block that exists has a legal configuration and the state that construction gives it. -/
theorem construct_eq_ok {opens : Bool} {c : Configuration} {s : State} (h : State.construct opens c = .ok s) :
    configurationLegal c = true ∧ s = State.ofConfiguration c := by
  cases hc : configurationLegal c with
  | false => rw [construct_of_illegal hc] at h; cases h
  | true =>
    cases opens with
    | false => rw [construct_of_closed hc] at h; cases h
    | true => rw [construct_of_legal hc] at h; cases h; exact ⟨rfl, rfl⟩

theorem bufferOk_nil (cap : Nat) : BufferOk [] cap := ⟨Memory.wf_nil, Memory.within_nil cap⟩

/-- Every buffer is empty, every flag clear, both lines high and TRACE empty. -/
theorem inv_ofConfiguration {c : Configuration} (h : configurationLegal c = true) : Inv (State.ofConfiguration c) where
  config := h
  txOk := bufferOk_nil _
  rxOk := bufferOk_nil _
  payOk := bufferOk_nil _
  txlenOk := Nat.zero_le _
  rxlenOk := Nat.zero_le _
  paylenOk := Nat.zero_le _
  faultFlag := by simp [State.ofConfiguration]
  errSet := by simp [State.ofConfiguration]
  oneSentinel := by simp [State.ofConfiguration]
  scanposOk := by simp [State.ofConfiguration]
  linesHigh _ := ⟨rfl, rfl⟩
  lawful := by simp [State.ofConfiguration]
  inOrder := by simp [State.ofConfiguration, Chronological]

/-- Settles O53. -/
theorem constructionValues : Obligations.ConstructionValues := by
  refine ⟨configurationLegal_iff, fun _ opens h => construct_of_illegal h opens, fun _ h => construct_of_closed h,
    fun c h => ⟨_, construct_of_legal h, ?values⟩, construct_of_legal configurationLegal_default, ?registers⟩
  case values => simp [State.ofConfiguration]
  case registers => exact ⟨rfl, rfl, rfl, rfl, rfl, rfl, rfl, fun _ => ⟨rfl, rfl⟩⟩

/-- Settles O54. -/
theorem invariantAtReset : Obligations.InvariantAtReset := by
  refine ⟨inv_ofConfiguration configurationLegal_default, fun opens c s h => ?_⟩
  obtain ⟨hc, rfl⟩ := construct_eq_ok h
  exact inv_ofConfiguration hc

/-! ## Every step as a sequence of updates -/

/-- One update a step can make: a micro step, the taking of a request, or one of the three updates that ENTER_BOOTLOADER
alone makes (40_transport.md R96). -/
inductive Change : State → State → Prop where
  | micro {s t : State} (m : Micro s t) : Change s t
  | setPending (s : State) (q : List Request) : Change s (s.setPending q)
  | clearForEntry (s : State) : Change s s.clearForEntry
  | driveLine (s : State) (pin : Pin) (level : Bool) : Change s (s.driveLine pin level)
  | enter (s : State) : Change s (s.setSession .entered)

/-- Any number of updates. -/
abbrev Changes : State → State → Prop := Relation.ReflTransGen Change

theorem Steps.changes {s t : State} (h : Steps s t) : Changes s t := by
  induction h with
  | refl => exact .refl
  | tail _ m ih => exact ih.tail (.micro m)

/-- A predicate every update keeps is kept by any number of them. -/
theorem Changes.keep {P : State → Prop} (change : ∀ {s t}, Change s t → P s → P t) {s t : State} (h : Changes s t)
    (hs : P s) : P t := by
  induction h with
  | refl => exact hs
  | tail _ c ih => exact change c ih

theorem Run.andThen_changes {α β : Type} {s : State} {r : Run α} {f : α → State → Run β} (hr : Changes s r.state)
    (hf : ∀ a t, Changes t (f a t).state) : Changes s (r.andThen f).state := by
  rcases Run.andThen_cases r f with ⟨k, -, e⟩ | ⟨a, -, e⟩
  · rw [e]; exact hr
  · rw [e]; exact hr.trans (hf a _)

theorem lineWrite_changes (pin : Pin) (level : Bool) (s : State) : Changes s (lineWrite pin level s).state := by
  have draw : Changes s { s with env := s.envAfter 1 0 0 } := .single (.micro (.ioDraw s))
  cases h : s.ioFails 0 with
  | false => rw [lineWrite_up _ _ h]; exact draw.tail (.driveLine _ _ _)
  | true => rw [lineWrite_down _ _ h]; exact draw.tail (.micro (.takeError _ _ trivial))

theorem wait_changes (d : U64) (s : State) : Changes s (wait d s).state := (wait_tracks d s).steps.changes

/-- The dummy byte is a load and a transfer, although it is sent with Exchange directly (40_transport.md R96). -/
theorem dummyByte_eq_transfer (s : State) : dummyByte s = transfer (s.loadTx [0x00#8]) := by
  rw [transfer, State.txBytes_loadTx s (by decide), dummyByte]

theorem dummyByte_changes (s : State) : Changes s (dummyByte s).state := by
  have hlen : [0x00#8].length ≤ bufCapOf s.cfg := length_sentinel_le s _
  rw [dummyByte_eq_transfer]
  exact (transfer_loadTx_tracks (by decide) hlen).steps.changes

theorem resetPulse_changes (s : State) : Changes s (resetPulse s).state :=
  Run.andThen_changes (lineWrite_changes _ _ s) fun _ _ => Run.andThen_changes (lineWrite_changes _ _ _) fun _ _ =>
    Run.andThen_changes (wait_changes _ _) fun _ _ => Run.andThen_changes (lineWrite_changes _ _ _) fun _ _ =>
    wait_changes _ _

theorem enterBootloader_changes (s : State) : Changes s (enterBootloader s).state :=
  .head (.clearForEntry s) <|
    Run.andThen_changes (resetPulse_changes _) fun _ _ => Run.andThen_changes (dummyByte_changes _) fun _ _ =>
    Run.andThen_changes (wait_changes _ _) fun _ _ => Run.andThen_changes (lineWrite_changes _ _ _) fun _ t =>
    .single (.enter t)

/-- Everything a step can do. -/
theorem step_changes {s t : State} (e : step s = .next t) : Changes s t := by
  rcases step_cases e with ⟨-, rfl⟩ | ⟨r, rest, -, e⟩
  · exact .refl
  · refine .head (.setPending s rest) ?_
    rcases execRequest_cases e with ⟨-, rfl⟩ | ⟨-, h⟩
    · exact (enterBootloader_changes _).tail (.micro (.setResult _ _))
    · exact h.steps.changes

/-! ## TRACE and time -/

theorem Event.start_le_stop {c : Configuration} {e : Event} (h : e.lawful c) : e.start ≤ e.stop := by
  cases e with
  | line _ _ t => exact BitVec.le_refl t
  | xfer tx rx t0 t1 => obtain ⟨-, -, -, hle, -⟩ := h; exact hle
  | sleep d t0 t1 => exact h.1

/-- From `s` to `t` one lawful event is appended, which begins and ends with them (10_state.md R34). -/
structure Logged (s t : State) (e : Event) : Prop where
  trace : t.trace = s.trace ++ [e]
  start : e.start = s.now
  stop : e.stop = t.now
  lawful : e.lawful s.cfg

/-- What a micro step does to TRACE and time: nothing, or one event that is no line event. -/
theorem Micro.logs {s t : State} (m : Micro s t) :
    t.trace = s.trace ∧ t.now = s.now ∨ ∃ e, Logged s t e ∧ ∀ pin level at', e ≠ .line pin level at' := by
  cases m with
  | transferred lo hi =>
    refine .inr ⟨_, ⟨rfl, rfl, rfl, ?_⟩, nofun⟩
    have elapsed := endTime_elapsed s.now (exchangeMinNs s.cfg s.txlen.toNat) (s.clockAhead 0)
    simp only [Event.lawful, State.capture_length, State.txBytes_length]
    exact ⟨trivial, lo, hi, elapsed⟩
  | waited d => exact .inr ⟨_, ⟨waitAtLeast_trace d s, rfl, rfl, waitAtLeast_elapsed d s⟩, nofun⟩
  | _ => exact .inl ⟨rfl, rfl⟩

theorem Micro.cfg_eq {s t : State} (m : Micro s t) : t.cfg = s.cfg := by
  cases m <;> rfl

theorem Change.logs {s t : State} (c : Change s t) : t.trace = s.trace ∧ t.now = s.now ∨ ∃ e, Logged s t e := by
  cases c with
  | micro m => exact m.logs.imp_right fun ⟨e, he, _⟩ => ⟨e, he⟩
  | driveLine pin level => exact .inr ⟨_, rfl, rfl, rfl, trivial⟩
  | _ => exact .inl ⟨rfl, rfl⟩

theorem Change.cfg_eq {s t : State} (c : Change s t) : t.cfg = s.cfg := by
  cases c with
  | micro m => exact m.cfg_eq
  | _ => rfl

/-- TRACE extended, time not gone back, the configuration untouched. -/
def Grows (s t : State) : Prop := s.trace <+: t.trace ∧ s.now ≤ t.now ∧ t.cfg = s.cfg

theorem Change.grows {s t : State} (c : Change s t) : Grows s t := by
  refine ⟨?_, ?_, c.cfg_eq⟩ <;> rcases c.logs with ⟨htrace, hnow⟩ | ⟨e, he⟩
  · exact ⟨[], by rw [htrace, List.append_nil]⟩
  · exact ⟨[e], he.trace.symm⟩
  · exact hnow ▸ BitVec.le_refl _
  · exact he.start ▸ he.stop ▸ Event.start_le_stop he.lawful

theorem Grows.trans {s t u : State} (h : Grows s t) (g : Grows t u) : Grows s u := by
  obtain ⟨htrace, hnow, hcfg⟩ := h
  obtain ⟨gtrace, gnow, gcfg⟩ := g
  exact ⟨htrace.trans gtrace, BitVec.le_trans hnow gnow, gcfg.trans hcfg⟩

/-- Settles O56: each update grows TRACE and time, and any number of them does. -/
theorem traceOnlyGrows : Obligations.TraceOnlyGrows := fun s _ e =>
  (step_changes e).keep (P := Grows s) (fun c h => h.trans c.grows) ⟨⟨[], List.append_nil _⟩, BitVec.le_refl _, rfl⟩

/-- An event that begins at `now` goes to the end of a chronological TRACE. -/
theorem Chronological.snoc {trace : List Event} {now : U64} {e : Event} (h : Chronological trace now)
    (hstart : e.start = now) (hle : e.start ≤ e.stop) : Chronological (trace ++ [e]) e.stop := by
  obtain ⟨order, bounds⟩ := h
  refine ⟨List.pairwise_append.mpr ⟨order, List.pairwise_singleton _ _, fun a ha b hb => ?_⟩, fun a ha => ?_⟩
  · rw [List.mem_singleton.mp hb, hstart]
    exact (bounds a ha).2
  · rcases List.mem_append.mp ha with ha | ha
    · obtain ⟨astart, astop⟩ := bounds a ha
      exact ⟨astart, BitVec.le_trans astop (hstart ▸ hle)⟩
    · rw [List.mem_singleton.mp ha]
      exact ⟨hle, BitVec.le_refl _⟩

/-- The part of the invariant that speaks of TRACE. -/
structure TraceOk (s : State) : Prop where
  lawful : ∀ e ∈ s.trace, e.lawful s.cfg
  inOrder : Chronological s.trace s.now

theorem Change.traceOk {s t : State} (c : Change s t) (h : TraceOk s) : TraceOk t := by
  rcases c.logs with ⟨htrace, hnow⟩ | ⟨e, he⟩
  · exact ⟨by rw [htrace, c.cfg_eq]; exact h.lawful, by rw [htrace, hnow]; exact h.inOrder⟩
  · refine ⟨fun a ha => ?_, ?_⟩
    · rw [he.trace, List.mem_append, List.mem_singleton] at ha
      rw [c.cfg_eq]
      rcases ha with ha | rfl
      · exact h.lawful a ha
      · exact he.lawful
    · rw [he.trace, ← he.stop]
      exact h.inOrder.snoc he.start (Event.start_le_stop he.lawful)

/-! ## The buffers and the scan -/

theorem bufferOk_writeRange {m : Memory} {cap : Nat} (h : BufferOk m cap) {bytes : List Byte}
    (hl : bytes.length ≤ cap) : BufferOk (m.writeRange 0 bytes) cap :=
  ⟨Memory.wf_writeRange h.1 0 bytes, Memory.within_writeRange h.2 0 bytes (by omega)⟩

theorem toNat_ofNat_le (w n : Nat) : (BitVec.ofNat w n).toNat ≤ n := by
  rw [BitVec.toNat_ofNat]; exact Nat.mod_le _ _

/-- The part of the invariant that speaks of the configuration, the buffers, their lengths and the scan flags. -/
structure BuffersOk (s : State) : Prop where
  config : configurationLegal s.cfg = true
  txOk : BufferOk s.txbuf (bufCapOf s.cfg)
  rxOk : BufferOk s.rxbuf (bufCapOf s.cfg)
  payOk : BufferOk s.rpay 253
  txlenOk : s.txlen.toNat ≤ bufCapOf s.cfg
  rxlenOk : s.rxlen.toNat ≤ bufCapOf s.cfg
  paylenOk : s.rpaylen.toNat ≤ 253
  oneSentinel : ¬ (s.ackf = true ∧ s.nackf = true)
  scanposOk : s.ackf = true ∨ s.nackf = true → s.scanpos.toNat < bufCapOf s.cfg

theorem Micro.buffersOk {s t : State} (m : Micro s t) (h : BuffersOk s) : BuffersOk t := by
  cases m with
  | load bytes hl =>
    exact { h with txOk := bufferOk_writeRange h.txOk hl, txlenOk := (toNat_ofNat_le _ _).trans hl }
  | transferred lo hi =>
    exact { h with rxOk := bufferOk_writeRange h.rxOk (by rwa [State.capture_length]), rxlenOk := hi }
  | clearScan => exact { h with oneSentinel := nofun, scanposOk := nofun }
  | flagAck p hp =>
    exact { h with
      oneSentinel := nofun
      scanposOk := fun _ => (toNat_ofNat_le _ _).trans_lt (hp.trans_le h.rxlenOk) }
  | flagNack p hp =>
    exact { h with
      oneSentinel := nofun
      scanposOk := fun _ => (toNat_ofNat_le _ _).trans_lt (hp.trans_le h.rxlenOk) }
  | setPayload pay hl =>
    exact { h with payOk := bufferOk_writeRange h.payOk hl, paylenOk := (toNat_ofNat_le _ _).trans hl }
  | _ => exact { h with }

theorem Change.buffersOk {s t : State} (c : Change s t) (h : BuffersOk s) : BuffersOk t := by
  cases c with
  | micro m => exact m.buffersOk h
  | clearForEntry => exact { h with oneSentinel := nofun, scanposOk := nofun }
  | _ => exact { h with }

/-! ## SESSION, the error and the lines -/

/-- The part of the invariant that speaks of SESSION. ENTER_BOOTLOADER breaks it on its way and restores it. -/
structure SessionOk (s : State) : Prop where
  faultFlag : s.fault = true ↔ s.session = .faulted
  errSet : s.err ≠ 0#4 ↔ s.session = .faulted
  linesHigh : s.session ≠ .faulted → s.resetN = true ∧ s.blEnN = true

theorem errorCode_ne_zero (k : ErrorKind) : errorCode k ≠ 0#4 := by
  cases k <;> simp [errorCode]

theorem takeError_err_ne_zero (s : State) (k : ErrorKind) : (s.takeError k).err ≠ 0#4 := by
  rw [State.takeError_err]
  split
  · exact errorCode_ne_zero k
  · assumption

/-- The error entry establishes agreement, whatever was before (60_exceptions.md R230). -/
theorem sessionOk_takeError (s : State) (k : ErrorKind) : SessionOk (s.takeError k) where
  faultFlag := iff_of_true rfl rfl
  errSet := iff_of_true (takeError_err_ne_zero s k) rfl
  linesHigh h := absurd rfl h

theorem Micro.sessionOk {s t : State} (m : Micro s t) (h : SessionOk s) : SessionOk t := by
  cases m with
  | takeError k _ => exact sessionOk_takeError s k
  | setSession x hs hx =>
    exact {
      faultFlag := iff_of_false (mt h.faultFlag.mp hs) hx
      errSet := iff_of_false (mt h.errSet.mp hs) hx
      linesHigh := fun _ => h.linesHigh hs }
  | _ => exact { h with }

/-- ENTER_BOOTLOADER ends in an error entry, or in Entered with FAULT and ERR cleared and both lines high
(40_transport.md R96, 60_exceptions.md R231). -/
theorem enterBootloader_sessionOk (s : State) : SessionOk (enterBootloader s).state := by
  rcases enterBootloader_cases s with ⟨k, -, -, -, e⟩ | ⟨-, e⟩
  · rw [e]; exact sessionOk_takeError _ _
  · rw [e]; exact ⟨iff_of_false nofun nofun, iff_of_false (· rfl) nofun, fun _ => ⟨rfl, rfl⟩⟩

theorem enterBootloader_session (s : State) :
    (enterBootloader s).state.session = .faulted ∨ (enterBootloader s).state.session = .entered := by
  rcases enterBootloader_cases s with ⟨k, -, -, -, e⟩ | ⟨-, e⟩
  · rw [e]; exact .inl rfl
  · rw [e]; exact .inr rfl

/-! ## The invariant -/

theorem inv_iff (s : State) : Inv s ↔ BuffersOk s ∧ SessionOk s ∧ TraceOk s where
  mp h := ⟨{ h with }, { h with }, { h with }⟩
  mpr := fun ⟨hbuf, hses, htr⟩ => { hbuf, hses, htr with }

/-- SESSION, the error and the lines agree after every step: each micro step keeps the agreement, ENTER_BOOTLOADER
establishes it. -/
theorem step_sessionOk {s t : State} (e : step s = .next t) (h : SessionOk s) : SessionOk t := by
  rcases step_cases e with ⟨-, rfl⟩ | ⟨r, rest, -, e⟩
  · exact h
  · rcases execRequest_cases e with ⟨-, rfl⟩ | ⟨-, tracked⟩
    · exact { enterBootloader_sessionOk _ with }
    · exact tracked.steps.keep Micro.sessionOk (P := SessionOk) { h with }

/-- Settles O55, from its three parts. -/
theorem stepKeepsInvariant : Obligations.StepKeepsInvariant := by
  intro s t h e
  obtain ⟨hbuf, hses, htr⟩ := (inv_iff s).mp h
  have changes := step_changes e
  exact (inv_iff t).mpr
    ⟨changes.keep Change.buffersOk hbuf, step_sessionOk e hses, changes.keep Change.traceOk htr⟩

/-! ## The lines and the error outside ENTER_BOOTLOADER -/

/-- Neither line is driven, the first error is kept, and Faulted is not left (10_state.md R30, 60_exceptions.md
R230). -/
structure KeepsEntry (s t : State) : Prop where
  resetN : t.resetN = s.resetN
  blEnN : t.blEnN = s.blEnN
  noLine : ∀ pin level at', Event.line pin level at' ∈ t.trace → Event.line pin level at' ∈ s.trace
  err : s.err ≠ 0#4 → t.err = s.err
  session : s.session = .faulted → t.session = .faulted
  fault : s.fault = true → t.fault = true

theorem KeepsEntry.refl (s : State) : KeepsEntry s s := ⟨rfl, rfl, fun _ _ _ => id, fun _ => rfl, id, id⟩

theorem KeepsEntry.trans {s t u : State} (h : KeepsEntry s t) (g : KeepsEntry t u) : KeepsEntry s u where
  resetN := g.resetN.trans h.resetN
  blEnN := g.blEnN.trans h.blEnN
  noLine pin level at' := h.noLine pin level at' ∘ g.noLine pin level at'
  err hs := (g.err (by rwa [h.err hs])).trans (h.err hs)
  session := g.session ∘ h.session
  fault := g.fault ∘ h.fault

theorem Micro.noLine {s t : State} (m : Micro s t) (pin : Pin) (level : Bool) (at' : U64)
    (h : Event.line pin level at' ∈ t.trace) : Event.line pin level at' ∈ s.trace := by
  rcases m.logs with ⟨htrace, -⟩ | ⟨e, he, notLine⟩
  · rwa [← htrace]
  · rw [he.trace, List.mem_append, List.mem_singleton] at h
    exact h.resolve_right fun heq => notLine pin level at' heq.symm

theorem Micro.keepsEntry {s t : State} (m : Micro s t) : KeepsEntry s t := by
  have noLine := m.noLine
  cases m with
  | takeError k _ => exact ⟨rfl, rfl, noLine, fun h => if_neg h, fun _ => rfl, fun _ => rfl⟩
  | setSession x hs _ => exact ⟨rfl, rfl, noLine, fun _ => rfl, fun h => absurd h hs, id⟩
  | _ => exact ⟨rfl, rfl, noLine, fun _ => rfl, id, id⟩

theorem Steps.keepsEntry {s t : State} (h : Steps s t) : KeepsEntry s t :=
  h.lift KeepsEntry.refl KeepsEntry.trans Micro.keepsEntry

/-- A step runs ENTER_BOOTLOADER, which ends in Faulted or Entered, or keeps what belongs to it. -/
theorem step_entry_or_keeps {s t : State} (e : step s = .next t) :
    (s.pending.head? = some (.op .enterBootloader) ∧ (t.session = .faulted ∨ t.session = .entered)) ∨
      KeepsEntry s t := by
  rcases step_cases e with ⟨-, rfl⟩ | ⟨r, rest, hq, e⟩
  · exact .inr (.refl _)
  · rcases execRequest_cases e with ⟨rfl, rfl⟩ | ⟨-, tracked⟩
    · exact .inl ⟨by rw [hq, List.head?_cons], enterBootloader_session _⟩
    · exact .inr { tracked.steps.keepsEntry with }

/-- Settles O57. -/
theorem onlyEntryDrivesLinesAndRecovers : Obligations.OnlyEntryDrivesLinesAndRecovers := by
  intro s t e
  rcases step_entry_or_keeps e with ⟨hhead, hsession⟩ | keeps
  · exact ⟨fun hne => absurd hhead hne, fun _ => hsession⟩
  · exact ⟨fun _ => ⟨keeps.resetN, keeps.blEnN, keeps.noLine, keeps.err, keeps.session, keeps.fault⟩,
      fun hs => .inl (keeps.session hs)⟩

end Sys2Proof.Machine
end

section
/-! SUPPORT. Byte order and bit order (20_memory.md R42 to R44): the weight of each byte of a big-endian field, where each bit
of a byte sequence stands on MOSI, and which bit of the captured word each bit on MISO becomes. -/

namespace Sys2Proof.Machine

open Sys2Proof

/-! ## Big-endian fields -/

theorem toNat_append_eq_add {m n : Nat} (x : BitVec m) (y : BitVec n) :
    (x ++ y).toNat = x.toNat * 2 ^ n + y.toNat := by
  rw [BitVec.toNat_append, ← Nat.shiftLeft_add_eq_or_of_lt y.isLt, Nat.shiftLeft_eq]

/-- The byte of the lowest index weighs most (20_memory.md R42). -/
theorem toNat_fromBe32 (a b c d : Byte) :
    (fromBe32 a b c d).toNat = a.toNat * 2 ^ 24 + b.toNat * 2 ^ 16 + c.toNat * 2 ^ 8 + d.toNat := by
  simp only [fromBe32, toNat_append_eq_add]
  omega

theorem fromBe32_surjective (v : U32) : ∃ a b c d : Byte, fromBe32 a b c d = v :=
  ⟨_, _, _, _, fromBe32_extract v⟩

/-- Settles O5: every field is `fromBe32` of four bytes, which give its weights and come back under `be32`. -/
theorem bigEndianFields : Obligations.BigEndianFields := by
  refine ⟨fun v => ?fields, be32_fromBe32, ?word3030, ?wordABAB⟩
  case fields =>
    obtain ⟨a, b, c, d, rfl⟩ := fromBe32_surjective v
    exact ⟨a, b, c, d, be32_fromBe32 a b c d, toNat_fromBe32 a b c d, rfl⟩
  case word3030 => decide
  case wordABAB => decide

/-! ## Bits on MOSI -/

@[simp] theorem length_byteBits (b : Byte) : (byteBits b).length = 8 := rfl

theorem getElem?_byteBits (b : Byte) {k : Nat} (hk : k < 8) : (byteBits b)[k]? = some (b.getLsbD (7 - k)) := by
  interval_cases k <;> rfl

theorem wireBits_cons (b : Byte) (s : List Byte) : wireBits (b :: s) = byteBits b ++ wireBits s := List.flatMap_cons

/-- Words travel in index order, so word `i` starts at bit `8 * i` (20_memory.md R44). -/
theorem getElem?_wireBits (s : List Byte) (i k : Nat) (hi : i < s.length) (hk : k < 8) :
    (wireBits s)[8 * i + k]? = some (s[i].getLsbD (7 - k)) := by
  induction s generalizing i with
  | nil => exact absurd hi (Nat.not_lt_zero i)
  | cons b rest ih =>
    rw [wireBits_cons]
    cases i with
    | zero => rw [List.getElem?_append_left (by simpa using hk), Nat.mul_zero, Nat.zero_add, getElem?_byteBits b hk]; rfl
    | succ i =>
      have past : 8 * (i + 1) + k = (byteBits b).length + (8 * i + k) := by rw [length_byteBits]; omega
      rw [past, List.getElem?_append_right (Nat.le_add_right _ _), Nat.add_sub_cancel_left]
      exact ih i (Nat.lt_of_succ_lt_succ hi)

/-! ## Bits on MISO -/

theorem byteOfBits_concat (bits : List Bool) (b : Bool) :
    byteOfBits (bits ++ [b]) = byteOfBits bits <<< 1 ||| (BitVec.ofBool b).setWidth 8 := List.foldl_concat ..

/-- The bit captured last becomes bit 0. -/
theorem getLsbD_zero_byteOfBits_concat (bits : List Bool) (b : Bool) :
    (byteOfBits (bits ++ [b])).getLsbD 0 = b := by
  simp [byteOfBits_concat]

/-- Each bit captured moves the bits before it up by one. -/
theorem getLsbD_succ_byteOfBits_concat (bits : List Bool) (b : Bool) {j : Nat} (hj : j + 1 < 8) :
    (byteOfBits (bits ++ [b])).getLsbD (j + 1) = (byteOfBits bits).getLsbD j := by
  have hlt : j < 8 := Nat.lt_of_succ_lt hj
  simp [byteOfBits_concat, hj, BitVec.getLsbD_eq_getElem hlt]

/-- Bit `j` of the captured word is the `j`-th bit from the end, however many bits were captured. -/
theorem getLsbD_byteOfBits (bits : List Bool) {j : Nat} (hj : j < 8) :
    (byteOfBits bits).getLsbD j = (bits.reverse[j]?).getD false := by
  induction bits using List.reverseRecOn generalizing j with
  | nil => exact BitVec.getLsbD_zero
  | append_singleton bits b ih =>
    rw [List.reverse_concat]
    cases j with
    | zero => exact getLsbD_zero_byteOfBits_concat bits b
    | succ j => rw [getLsbD_succ_byteOfBits_concat bits b hj, ih (by omega), List.getElem?_cons_succ]

/-- The first of eight bits captured becomes bit 7 (20_memory.md R43). -/
theorem getLsbD_byteOfBits_of_length_eq (bits : List Bool) (k : Nat) (hk : k < bits.length) (h8 : bits.length = 8) :
    (byteOfBits bits).getLsbD (7 - k) = bits[k] := by
  have fromEnd : bits.length - 1 - (7 - k) = k := by omega
  rw [getLsbD_byteOfBits bits (by omega), List.getElem?_reverse (by omega), fromEnd, List.getElem?_eq_getElem hk,
    Option.getD_some]

/-- Settles O6. -/
theorem bitsOnTheWire : Obligations.BitsOnTheWire :=
  ⟨getElem?_wireBits, getLsbD_byteOfBits_of_length_eq⟩

end Sys2Proof.Machine
end

section
/-! SUPPORT. The wire items' codec (30_encoding.md): the layouts of the packets, and that decoding and encoding undo each
other. -/

namespace Sys2Proof.Machine

open Sys2Proof

/-! ## Layouts -/

theorem payloadOf_sendData (d : List Byte) : payloadOf (.sendData d) = d := List.append_nil d

theorem payloadOf_memoryWrite (a n : U32) (d : List Byte) :
    payloadOf (.memoryWrite a n d) = be32 a ++ be32 n ++ d := by
  simp [payloadOf, fieldValues, encFields, encField]

theorem checksum_singleton (b : Byte) : checksum [b] = b := by
  rw [checksum_cons, checksum_nil, BitVec.add_zero]

/-- Every reply's encoding is the packet of its payload (30_encoding.md R61). -/
theorem encode_reply {i : Instr} {v : Variant} (hv : variantOf i = some v) (hc : cmdOf v = none) :
    encode i = replyPacket (payloadOf i) := by
  cases i <;> simp only [variantOf, Option.some.injEq, reduceCtorEq] at hv <;> subst hv <;>
    simp only [cmdOf, reduceCtorEq] at hc <;> rfl

/-- A wire item of no variant is a sentinel (30_encoding.md R62). -/
theorem variantOf_eq_none_iff {i : Instr} : variantOf i = none ↔ i = .nack ∨ ∃ x, i = .ack x := by
  cases i <;> simp [variantOf]

/-- Settles O4: each layout is the packet of the item's CMD and payload; the two payloads of variable size are written out
above. -/
theorem packetLayouts : Obligations.PacketLayouts := by
  refine ⟨fun cmd i hi => ?bare, fun _ => rfl, fun _ _ => rfl, fun _ _ _ => rfl, fun _ _ _ => rfl, fun d => ?sendData,
    fun a n d => ?memoryWrite, fun _ => rfl, fun _ => rfl, fun v => ?commandStatus, fun _ => rfl, rfl⟩
  case bare =>
    simp only [List.mem_cons, Prod.mk.injEq, List.not_mem_nil, or_false] at hi
    rcases hi with ⟨rfl, rfl⟩ | ⟨rfl, rfl⟩ | ⟨rfl, rfl⟩ | ⟨rfl, rfl⟩ | ⟨rfl, rfl⟩ <;> rfl
  case sendData => rw [encode, payloadOf_sendData]; rfl
  case memoryWrite =>
    have hlen : 3 + (be32 a ++ be32 n ++ d).length = 11 + d.length := by simp; omega
    rw [encode, payloadOf_memoryWrite, requestPacket, hlen]; rfl
  case commandStatus =>
    calc encode (.commandStatus v) = [3#8, checksum [statusCode v], statusCode v] := rfl
      _ = [3#8, statusCode v, statusCode v] := by rw [checksum_singleton]

/-- Settles O3: the decoder runs on each word. -/
theorem specWordsDecode : Obligations.SpecWordsDecode := by
  unfold Obligations.SpecWordsDecode
  decide

/-! ## Decoding an encoding -/

/-- A packet in its variant's bounds passes the checks of its header, whatever follows it (30_encoding.md R60). -/
theorem decodeRequest_requestPacket {cmd : Byte} {v : Variant} {pay : List Byte} (hc : variantOfCmd cmd = some v)
    (lo : minLen v ≤ 3 + pay.length) (hi : 3 + pay.length ≤ maxLen v) (rest : List Byte) :
    decodeRequest (requestPacket cmd pay ++ rest) = decodePayload v pay := by
  have hlen : (BitVec.ofNat 8 (3 + pay.length)).toNat = 3 + pay.length := by
    have := maxLen_le v
    rw [BitVec.toNat_ofNat]; exact Nat.mod_eq_of_lt (by omega)
  have hpay : (pay ++ rest).take (3 + pay.length - 3) = pay := by simp
  simp only [requestPacket, List.cons_append, decodeRequest, hc, hlen, hpay]
  rw [if_neg (by omega), if_neg (by omega), if_neg (by simp), if_neg (by simp)]

/-- A reply packet passes the checks of its header too (30_encoding.md R61). -/
theorem decodeReply_replyPacket {v : Variant} {pay : List Byte} (lo : minLen v ≤ 3 + pay.length)
    (hi : 3 + pay.length ≤ maxLen v) (rest : List Byte) :
    decodeReply v (replyPacket pay ++ rest) = decodePayload v pay := by
  have hlen : (BitVec.ofNat 8 (2 + pay.length)).toNat = 2 + pay.length := by
    have := maxLen_le v
    rw [BitVec.toNat_ofNat]; exact Nat.mod_eq_of_lt (by omega)
  have hpay : (pay ++ rest).take (2 + pay.length - 2) = pay := by simp
  simp only [replyPacket, List.cons_append, decodeReply, hlen, hpay]
  rw [if_neg (by omega), if_neg (by omega), if_neg (by simp), if_neg (by simp)]

/-- What a decoder must expect to read a packet of a variant (30_encoding.md R73): a request is found by its CMD, a reply by
the variant expected. -/
def packetExpectation : Variant → Expectation
  | .chipIdReply => .chipIdReply
  | .crc32Reply => .crc32Reply
  | .commandStatus => .commandStatus
  | _ => .request

theorem expectationOf_eq_packetExpectation {i : Instr} {v : Variant} (hv : variantOf i = some v) :
    expectationOf i = packetExpectation v := by
  cases i <;> simp only [variantOf, Option.some.injEq, reduceCtorEq] at hv <;> subst hv <;> rfl

theorem packetExpectation_of_request {v : Variant} {cmd : Byte} (hc : cmdOf v = some cmd) :
    packetExpectation v = .request := by
  cases v <;> simp only [cmdOf, reduceCtorEq] at hc <;> rfl

theorem decode_packetExpectation_of_reply {v : Variant} (hc : cmdOf v = none) :
    decode (packetExpectation v) = decodeReply v := by
  cases v <;> simp only [cmdOf, reduceCtorEq] at hc <;> rfl

/-- Settles O1: a request comes back through its CMD, a reply through the variant expected, a sentinel by its byte. -/
theorem decodeOfEncode : Obligations.DecodeOfEncode := by
  intro i rest hw
  cases hv : variantOf i with
  | none =>
    rcases variantOf_eq_none_iff.mp hv with rfl | ⟨x, rfl⟩
    · rfl
    · cases x <;> rfl
  | some v =>
    obtain ⟨lo, hi⟩ := (wellFormed_iff_bounds hv).mp hw
    have hpay := decodePayload_payloadOf hv
    cases hc : cmdOf v with
    | some cmd =>
      rw [expectationOf_eq_packetExpectation hv, packetExpectation_of_request hc, encode_request hv hc]
      exact (decodeRequest_requestPacket (variantOfCmd_of_cmdOf hc) lo hi rest).trans hpay
    | none =>
      rw [expectationOf_eq_packetExpectation hv, decode_packetExpectation_of_reply hc, encode_reply hv hc]
      exact (decodeReply_replyPacket lo hi rest).trans hpay

/-! ## Encoding what was decoded -/

/-- A payload in its variant's bounds that decodes is the item's payload, with nothing left over. -/
theorem decodePayload_exact {v : Variant} {pay : List Byte} {i : Instr} (h : decodePayload v pay = .ok i)
    (lo : minLen v ≤ 3 + pay.length) (hi : 3 + pay.length ≤ maxLen v) :
    variantOf i = some v ∧ WellFormed i ∧ pay = payloadOf i := by
  obtain ⟨hv, left, rfl, hbytes⟩ := decodePayload_ok h
  have hleft : left = [] := by
    by_cases hb : FieldType.bytes ∈ fieldsOf v
    · exact hbytes hb
    · obtain ⟨-, hmax⟩ := fixed_length hv hb
      rw [List.length_append] at hi
      exact List.length_eq_zero_iff.mp (by omega)
  subst hleft
  rw [List.append_nil] at lo hi ⊢
  exact ⟨hv, (wellFormed_iff_bounds hv).mpr ⟨lo, hi⟩, rfl⟩

/-- A byte that counts `n` bytes before it counts `k` more. -/
theorem ofNat_add_of_toNat_sub {len : Byte} {k n : Nat} (hk : k ≤ len.toNat) (hn : n = len.toNat - k) :
    BitVec.ofNat 8 (k + n) = len := by
  rw [hn, Nat.add_sub_cancel' hk, BitVec.ofNat_toNat, BitVec.setWidth_eq]

/-- A request that decodes begins with a packet in the bounds of the variant its CMD names. -/
theorem decodeRequest_ok {s : List Byte} {i : Instr} (h : decodeRequest s = .ok i) :
    ∃ cmd v pay rest, variantOfCmd cmd = some v ∧ minLen v ≤ 3 + pay.length ∧ 3 + pay.length ≤ maxLen v ∧
      s = requestPacket cmd pay ++ rest ∧ decodePayload v pay = .ok i := by
  unfold decodeRequest at h
  split at h
  case h_2 => cases h
  next len cks cmd rest =>
  split at h
  case h_1 => cases h
  next v hc =>
  have hmin := minLen_ge v
  split at h; · cases h
  next lo =>
  split at h; · cases h
  next hi =>
  split at h; · cases h
  next hrest =>
  split at h; · cases h
  next hsum =>
  have hn : (rest.take (len.toNat - 3)).length = len.toNat - 3 := by rw [List.length_take]; omega
  refine ⟨cmd, v, rest.take (len.toNat - 3), rest.drop (len.toNat - 3), hc, by omega, by omega, ?_, h⟩
  rw [requestPacket, ofNat_add_of_toNat_sub (by omega) hn, not_not.mp hsum]
  simp

/-- A reply that decodes begins with a packet in the bounds of the variant expected. -/
theorem decodeReply_ok {v : Variant} {s : List Byte} {i : Instr} (h : decodeReply v s = .ok i) :
    ∃ pay rest, minLen v ≤ 3 + pay.length ∧ 3 + pay.length ≤ maxLen v ∧ s = replyPacket pay ++ rest ∧
      decodePayload v pay = .ok i := by
  have hmin := minLen_ge v
  unfold decodeReply at h
  split at h
  case h_2 => cases h
  next len cks rest =>
  split at h; · cases h
  next lo =>
  split at h; · cases h
  next hi =>
  split at h; · cases h
  next hrest =>
  split at h; · cases h
  next hsum =>
  have hn : (rest.take (len.toNat - 2)).length = len.toNat - 2 := by rw [List.length_take]; omega
  refine ⟨rest.take (len.toNat - 2), rest.drop (len.toNat - 2), by omega, by omega, ?_, h⟩
  rw [replyPacket, ofNat_add_of_toNat_sub (by omega) hn, not_not.mp hsum]
  simp

/-- What is claimed of an item that `bytes` decode to, under the expectation `e`. -/
def EncodesPrefix (e : Expectation) (bytes : List Byte) (i : Instr) : Prop :=
  WellFormed i ∧ expectationOf i = e ∧ ∃ rest, bytes = encode i ++ rest

theorem encodesPrefix_of_decodeRequest {bytes : List Byte} {i : Instr} (h : decodeRequest bytes = .ok i) :
    EncodesPrefix .request bytes i := by
  obtain ⟨cmd, v, pay, rest, hcmd, lo, hi, rfl, hpay⟩ := decodeRequest_ok h
  obtain ⟨hv, hw, rfl⟩ := decodePayload_exact hpay lo hi
  have hc := cmdOf_of_variantOfCmd hcmd
  exact ⟨hw, (expectationOf_eq_packetExpectation hv).trans (packetExpectation_of_request hc), rest,
    by rw [encode_request hv hc]⟩

theorem encodesPrefix_of_decodeReply {v : Variant} {bytes : List Byte} {i : Instr} (hc : cmdOf v = none)
    (h : decodeReply v bytes = .ok i) : EncodesPrefix (packetExpectation v) bytes i := by
  obtain ⟨pay, rest, lo, hi, rfl, hpay⟩ := decodeReply_ok h
  obtain ⟨hv, hw, rfl⟩ := decodePayload_exact hpay lo hi
  exact ⟨hw, expectationOf_eq_packetExpectation hv, rest, by rw [encode_reply hv hc]⟩

theorem encodesPrefix_of_decodeSentinel {bytes : List Byte} {i : Instr} (h : decodeSentinel bytes = .ok i) :
    EncodesPrefix .sentinel bytes i := by
  unfold decodeSentinel at h
  split at h
  case h_2 => cases h
  next b rest =>
  split at h
  · next hb => cases h; exact ⟨rfl, rfl, rest, by rw [hb]; rfl⟩
  split at h
  · next hb => cases h; exact ⟨rfl, rfl, rest, by rw [hb]; rfl⟩
  · cases h

theorem encodesPrefix_of_decodeHostAck {bytes : List Byte} {i : Instr} (h : decodeHostAck bytes = .ok i) :
    EncodesPrefix .hostAck bytes i := by
  unfold decodeHostAck at h
  split at h
  case h_2 => cases h
  next b rest =>
  split at h
  · next hb => cases h; exact ⟨rfl, rfl, rest, by rw [hb]; rfl⟩
  · cases h

/-- Settles O2, one decoder for each expectation. -/
theorem encodeOfDecode : Obligations.EncodeOfDecode := by
  intro e bytes i h
  cases e with
  | request => exact encodesPrefix_of_decodeRequest h
  | chipIdReply => exact encodesPrefix_of_decodeReply (v := .chipIdReply) rfl h
  | crc32Reply => exact encodesPrefix_of_decodeReply (v := .crc32Reply) rfl h
  | commandStatus => exact encodesPrefix_of_decodeReply (v := .commandStatus) rfl h
  | sentinel => exact encodesPrefix_of_decodeSentinel h
  | hostAck => exact encodesPrefix_of_decodeHostAck h

end Sys2Proof.Machine
end

section
/-! SUPPORT. What a step makes of bytes that are no wire item of the expected kind (41_framer.md R113, R114, R116; logs 2 and
11): PARSE_REPLY and the decoder of replies make the same checks in the same order, so they find the same thing wrong. -/

namespace Sys2Proof.Machine

open Sys2Proof

/-! ## PARSE_REPLY after an ACK -/

theorem State.rxlen_of_rxBytes {s : State} {z tail : List Byte} (hr : s.rxBytes = z ++ ackByte :: tail) :
    s.rxlen.toNat = z.length + 1 + tail.length := by
  rw [← State.rxBytes_length, hr, List.length_append, List.length_cons]; omega

/-- The sentinel's position fits SCANPOS. -/
theorem State.flagAck_scanpos_of_rxBytes {s : State} {z tail : List Byte} (hr : s.rxBytes = z ++ ackByte :: tail) :
    (s.flagAck z.length).scanpos.toNat = z.length := by
  have hlen := State.rxlen_of_rxBytes hr
  have hlt := s.rxlen.isLt
  rw [State.flagAck_scanpos, BitVec.toNat_ofNat]; exact Nat.mod_eq_of_lt (by omega)

/-- PARSE_REPLY where the window ends before the header does (41_framer.md R116). -/
theorem parseReply_noHeader {s : State} (v : Variant) {z tail : List Byte} (hz : SentinelFree z)
    (hr : s.rxBytes = z ++ ackByte :: tail) (hshort : tail.length < 2) :
    parseReply v s = Run.raise .packetTooShort (s.flagAck z.length) := by
  have hlen := State.rxlen_of_rxBytes hr
  unfold parseReply
  rw [ackScan_ack hr hz, Run.andThen_done, State.flagAck_scanpos_of_rxBytes hr, State.flagAck_rxlen, if_pos (by omega)]

/-- PARSE_REPLY steps 5 and 6 with the header in RLEN and RCKS, in terms of the bytes after it (41_framer.md R116). -/
theorem parsePayload_header {s : State} (v : Variant) {z rest : List Byte} {len cks : Byte} (hl : s.rlen = len)
    (hc : s.rcks = cks) (hr : s.rxBytes = z ++ ackByte :: len :: cks :: rest) :
    parsePayload v z.length s =
      if rest.length < len.toNat - 2 then Run.raise .packetTooShort s
      else if checksum (rest.take (len.toNat - 2)) ≠ cks then
        Run.raise (.badChecksum cks (checksum (rest.take (len.toNat - 2))))
          (s.setCks (checksum (rest.take (len.toNat - 2))))
      else acceptPayload v (rest.take (len.toNat - 2)) (s.setCks (checksum (rest.take (len.toNat - 2)))) := by
  subst hl hc
  have hlen := State.rxlen_of_rxBytes hr
  simp only [List.length_cons] at hlen
  unfold parsePayload
  by_cases hshort : rest.length < s.rlen.toNat - 2
  · rw [if_pos hshort, if_pos (by omega)]
  · have hsplit : s.rxBytes =
        (z ++ [ackByte, s.rlen, s.rcks]) ++ rest.take (s.rlen.toNat - 2) ++ rest.drop (s.rlen.toNat - 2) := by
      rw [hr]; simp
    have hpay : s.rxbuf.readRange (z.length + 3) (s.rlen.toNat - 2) = rest.take (s.rlen.toNat - 2) := by
      simpa [Nat.min_eq_left (Nat.le_of_not_lt hshort)] using State.rxbuf_readRange_of_rxBytes hsplit
    rw [if_neg hshort, if_neg (by omega), hpay]

/-- PARSE_REPLY where the header is there: its checks in order, in terms of the bytes of the window (41_framer.md R116). -/
theorem parseReply_header {s : State} (v : Variant) {z rest : List Byte} {len cks : Byte} (hz : SentinelFree z)
    (hr : s.rxBytes = z ++ ackByte :: len :: cks :: rest) :
    parseReply v s =
      if len.toNat < minLen v - 1 then
        Run.raise (.boundViolation .minPayloadNotMet len.toNat) ((s.flagAck z.length).setHeader len cks)
      else if maxLen v - 1 < len.toNat then
        Run.raise (.boundViolation .maxPayloadExceeded len.toNat) ((s.flagAck z.length).setHeader len cks)
      else parsePayload v z.length ((s.flagAck z.length).setHeader len cks) := by
  have hlen := State.rxlen_of_rxBytes hr
  simp only [List.length_cons] at hlen
  have hread1 : s.rxbuf.read (z.length + 1) = len := by
    rw [State.rxbuf_read_of_rxBytes hr (by simp), List.getElem_append_right (by omega)]; simp
  have hread2 : s.rxbuf.read (z.length + 2) = cks := by
    rw [State.rxbuf_read_of_rxBytes hr (by simp), List.getElem_append_right (by omega)]; simp
  unfold parseReply
  rw [ackScan_ack hr hz, Run.andThen_done, State.flagAck_scanpos_of_rxBytes hr, State.flagAck_rxlen, if_neg (by omega)]
  unfold parseBounded
  rw [State.flagAck_rxbuf, hread1, hread2]
  rfl

theorem acceptPayload_error {v : Variant} {pay : List Byte} {e : FieldError}
    (h : decodeFields (fieldsOf v) pay = .error e) (s : State) :
    acceptPayload v pay s = Run.raise (fieldErrorKind e) (s.setPayload pay) := by
  simp only [acceptPayload, h]

/-! ## The decoder's errors and PARSE_REPLY's -/

/-- What PARSE_REPLY raises over bytes that the decoder of replies refuses (41_framer.md R116, R117). -/
inductive ParseFinds : DecodeError → ErrorKind → Prop
  | truncated : ParseFinds .truncated .packetTooShort
  | lenTooSmall (len : Byte) : ParseFinds (.lenTooSmall len) (.boundViolation .minPayloadNotMet len.toNat)
  | lenTooLarge (len : Byte) : ParseFinds (.lenTooLarge len) (.boundViolation .maxPayloadExceeded len.toNat)
  | badChecksum (cks sum : Byte) (h : sum ≠ cks) : ParseFinds (.badChecksum cks) (.badChecksum cks sum)
  | fieldTooShort : ParseFinds .fieldTooShort .packetTooShort
  | badStatus (b : Byte) : ParseFinds (.badStatus b) (.invalidStatusCode b)

/-- The registers PARSE_REPLY may have written when it raises an error: the scan's, and the header, checksum and payload. -/
def ParseStopped (p : Nat) (s u : State) : Prop :=
  ∃ rlen rcks cks rpay n,
    u = { s.flagAck p with rlen := rlen, rcks := rcks, cksacc := cks, rpay := rpay, rpaylen := n }

theorem haveTypes_nil_iff {vs : List FieldValue} : haveTypes vs [] = true ↔ vs = [] := by
  cases vs <;> simp [haveTypes]

theorem haveTypes_cons_iff {vs : List FieldValue} {t : FieldType} {ts : List FieldType} :
    haveTypes vs (t :: ts) = true ↔ ∃ x ws, vs = x :: ws ∧ hasType x t = true ∧ haveTypes ws ts = true := by
  cases vs <;> simp [haveTypes]

theorem hasType_u8_iff {x : FieldValue} : hasType x .u8 = true ↔ ∃ a, x = .u8 a := by
  cases x <;> simp [hasType]

theorem hasType_u32_iff {x : FieldValue} : hasType x .u32 = true ↔ ∃ a, x = .u32 a := by
  cases x <;> simp [hasType]

theorem hasType_bytes_iff {x : FieldValue} : hasType x .bytes = true ↔ ∃ a, x = .bytes a := by
  cases x <;> simp [hasType]

theorem hasType_status_iff {x : FieldValue} : hasType x .status = true ↔ ∃ a, x = .status a := by
  cases x <;> simp [hasType]

/-- Values of the declared types make a wire item. -/
theorem exists_ofFields_of_haveTypes {v : Variant} {vs : List FieldValue} (h : haveTypes vs (fieldsOf v) = true) :
    ∃ i, ofFields v vs = some i := by
  cases v <;> simp only [fieldsOf, haveTypes_nil_iff, haveTypes_cons_iff, hasType_u8_iff, hasType_u32_iff,
    hasType_bytes_iff, hasType_status_iff] at h
  case ping | getStatus | reset | getChipId | bankErase => subst h; exact ⟨_, rfl⟩
  case sendData | sectorErase | chipIdReply | crc32Reply | commandStatus =>
    obtain ⟨_, _, rfl, ⟨a, rfl⟩, rfl⟩ := h; exact ⟨_, rfl⟩
  case download => obtain ⟨_, _, rfl, ⟨a, rfl⟩, _, _, rfl, ⟨b, rfl⟩, rfl⟩ := h; exact ⟨_, rfl⟩
  case crc32 | memoryRead | memoryWrite =>
    obtain ⟨_, _, rfl, ⟨a, rfl⟩, _, _, rfl, ⟨b, rfl⟩, _, _, rfl, ⟨c, rfl⟩, rfl⟩ := h; exact ⟨_, rfl⟩

/-- A payload fails to decode only in its fields. -/
theorem decodePayload_error {v : Variant} {pay : List Byte} {d : DecodeError} (h : decodePayload v pay = .error d) :
    ∃ e, decodeFields (fieldsOf v) pay = .error e ∧ ParseFinds d (fieldErrorKind e) := by
  unfold decodePayload at h
  split at h
  · next hf => cases h; exact ⟨_, hf, .fieldTooShort⟩
  · next b hf => cases h; exact ⟨_, hf, .badStatus b⟩
  · next vals hf =>
    obtain ⟨hty, -⟩ := encFields_of_decodeFields (fieldsOf_bytesLast v) hf
    obtain ⟨i, hi⟩ := exists_ofFields_of_haveTypes hty
    rw [hi] at h; cases h

/-- PARSE_REPLY over the ACK and bytes that are no reply packet of the variant, check by check. -/
theorem parseReply_of_decodeReply_error {s : State} {v : Variant} {z bytes : List Byte} {d : DecodeError}
    (hz : SentinelFree z) (hr : s.rxBytes = z ++ ackByte :: bytes) (hd : decodeReply v bytes = .error d) :
    ∃ k u, ParseFinds d k ∧ ParseStopped z.length s u ∧ parseReply v s = Run.raise k u := by
  unfold decodeReply at hd
  split at hd
  case h_2 hshape =>
    have hshort : bytes.length < 2 := by
      rcases bytes with _ | ⟨len, _ | ⟨cks, rest⟩⟩
      · decide
      · simp
      · exact absurd rfl (hshape len cks rest)
    cases hd
    exact ⟨_, _, .truncated, ⟨_, _, _, _, _, rfl⟩, parseReply_noHeader v hz hr hshort⟩
  next len cks rest =>
  rw [parseReply_header v hz hr]
  split at hd
  · next lo => cases hd; exact ⟨_, _, .lenTooSmall len, ⟨_, _, _, _, _, rfl⟩, if_pos lo⟩
  next lo =>
  rw [if_neg lo]
  split at hd
  · next hi => cases hd; exact ⟨_, _, .lenTooLarge len, ⟨_, _, _, _, _, rfl⟩, if_pos hi⟩
  next hi =>
  rw [if_neg hi, parsePayload_header v (State.setHeader_rlen (s.flagAck z.length) len cks)
    (State.setHeader_rcks _ len cks) hr]
  split at hd
  · next hshort => cases hd; exact ⟨_, _, .truncated, ⟨_, _, _, _, _, rfl⟩, if_pos hshort⟩
  next hshort =>
  rw [if_neg hshort]
  split at hd
  · next hsum => cases hd; exact ⟨_, _, .badChecksum cks _ hsum, ⟨_, _, _, _, _, rfl⟩, if_pos hsum⟩
  next hsum =>
  rw [if_neg hsum]
  obtain ⟨e, he, hk⟩ := decodePayload_error hd
  exact ⟨_, _, hk, ⟨_, _, _, _, _, rfl⟩, acceptPayload_error he _⟩

/-! ## The ways in -/

theorem step_wire_of_decode_error {s : State} {e : Expectation} {bytes : List Byte} {rest : List Request}
    {d : DecodeError} (hq : s.pending = .wire e bytes :: rest) (hd : decode e bytes = .error d) :
    step s = execUndecoded e bytes d (s.setPending rest) := by
  rw [step_of_pending hq]
  simp only [execRequest, execWire, hd]

theorem requireOpen_open {s : State} (h : sessionOpen s.session = true) (out : Host.Outcome State Fault Refusal) :
    requireOpen s out = out := if_pos h

theorem requireLength_within {s : State} {n : Nat} (lo : 1 ≤ n) (hi : n ≤ bufCapOf s.cfg)
    (out : Host.Outcome State Fault Refusal) : requireLength s n out = out := by
  unfold requireLength
  rw [if_neg (by omega), if_neg (by omega)]

theorem execBadRequest_of_length {d : DecodeError} {len : Byte} (h : d = .lenTooSmall len ∨ d = .lenTooLarge len)
    {s : State} (ho : sessionOpen s.session = true) :
    execBadRequest d s = (badLength len s).finish fun _ => .unit := by
  rcases h with rfl | rfl <;> exact whenOpen_open ho

theorem execBadRequest_refused {d : DecodeError} (h : ∀ len, d ≠ .lenTooSmall len ∧ d ≠ .lenTooLarge len) (s : State) :
    execBadRequest d s = .refused (.undecodable d) := by
  cases d with
  | lenTooSmall len => exact absurd rfl (h len).1
  | lenTooLarge len => exact absurd rfl (h len).2
  | _ => rfl

theorem execUndecoded_reply {v : Variant} (hc : cmdOf v = none) (bytes : List Byte) (d : DecodeError) (s : State) :
    execUndecoded (packetExpectation v) bytes d s = execReplyBytes v bytes s := by
  cases v <;> simp only [cmdOf, reduceCtorEq] at hc <;> rfl

/-- The expectations of a reply are those of the variants without CMD. -/
theorem exists_reply_of_expectation {e : Expectation}
    (h : e = .chipIdReply ∨ e = .crc32Reply ∨ e = .commandStatus) : ∃ v, cmdOf v = none ∧ e = packetExpectation v := by
  rcases h with rfl | rfl | rfl
  · exact ⟨.chipIdReply, rfl, rfl⟩
  · exact ⟨.crc32Reply, rfl, rfl⟩
  · exact ⟨.commandStatus, rfl, rfl⟩

/-- Bytes where a reply is expected arrive after the ACK, and PARSE_REPLY runs over the window of both. -/
theorem execReplyBytes_up {v : Variant} {bytes : List Byte} {s : State} (ho : sessionOpen s.session = true)
    (hl : s.ioFails 0 = false) (hcap : bytes.length + 1 ≤ bufCapOf s.cfg) :
    execReplyBytes v bytes s = (parseReply v (s.received (ackByte :: bytes))).finish .fields := by
  have hmax := bufCap_le s.cfg
  unfold execReplyBytes receiveReply
  rw [requireOpen_open ho, requireLength_within (by omega) hcap,
    receive_up (by rw [List.length_cons]; omega) hl, Run.andThen_done]

/-- Bytes where a sentinel is expected arrive, and ACK_SCAN runs over the window of them. -/
theorem execSentinelBytes_up {bytes : List Byte} {s : State} (ho : sessionOpen s.session = true)
    (hl : s.ioFails 0 = false) (lo : 1 ≤ bytes.length) (hcap : bytes.length ≤ bufCapOf s.cfg) :
    execSentinelBytes bytes s = (ackScan (s.received bytes)).finish fun _ => .unit := by
  have hmax := bufCap_le s.cfg
  unfold execSentinelBytes receiveSentinel
  rw [requireOpen_open ho, requireLength_within lo hcap, receive_up (by omega) hl, Run.andThen_done]

/-- Settles O60, one way in after another: what the block cannot build has no step, and what the target sends is read into
the window, where PARSE_REPLY or ACK_SCAN judges it. -/
theorem undecodedBytes : Obligations.UndecodedBytes := by
  refine ⟨fun s bytes rest d hq hd => ⟨fun len hlen ho => ?badLength, fun hlen => ?unbuildable⟩,
    fun s bytes rest d hq hd => ?hostAck, fun s e bytes rest d he hq hd ho hl hcap => ?reply,
    fun s bytes rest d hq hd ho hl lo hcap => ?sentinel⟩
  case badLength => exact (step_wire_of_decode_error hq hd).trans (execBadRequest_of_length hlen ho)
  case unbuildable => exact (step_wire_of_decode_error hq hd).trans (execBadRequest_refused hlen _)
  case hostAck => exact step_wire_of_decode_error hq hd
  case reply =>
    have hmax := bufCap_le s.cfg
    obtain ⟨v, hc, rfl⟩ := exists_reply_of_expectation he
    have hstep : step s = (parseReply v ((s.setPending rest).received (ackByte :: bytes))).finish .fields := by
      rw [step_wire_of_decode_error hq hd, execUndecoded_reply hc]
      exact execReplyBytes_up ho (hl 0 Nat.one_pos) hcap
    have hwindow := State.rxBytes_received (s.setPending rest) (bytes := ackByte :: bytes)
      (by rw [List.length_cons]; omega)
    rw [decode_packetExpectation_of_reply hc] at hd
    obtain ⟨k, u, hk, ⟨_, _, _, _, _, rfl⟩, hrun⟩ :=
      parseReply_of_decodeReply_error (z := []) (by simp [SentinelFree]) hwindow hd
    rw [hrun, Run.finish_raise] at hstep
    refine ⟨_, k, hstep, rfl, rfl, rfl, rfl, rfl, rfl, rfl, rfl, rfl, rfl, ?_⟩
    cases hk with
    | badChecksum cks sum hne => exact ⟨sum, hne, rfl⟩
    | _ => rfl
  case sentinel =>
    have hmax := bufCap_le s.cfg
    have hstep : step s = (ackScan ((s.setPending rest).received bytes)).finish fun _ => .unit :=
      (step_wire_of_decode_error hq hd).trans (execSentinelBytes_up ho (hl 0 Nat.one_pos) lo hcap)
    have hwindow := State.rxBytes_received (s.setPending rest) (bytes := bytes) (by omega)
    refine ⟨fun z w hb hz => ?ack, fun z w hb hz => ?nack, fun hz => ?nothing⟩
    case ack =>
      rw [ackScan_ack (hwindow.trans hb) hz] at hstep
      exact ⟨_, hstep, rfl, rfl, rfl, rfl, rfl, rfl, rfl, rfl, rfl⟩
    case nack =>
      rw [ackScan_nack (hwindow.trans hb) hz] at hstep
      exact ⟨_, hstep, rfl, rfl, rfl, rfl, rfl, rfl, rfl, rfl, rfl⟩
    case nothing =>
      rw [ackScan_nothing (hwindow.symm ▸ hz)] at hstep
      exact ⟨_, hstep, rfl, rfl, rfl, rfl, rfl, rfl, rfl, rfl⟩

end Sys2Proof.Machine
end

section
/-! SUPPORT. The block operations of 40_transport.md as the controller invokes them: what each requires, and the next state
over a working and over a failing link. -/

namespace Sys2Proof.Machine

open Sys2Proof

/-! ## The time of an exchange -/

/-- Settles O14: the bit time rounded up to whole nanoseconds. -/
theorem exchangeLeastDuration : Obligations.ExchangeLeastDuration := by
  refine ⟨fun c n d hf => ?ceiling, fun c n hf => ?atFourMegahertz⟩
  case ceiling =>
    unfold exchangeMinNs
    rw [Nat.div_le_iff_le_mul_add_pred hf, Nat.mul_comm d]
    omega
  case atFourMegahertz =>
    have hhz : c.spiClockHz.toNat = 4000000 := by rw [hf]; rfl
    unfold exchangeMinNs
    rw [hhz]
    omega

/-! ## What an operation requires -/

theorem requireOpen_closed {s : State} (h : sessionOpen s.session = false) (out : Host.Outcome State Fault Refusal) :
    requireOpen s out = .refused (.sessionState s.session) := if_neg (by simp [h])

theorem requireLength_zero {s : State} {n : Nat} (h : n = 0) (out : Host.Outcome State Fault Refusal) :
    requireLength s n out = .refused .emptyTransfer := if_pos h

theorem requireLength_over {s : State} {n : Nat} (h : bufCapOf s.cfg < n) (out : Host.Outcome State Fault Refusal) :
    requireLength s n out = .refused .transferTooLong := by
  unfold requireLength
  rw [if_neg (by omega), if_pos h]

/-! ## TRANSFER, READ and HOST_ACK -/

theorem execTransfer_open {s : State} (ho : sessionOpen s.session = true) :
    execOp .transfer s = requireLength s s.txlen.toNat ((transfer s).finish fun _ => .unit) := requireOpen_open ho _

theorem execRead_open {s : State} (ho : sessionOpen s.session = true) (n : U16) :
    execOp (.read n) s = requireLength s n.toNat ((readWindow n.toNat s).finish fun _ => .unit) := requireOpen_open ho _

theorem execHostAck_open {s : State} (ho : sessionOpen s.session = true) :
    execOp .hostAck s = (hostAck s).finish fun _ => .unit := requireOpen_open ho _

/-- How long TRANSFER took (40_transport.md R90). -/
theorem State.transferred_elapsed (s : State) :
    Elapsed s.now (exchangeMinNs s.cfg s.txlen.toNat) s.transferred.now := endTime_elapsed _ _ _

/-- Settles O15: the two requirements, then the transfer over either link. -/
theorem transferOperation : Obligations.TransferOperation := by
  refine ⟨fun s hc => requireOpen_closed hc _, fun s ho => ?_⟩
  rw [execTransfer_open ho]
  refine ⟨fun h0 => ?empty, fun hlong => requireLength_over hlong _, fun lo hi hl => ?up, fun lo hi hl => ?down⟩
  case empty => exact requireLength_zero (by rw [h0]; rfl) _
  case up =>
    rw [requireLength_within lo hi, transfer_up hl]
    exact ⟨_, rfl, rfl, laidOver_writeRange _ _, s.transferred_elapsed⟩
  case down =>
    rw [requireLength_within lo hi, transfer_down hl]
    rfl

/-- The state after `n` zeros were exchanged, its lengths counted by `n` itself (40_transport.md R92). -/
theorem State.exchanged_zeros (s : State) (n : U16) :
    s.exchanged (zeros n.toNat) = { s with
      txbuf := s.txbuf.writeRange 0 (zeros n.toNat)
      txlen := n
      rxbuf := s.rxbuf.writeRange 0 (s.capture n.toNat)
      rxlen := n
      now := (s.exchanged (zeros n.toNat)).now
      trace := s.trace ++ [.xfer (zeros n.toNat) (s.capture n.toNat) s.now (s.exchanged (zeros n.toNat)).now]
      env := s.envAfter 1 n.toNat 1 } := by
  simp only [State.exchanged, length_zeros, BitVec.ofNat_toNat, BitVec.setWidth_eq]

/-- READ over a failing link: the zeros are in TXBUF already (40_transport.md R92). -/
theorem readWindow_down {s : State} (n : U16) (hl : s.ioFails 0 = true) :
    readWindow n.toNat s = Run.raise .transport
      { s with txbuf := s.txbuf.writeRange 0 (zeros n.toNat), txlen := n, env := s.envAfter 1 0 0 } := by
  unfold readWindow
  rw [transfer_loadTx_down hl, length_zeros, BitVec.ofNat_toNat, BitVec.setWidth_eq]

/-- Settles O16: the two requirements, then the exchange of zeros over either link. -/
theorem readOperation : Obligations.ReadOperation := by
  refine ⟨fun s n hc => requireOpen_closed hc _, fun s n ho => ?_⟩
  rw [execRead_open ho]
  refine ⟨fun h0 => ?empty, fun hlong => requireLength_over hlong _, fun lo hi hl => ?up, fun lo hi hl => ?down⟩
  case empty => exact requireLength_zero (by rw [h0]; rfl) _
  case up =>
    have helapsed := s.exchanged_elapsed (zeros n.toNat)
    rw [length_zeros] at helapsed
    rw [requireLength_within lo hi, readWindow_up n.isLt hl, Run.finish_done, State.exchanged_zeros]
    exact ⟨_, rfl, rfl, laidOver_writeRange _ _, laidOver_writeRange _ _, helapsed⟩
  case down =>
    rw [requireLength_within lo hi, readWindow_down n hl]
    exact ⟨_, rfl, rfl, laidOver_writeRange _ _⟩

/-- Settles O17: the byte is loaded, then exchanged over either link. -/
theorem hostAckOperation : Obligations.HostAckOperation := by
  intro s ho
  rw [execHostAck_open ho]
  refine ⟨fun hl => ?up, fun hl => ?down⟩
  case up =>
    rw [hostAck_up hl]
    exact ⟨_, rfl, rfl, laidOver_writeRange _ _, laidOver_writeRange _ _, s.exchanged_elapsed [ackByte]⟩
  case down =>
    rw [hostAck, transfer_loadTx_down hl]
    exact ⟨_, rfl, rfl, laidOver_writeRange _ _⟩

/-! ## WAIT -/

/-- Settles O18: the sleep is the only event, and it takes at least its operand. -/
theorem waitOperation : Obligations.WaitOperation := by
  intro s d
  have hrun : execOp (.wait d) s = .next ((waitAtLeast d s).setResult (.value .unit)) := rfl
  rw [waitAtLeast_eq] at hrun
  exact ⟨_, hrun, rfl, endTime_elapsed _ _ _⟩

/-! ## ENTER_BOOTLOADER -/

theorem laidOver_nil (m : Memory) : LaidOver m m [] := fun _ => rfl

/-- The events of a whole mode entry, at the times its primitives end (40_transport.md R96). -/
theorem State.entry5_trace (s : State) :
    s.entry5.trace = s.trace ++ entryEvents s s.entryLow s.entryHigh s.entryDummy s.entryQuiet := by
  simp only [State.entry5, entryEvents, msToNs_eq]

theorem State.entry5_now (s : State) : s.entry5.now = s.entryQuiet := rfl

/-- The events made before the `k`-th I/O primitive is tried: the first of those of a whole mode entry. -/
theorem State.entryAt_trace (s : State) {k : Nat} (hk : k < 5) :
    (s.entryAt k).trace = s.trace ++
      (entryEvents s s.entryLow s.entryHigh s.entryDummy s.entryQuiet).take [0, 1, 3, 5, 7][k]! := by
  simp only [entryEvents, ← msToNs_eq]
  match k, hk with
  | 0, _ => exact (List.append_nil _).symm
  | 1, _ => rfl
  | 2, _ => rfl
  | 3, _ => rfl
  | 4, _ => rfl

/-- What was drawn when the `k`-th I/O primitive has failed. -/
theorem State.entryAt_drawn_env (s : State) {k : Nat} (hk : k < 5) :
    (s.entryAt k).drawn.env = s.envAfter (k + 1) (if k ≤ 3 then 0 else 1) [0, 0, 1, 2, 4][k]! := by
  have hadd : ∀ {t : State} (a b c : Nat), t.cfg = s.cfg → t.env = s.envAfter a b c →
      t.drawn.env = s.envAfter (a + 1) b c := fun a b c hc he => State.envAfter_envAfter hc he 1 0 0
  match k, hk with
  | 0, _ => rfl
  | 1, _ => exact hadd 1 0 0 rfl rfl
  | 2, _ => exact hadd 2 0 1 rfl rfl
  | 3, _ => exact hadd 3 0 2 rfl rfl
  | 4, _ => exact hadd 4 1 4 rfl rfl

@[simp] theorem State.drawn_txbuf (s : State) : s.drawn.txbuf = s.txbuf := rfl
@[simp] theorem State.drawn_rxbuf (s : State) : s.drawn.rxbuf = s.rxbuf := rfl

/-- The dummy byte is in TXBUF from the fourth I/O primitive on. -/
theorem State.entryAt_txbuf (s : State) {k : Nat} (hk : k < 5) :
    LaidOver (s.entryAt k).txbuf s.txbuf (if k ≤ 2 then [] else [0x00#8]) := by
  match k, hk with
  | 0, _ | 1, _ | 2, _ => exact laidOver_nil s.txbuf
  | 3, _ | 4, _ => exact laidOver_writeRange s.txbuf [0x00#8]

/-- Its answer is in RXBUF once it was exchanged. -/
theorem State.entryAt_rxbuf (s : State) {k : Nat} (hk : k < 5) :
    LaidOver (s.entryAt k).rxbuf s.rxbuf (if k ≤ 3 then [] else s.capture 1) := by
  match k, hk with
  | 0, _ | 1, _ | 2, _ | 3, _ => exact laidOver_nil s.rxbuf
  | 4, _ => exact laidOver_writeRange s.rxbuf (s.capture 1)

/-- ENTER_BOOTLOADER over a working link. -/
theorem execEnterBootloader_up {s : State} (hl : LinkUp s 5) :
    execOp .enterBootloader s = .next (s.entry5.setResult (.value .unit)) := by
  change (enterBootloader s).finish _ = _
  rcases enterBootloader_cases s with ⟨k, hk, -, hdown, -⟩ | ⟨-, hrun⟩
  · exact absurd (hl k hk) (by simp [hdown])
  · rw [hrun]; rfl

/-- ENTER_BOOTLOADER raises Transport at the first of its I/O primitives that fails. -/
theorem execEnterBootloader_down {s : State} {k : Nat} (hk : k < 5) (hup : ∀ j, j < k → s.ioFails j = false)
    (hdown : s.ioFails k = true) :
    execOp .enterBootloader s =
      .next (((s.entryAt k).drawn.takeError .transport).setResult (.error .transport)) := by
  change (enterBootloader s).finish _ = _
  rcases enterBootloader_cases s with ⟨m, -, mup, mdown, hrun⟩ | ⟨hall, -⟩
  · have hkm : k = m := by
      rcases Nat.lt_trichotomy k m with h | h | h
      · simp [mup k h] at hdown
      · exact h
      · simp [hup m h] at mdown
    rw [hrun, hkm]
    rfl
  · simp [hall k hk] at hdown

/-- Settles O19: the state after the sixth step. -/
theorem enterBootloaderCompletes : Obligations.EnterBootloaderCompletes := by
  intro s hl
  obtain ⟨hlow, hhigh, hdummy, hquiet⟩ := s.entry_elapsed
  refine ⟨_, s.entryLow, s.entryHigh, s.entryDummy, execEnterBootloader_up hl, ?_, laidOver_writeRange _ _,
    laidOver_writeRange _ _, hlow, hhigh, hdummy, hquiet⟩
  rw [State.setResult_now, State.entry5_now, ← s.entry5_trace]
  rfl

/-- Settles O20: the failing primitive leaves the state in which it was tried, one draw later, with the error entry. -/
theorem enterBootloaderStopsWhereItFails : Obligations.EnterBootloaderStopsWhereItFails := by
  intro s k hk hup hdown
  obtain ⟨hlow, hhigh, hdummy, hquiet⟩ := s.entry_elapsed
  refine ⟨_, s.entryLow, s.entryHigh, s.entryDummy, s.entryQuiet, execEnterBootloader_down hk hup hdown, ?state, hlow,
    hhigh, hdummy, hquiet, ?loaded, ?captured⟩
  case state =>
    rw [← s.entryAt_trace hk, ← s.entryAt_drawn_env hk]
    simp only [State.setResult, State.takeError, State.drawn]
    match k, hk with
    | 0, _ => rfl
    | 1, _ => rfl
    | 2, _ => rfl
    | 3, _ => rfl
    | 4, _ => rfl
  case loaded =>
    rw [State.setResult_txbuf, State.takeError_txbuf, State.drawn_txbuf]
    exact s.entryAt_txbuf hk
  case captured =>
    rw [State.setResult_rxbuf, State.takeError_rxbuf, State.drawn_rxbuf]
    exact s.entryAt_rxbuf hk

/-! ## Acceptance -/

theorem sessionOpen_iff (x : Session) :
    sessionOpen x = true ↔ x = .entered ∨ x = .initialized ∨ x = .operational := by
  cases x <;> simp [sessionOpen]

/-- The wire items that are no request are the replies and the sentinels (30_encoding.md R64). -/
theorem requestOf_eq_none_iff (i : Instr) :
    requestOf i = none ↔ (∃ v, i = .chipIdReply v) ∨ (∃ v, i = .crc32Reply v) ∨ (∃ v, i = .commandStatus v) ∨
      (∃ x, i = .ack x) ∨ i = .nack := by
  cases i <;> simp [requestOf, variantOf, cmdOf]

theorem execSerialize_request {i : Instr} (h : (requestOf i).isSome = true) (s : State) :
    execOp (.serialize i) s = (serialize i s).finish fun _ => .unit := by
  obtain ⟨p, hp⟩ := Option.isSome_iff_exists.mp h
  simp only [execOp, execSerialize, hp]

theorem execSerialize_refused {i : Instr} (h : requestOf i = none) (s : State) :
    execOp (.serialize i) s = .refused .notARequest := by
  simp only [execOp, execSerialize, h]

/-- A whole segment at the head of an image is read as its data (20_memory.md R51). -/
theorem memRead_head (g : Segment) (rest : Image) : memRead (g :: rest) g.start.toNat g.data.length = some g.data := by
  unfold memRead
  split
  · next h => rw [List.eq_nil_of_length_eq_zero h]
  · simp [segmentHolds, segmentRead]

theorem execCrc32Op_head {g : Segment} {rest : Image} (h : imageInBounds (g :: rest) = true) (s : State) :
    execOp (.crc32 (g :: rest) g.start g.data.length) s = (crc32Op g.data s).finish .word := by
  simp only [execOp, execCrc32Op, h, if_true, memRead_head]

theorem execLoadTx_within {s : State} {b : List Byte} (h : b.length ≤ bufCapOf s.cfg) :
    execOp (.loadTx b) s = .next ((s.loadTx b).setResult (.value .unit)) := if_neg (by omega)

theorem execLoadTx_over {s : State} {b : List Byte} (h : bufCapOf s.cfg < b.length) :
    execOp (.loadTx b) s = .refused .transferTooLong := if_pos h

/-- Settles O21, operation by operation. -/
theorem acceptanceBySession : Obligations.AcceptanceBySession := by
  refine ⟨sessionOpen_iff, requestOf_eq_none_iff, fun s hc => ?closed, fun s => ?anySession⟩
  case closed =>
    exact ⟨requireOpen_closed hc _, fun _ => requireOpen_closed hc _, requireOpen_closed hc _, requireOpen_closed hc _,
      fun _ => requireOpen_closed hc _, requireOpen_closed hc _⟩
  case anySession =>
    refine ⟨⟨_, rfl⟩, fun d => ⟨_, rfl⟩, fun b => ⟨_, rfl⟩, fun i hi => ⟨_, execSerialize_request hi s⟩,
      fun i hi => execSerialize_refused hi s, fun g rest hg => ⟨_, execCrc32Op_head hg s⟩, fun b hb => ?load,
      fun b hb => execLoadTx_over hb⟩
    have hcap := bufCap_le s.cfg
    exact ⟨_, execLoadTx_within hb, rfl, laidOver_writeRange _ _, s.txBytes_loadTx (by omega)⟩

end Sys2Proof.Machine
end

section
/-! SUPPORT. The wire items as a whole: where SESSION refuses them, that they keep SESSION or fault, and what a request does
over a failing link (40_transport.md R99, R100, 44_sequencer.md R190). -/

namespace Sys2Proof.Machine

open Sys2Proof

/-! ## SESSION -/

/-- An operation that leaves SESSION at `x` when it completes, and Faulted when it raises an error. -/
structure Run.KeepsSession {α : Type} (x : Session) (r : Run α) : Prop where
  ok : ∀ a, r.out = .ok a → r.state.session = x
  error : ∀ k, r.out = .error k → r.state.session = .faulted

section

variable {x : Session} {s : State}

theorem Run.KeepsSession.done {α : Type} (a : α) (h : s.session = x) : (Run.done a s).KeepsSession x :=
  ⟨fun _ _ => h, nofun⟩

theorem Run.KeepsSession.raise {α : Type} (k : ErrorKind) (s : State) :
    (Run.raise (α := α) k s).KeepsSession x := ⟨nofun, fun _ _ => rfl⟩

theorem Run.KeepsSession.andThen {α β : Type} {r : Run α} {f : α → State → Run β} (hr : r.KeepsSession x)
    (hf : ∀ a t, t.session = x → (f a t).KeepsSession x) : (r.andThen f).KeepsSession x := by
  rcases Run.andThen_cases r f with ⟨k, hk, e⟩ | ⟨a, ha, e⟩
  · rw [e]
    exact ⟨nofun, fun _ _ => hr.error k hk⟩
  · rw [e]
    exact hf a _ (hr.ok a ha)

theorem transfer_keepsSession (h : s.session = x) : (transfer s).KeepsSession x := by
  cases hl : s.ioFails 0
  · rw [transfer_up hl]; exact .done _ h
  · rw [transfer_down hl]; exact .raise _ _

theorem hostAck_keepsSession (h : s.session = x) : (hostAck s).KeepsSession x :=
  transfer_keepsSession (s := s.loadTx [ackByte]) h

theorem receive_keepsSession (bytes : List Byte) (h : s.session = x) : (receive bytes s).KeepsSession x :=
  transfer_keepsSession (s := (s.targetSends bytes).loadTx (zeros bytes.length)) h

theorem serialize_keepsSession (i : Instr) (h : s.session = x) : (serialize i s).KeepsSession x := by
  unfold serialize
  split
  · exact .done _ h
  · split
    · exact .raise _ _
    · exact .done _ h

theorem ackScan_keepsSession (h : s.session = x) : (ackScan s).KeepsSession x := by
  unfold ackScan
  split
  · exact .done _ h
  · exact .raise _ _
  · exact .raise _ _

theorem acceptPayload_keepsSession (v : Variant) (pay : List Byte) (h : s.session = x) :
    (acceptPayload v pay s).KeepsSession x := by
  unfold acceptPayload
  split
  · next vals _ =>
    obtain ⟨-, -, -, hsession⟩ := storeFields_steps v vals (s.setPayload pay)
    exact .done _ (hsession.trans h)
  · exact .raise _ _

theorem parsePayload_keepsSession (v : Variant) (p : Nat) (h : s.session = x) :
    (parsePayload v p s).KeepsSession x := by
  unfold parsePayload
  split
  · exact .raise _ _
  · dsimp only
    split
    · exact .raise _ _
    · exact acceptPayload_keepsSession (s := s.setCks _) v _ h

theorem parseBounded_keepsSession (v : Variant) (p : Nat) (h : s.session = x) :
    (parseBounded v p s).KeepsSession x := by
  unfold parseBounded
  dsimp only
  split
  · exact .raise _ _
  · split
    · exact .raise _ _
    · exact parsePayload_keepsSession (s := s.setHeader _ _) v p h

theorem parseReply_keepsSession (v : Variant) (h : s.session = x) : (parseReply v s).KeepsSession x := by
  refine .andThen (ackScan_keepsSession h) fun _ t ht => ?_
  split
  · exact .raise _ _
  · exact parseBounded_keepsSession v _ ht

theorem sendOnly_keepsSession (i : Instr) (h : s.session = x) : (sendOnly i s).KeepsSession x :=
  .andThen (serialize_keepsSession i h) fun _ _ ht => transfer_keepsSession ht

theorem sendBareAck_keepsSession (i : Instr) (h : s.session = x) : (sendBareAck i s).KeepsSession x :=
  .andThen (sendOnly_keepsSession i h) fun _ _ ht => ackScan_keepsSession ht

theorem sendForReply_keepsSession (i : Instr) (v : Variant) (h : s.session = x) : (sendForReply i v s).KeepsSession x :=
  .andThen (sendOnly_keepsSession i h) fun _ _ ht =>
    .andThen (parseReply_keepsSession v ht) fun _ _ hu => .andThen (hostAck_keepsSession hu) fun _ _ hw => .done _ hw

theorem receiveReply_keepsSession (v : Variant) (packet : List Byte) (h : s.session = x) :
    (receiveReply v packet s).KeepsSession x :=
  .andThen (receive_keepsSession _ h) fun _ _ ht => parseReply_keepsSession v ht

theorem receiveSentinel_keepsSession (bytes : List Byte) (h : s.session = x) :
    (receiveSentinel bytes s).KeepsSession x :=
  .andThen (receive_keepsSession _ h) fun _ _ ht => ackScan_keepsSession ht

end

/-- Every wire item is accepted where the wire is open, and is then an operation that keeps SESSION (40_transport.md R99). -/
theorem exec_eq_whenOpen (i : Instr) (s : State) :
    ∃ (α : Type) (value : α → OpValue) (r : Run α), exec i s = whenOpen value s r ∧ r.KeepsSession s.session := by
  cases i with
  | ping => exact ⟨_, _, _, rfl, sendBareAck_keepsSession _ rfl⟩
  | download a n => exact ⟨_, _, _, rfl, sendBareAck_keepsSession _ rfl⟩
  | reset => exact ⟨_, _, _, rfl, sendBareAck_keepsSession _ rfl⟩
  | getStatus => exact ⟨_, _, _, rfl, sendForReply_keepsSession _ _ rfl⟩
  | getChipId => exact ⟨_, _, _, rfl, sendForReply_keepsSession _ _ rfl⟩
  | sendData d => exact ⟨_, _, _, rfl, sendOnly_keepsSession _ rfl⟩
  | sectorErase a => exact ⟨_, _, _, rfl, sendOnly_keepsSession _ rfl⟩
  | crc32 a n r => exact ⟨_, _, _, rfl, sendOnly_keepsSession _ rfl⟩
  | memoryRead a t c => exact ⟨_, _, _, rfl, sendOnly_keepsSession _ rfl⟩
  | memoryWrite a n d => exact ⟨_, _, _, rfl, sendOnly_keepsSession _ rfl⟩
  | bankErase => exact ⟨_, _, _, rfl, sendOnly_keepsSession _ rfl⟩
  | chipIdReply v => exact ⟨_, _, _, rfl, receiveReply_keepsSession _ _ rfl⟩
  | crc32Reply v => exact ⟨_, _, _, rfl, receiveReply_keepsSession _ _ rfl⟩
  | commandStatus v => exact ⟨_, _, _, rfl, receiveReply_keepsSession _ _ rfl⟩
  | ack sender =>
    cases sender with
    | target => exact ⟨_, _, _, rfl, receiveSentinel_keepsSession _ rfl⟩
    | block => exact ⟨_, _, _, rfl, hostAck_keepsSession rfl⟩
  | nack => exact ⟨_, _, _, rfl, receiveSentinel_keepsSession _ rfl⟩

theorem whenOpen_closed {α : Type} {value : α → OpValue} {s : State} {r : Run α} (h : sessionOpen s.session = false) :
    whenOpen value s r = .refused (.sessionState s.session) := if_neg (by simp [h])

/-- Settles O36: every wire item is of the form that `exec_eq_whenOpen` gives it. -/
theorem wireItemsKeepSessionOrFault : Obligations.WireItemsKeepSessionOrFault := by
  refine ⟨fun i s hc => ?refused, fun i s ho => ?accepted⟩
  all_goals obtain ⟨α, value, r, hexec, hkeeps⟩ := exec_eq_whenOpen i s
  case refused => rw [hexec, whenOpen_closed hc]
  case accepted =>
    refine ⟨_, hexec.trans (whenOpen_open ho), ?_⟩
    cases hout : r.out with
    | ok a => exact .inl ⟨hkeeps.ok a hout, value a, by simp [Run.response, hout]⟩
    | error k => exact .inr ⟨hkeeps.error k hout, k, by simp [Run.response, hout]⟩

/-! ## Requests over a failing link -/

/-- The request whose packet is sent for a wire item: of Crc32 with repeat 0 (43_commands.md R146; log 13). -/
def sentRequest : Instr → Instr
  | .crc32 address size _ => .crc32 address size 0#32
  | i => i

theorem sentRequest_eq_self {i : Instr} (h : ∀ a n r, i ≠ .crc32 a n r) : sentRequest i = i := by
  cases i with
  | crc32 a n r => exact absurd rfl (h a n r)
  | _ => rfl

theorem variantOf_sentRequest (i : Instr) : variantOf (sentRequest i) = variantOf i := by cases i <;> rfl

theorem wellFormed_sentRequest {i : Instr} (h : WellFormed i) : WellFormed (sentRequest i) := by
  cases i with
  | crc32 a n r => rfl
  | _ => exact h

theorem Run.andThen_done_right {α : Type} (r : Run α) : r.andThen Run.done = r := by
  rcases r with ⟨s, out⟩
  cases out <;> rfl

/-- Every request begins with SERIALIZE and TRANSFER of its packet (44_sequencer.md R170). -/
theorem exec_request_begins {i : Instr} {v : Variant} {cmd : Byte} (hv : variantOf i = some v) (hc : cmdOf v = some cmd)
    (s : State) : ∃ (α : Type) (value : α → OpValue) (f : Unit → State → Run α),
      exec i s = whenOpen value s ((sendOnly (sentRequest i) s).andThen f) := by
  have alone : ∀ {j : Instr}, exec i s = whenOpen (fun _ => .unit) s (sendOnly j s) →
      exec i s = whenOpen (fun _ => .unit) s ((sendOnly j s).andThen Run.done) := fun h => by
    rw [h, Run.andThen_done_right]
  cases i with
  | ping => exact ⟨_, _, _, rfl⟩
  | download a n => exact ⟨_, _, _, rfl⟩
  | reset => exact ⟨_, _, _, rfl⟩
  | getStatus => exact ⟨_, _, _, rfl⟩
  | getChipId => exact ⟨_, _, _, rfl⟩
  | sendData d => exact ⟨_, _, _, alone rfl⟩
  | sectorErase a => exact ⟨_, _, _, alone rfl⟩
  | crc32 a n r => exact ⟨_, _, _, alone rfl⟩
  | memoryRead a t c => exact ⟨_, _, _, alone rfl⟩
  | memoryWrite a n d => exact ⟨_, _, _, alone rfl⟩
  | bankErase => exact ⟨_, _, _, alone rfl⟩
  | chipIdReply v => cases hv; cases hc
  | crc32Reply v => cases hv; cases hc
  | commandStatus v => cases hv; cases hc
  | ack sender => cases hv
  | nack => cases hv

/-- Settles O34: the transfer of the request's packet is what fails, whatever would come after it. -/
theorem requestsOverFailingLink : Obligations.RequestsOverFailingLink := by
  intro s i p v cmd hv hc hw hp ho hl
  obtain rfl : p = sentRequest i := by
    rcases hp with ⟨rfl, hne⟩ | ⟨a, n, r, rfl, rfl⟩
    · exact (sentRequest_eq_self hne).symm
    · rfl
  obtain ⟨α, value, f, hexec⟩ := exec_request_begins hv hc s
  rw [whenOpen_open ho, sendOnly_down ((variantOf_sentRequest i).trans hv) hc (wellFormed_sentRequest hw) hl,
    Run.andThen_raise, Run.finish_raise, List.length_append, length_zeros] at hexec
  exact ⟨_, hexec, rfl, laidOver_writeRange _ _⟩

end Sys2Proof.Machine
end

section
/-! SUPPORT. The framer's operations as the controller invokes them (41_framer.md): the checksum's arithmetic, SERIALIZE in and
out of its bounds, the scan, and PARSE_REPLY check by check, with the registers a decoded reply is stored in. -/

namespace Sys2Proof.Machine

open Sys2Proof

/-! ## CHECKSUM -/

theorem toNat_checksum (s : List Byte) : (checksum s).toNat = (s.map BitVec.toNat).sum % 256 := by
  induction s with
  | nil => rfl
  | cons b s ih => rw [checksum_cons, BitVec.toNat_add, ih, List.map_cons, List.sum_cons, Nat.add_mod_mod]

/-- Settles O7: the byte of the operation is the byte at index 1 of a packet, and both are the sum of what they cover. -/
theorem checksumOperation : Obligations.ChecksumOperation := by
  refine ⟨fun s bytes => ⟨checksum bytes, rfl, toNat_checksum bytes⟩,
    fun i v cmd hv hc => ⟨checksum (cmd :: payloadOf i), ?request, toNat_checksum _⟩,
    fun i v hv hc => ⟨checksum (payloadOf i), ?reply, toNat_checksum _⟩⟩
  case request => rw [encode_request hv hc]; rfl
  case reply => rw [encode_reply hv hc]; rfl

theorem checksum_perm {s t : List Byte} (h : s.Perm t) : checksum s = checksum t := by
  apply BitVec.eq_of_toNat_eq
  rw [toNat_checksum, toNat_checksum, (h.map BitVec.toNat).sum_eq]

theorem toNat_checksum_replicate (n : Nat) (b : Byte) : (checksum (List.replicate n b)).toNat = n * b.toNat % 256 := by
  rw [toNat_checksum, List.map_replicate, List.sum_replicate, smul_eq_mul]

@[simp] theorem checksum_zeros (n : Nat) : checksum (zeros n) = 0#8 := by
  apply BitVec.eq_of_toNat_eq
  rw [zeros, toNat_checksum_replicate, BitVec.toNat_zero, Nat.mul_zero, Nat.zero_mod]

/-- Settles O8: all but the two examples follow from the sum and from the law for concatenation. -/
theorem checksumLaws : Obligations.ChecksumLaws := by
  refine ⟨rfl, checksum_singleton, fun s t => ?append, fun s t => checksum_perm, fun s t n => ?zeros, fun b => ?replicate,
    rfl, rfl⟩
  case append => rw [checksum_append, BitVec.toNat_add]
  case zeros => rw [checksum_append, checksum_append, checksum_append, checksum_zeros, BitVec.add_zero]
  case replicate =>
    apply BitVec.eq_of_toNat_eq
    rw [toNat_checksum_replicate, Nat.mul_mod_right, BitVec.toNat_zero]

/-! ## SERIALIZE -/

theorem requestOf_of_variant {i : Instr} {v : Variant} {cmd : Byte} (hv : variantOf i = some v)
    (hc : cmdOf v = some cmd) : (requestOf i).isSome = true := by
  simp [requestOf, hv, hc]

/-- Settles O9: a packet in its bounds is well formed, and SERIALIZE loads it with its IDLE zeros. -/
theorem serializeLoadsPacket : Obligations.SerializeLoadsPacket := by
  intro s i v cmd hv hc lo hi
  have hw : WellFormed i := (wellFormed_iff_bounds hv).mpr ⟨lo, hi⟩
  obtain ⟨hlen, -, hcap⟩ := onWire_length hv hc hw
  have hmax := maxLen_le v
  have hrun := execSerialize_request (requestOf_of_variant hv hc) s
  rw [serialize_ok hv hc hw, Run.finish_done] at hrun
  refine ⟨_, hrun, ?state, ?loaded, by omega, by omega⟩
  case state => rw [State.loadTx, hlen]; rfl
  case loaded =>
    have hbytes := laidOver_writeRange s.txbuf (encode i ++ zeros (idleOf v))
    rw [encode_request hv hc] at hbytes ⊢
    exact hbytes

/-- Only the two variants with a `bytes` field can miss their bounds (41_framer.md R113). -/
theorem not_wellFormed_iff (i : Instr) :
    ¬ WellFormed i ↔ (∃ d, i = .sendData d ∧ (d.length = 0 ∨ 253 ≤ d.length)) ∨
      ∃ a n d, i = .memoryWrite a n d ∧ 245 ≤ d.length := by
  cases i with
  | sendData d =>
    have hbounds : WellFormed (.sendData d) ↔ 1 ≤ d.length ∧ d.length ≤ 252 := decide_eq_true_iff
    rw [hbounds]
    simp only [Instr.sendData.injEq, reduceCtorEq, false_and, exists_false, or_false, exists_eq_left']
    omega
  | memoryWrite a n d =>
    have hbounds : WellFormed (.memoryWrite a n d) ↔ d.length ≤ 244 := decide_eq_true_iff
    rw [hbounds]
    simp only [Instr.memoryWrite.injEq, reduceCtorEq, false_and, exists_false, false_or, and_assoc, exists_eq_left',
      exists_and_left]
    omega
  | _ => simp [WellFormed, Instr.wellFormed]

theorem execSerialize_bound {i : Instr} {v : Variant} {cmd : Byte} (hv : variantOf i = some v) (hc : cmdOf v = some cmd)
    (h : ¬ WellFormed i) (s : State) :
    execOp (.serialize i) s = .next ((s.takeError (.boundViolation .atSerialize (3 + (payloadOf i).length))).setResult
      (.error (.boundViolation .atSerialize (3 + (payloadOf i).length)))) := by
  rw [execSerialize_request (requestOf_of_variant hv hc), serialize_bound hv hc h, Run.finish_raise]

/-- Settles O10: both variants that can miss their bounds are requests. -/
theorem serializeBoundViolation : Obligations.SerializeBoundViolation := by
  refine ⟨not_wellFormed_iff, fun s i hw => ?_⟩
  rcases (not_wellFormed_iff i).mp hw with ⟨d, rfl, -⟩ | ⟨a, n, d, rfl, -⟩
  · exact execSerialize_bound (v := .sendData) rfl rfl hw s
  · exact execSerialize_bound (v := .memoryWrite) rfl rfl hw s

/-! ## ACK_SCAN -/

theorem execAckScan_open {s : State} (ho : sessionOpen s.session = true) :
    execOp .ackScan s = (ackScan s).finish fun _ => .unit := requireOpen_open ho _

/-- Settles O11, one clause for each way the scan ends. -/
theorem ackScanDecides : Obligations.AckScanDecides := by
  intro s ho
  rw [execAckScan_open ho]
  refine ⟨fun z w hr hz => ?ack, fun z w hr hz => ?nack, fun hz => ?nothing⟩
  case ack => rw [ackScan_ack hr hz]; rfl
  case nack => rw [ackScan_nack hr hz]; rfl
  case nothing => rw [ackScan_nothing hz]; rfl

/-! ## PARSE_REPLY -/

theorem execParseReply_open {s : State} (ho : sessionOpen s.session = true) (v : Variant) :
    execOp (.parseReply v) s = (parseReply v s).finish .fields := requireOpen_open ho _

theorem parseReply_nack {s : State} (v : Variant) {z w : List Byte} (hz : SentinelFree z)
    (hr : s.rxBytes = z ++ nackByte :: w) :
    parseReply v s = Run.raise (.nack (BitVec.ofNat 16 z.length)) (s.flagNack z.length) := by
  rw [parseReply, ackScan_nack hr hz, Run.andThen_raise]

theorem parseReply_nothing {s : State} (v : Variant) (hz : SentinelFree s.rxBytes) :
    parseReply v s = Run.raise .noAck s.clearScan := by
  rw [parseReply, ackScan_nothing hz, Run.andThen_raise]

/-- PARSE_REPLY where the header's length is in the variant's bounds: what is left are its checks of the payload (41_framer.md
R116). -/
theorem parseReply_inBounds {s : State} {v : Variant} {z rest : List Byte} {len cks : Byte} (hz : SentinelFree z)
    (hr : s.rxBytes = z ++ ackByte :: len :: cks :: rest) (lo : minLen v - 1 ≤ len.toNat) (hi : len.toNat ≤ maxLen v - 1) :
    parseReply v s =
      if rest.length < len.toNat - 2 then Run.raise .packetTooShort ((s.flagAck z.length).setHeader len cks)
      else if checksum (rest.take (len.toNat - 2)) ≠ cks then
        Run.raise (.badChecksum cks (checksum (rest.take (len.toNat - 2))))
          (((s.flagAck z.length).setHeader len cks).setCks (checksum (rest.take (len.toNat - 2))))
      else acceptPayload v (rest.take (len.toNat - 2))
        (((s.flagAck z.length).setHeader len cks).setCks (checksum (rest.take (len.toNat - 2)))) := by
  rw [parseReply_header v hz hr, if_neg (by omega), if_neg (by omega),
    parsePayload_header v (State.setHeader_rlen (s.flagAck z.length) len cks) (State.setHeader_rcks _ len cks) hr]

theorem acceptPayload_ok {v : Variant} {pay : List Byte} {vals : List FieldValue}
    (h : decodeFields (fieldsOf v) pay = .ok vals) (s : State) :
    acceptPayload v pay s = Run.done vals (storeFields v vals (s.setPayload pay)) := by
  simp only [acceptPayload, h]

theorem eq_u32_of_haveTypes {vals : List FieldValue} (h : haveTypes vals [.u32] = true) : ∃ x, vals = [.u32 x] := by
  simp only [haveTypes_cons_iff, haveTypes_nil_iff, hasType_u32_iff] at h
  obtain ⟨_, _, rfl, ⟨x, rfl⟩, rfl⟩ := h
  exact ⟨x, rfl⟩

theorem eq_status_of_haveTypes {vals : List FieldValue} (h : haveTypes vals [.status] = true) :
    ∃ x, vals = [.status x] := by
  simp only [haveTypes_cons_iff, haveTypes_nil_iff, hasType_status_iff] at h
  obtain ⟨_, _, rfl, ⟨x, rfl⟩, rfl⟩ := h
  exact ⟨x, rfl⟩

/-- All that storing typed fields changes: the register of the reply's variant, none for a request's. -/
theorem storeFields_eq {v : Variant} {vals : List FieldValue} (h : haveTypes vals (fieldsOf v) = true) (s : State) :
    storeFields v vals s = { s with
      chipid := if v = .chipIdReply then (storeFields v vals s).chipid else s.chipid
      crcDevice := if v = .crc32Reply then (storeFields v vals s).crcDevice else s.crcDevice
      crcDeviceWritten := if v = .crc32Reply then true else s.crcDeviceWritten
      status := if v = .commandStatus then (storeFields v vals s).status else s.status } := by
  cases v with
  | chipIdReply | crc32Reply =>
    obtain ⟨x, rfl⟩ := eq_u32_of_haveTypes h
    rfl
  | commandStatus =>
    obtain ⟨x, rfl⟩ := eq_status_of_haveTypes h
    rfl
  | _ => rfl

/-- The register of a reply's variant holds the reply's one field. -/
theorem storeFields_register {v : Variant} {vals : List FieldValue} (h : haveTypes vals (fieldsOf v) = true) (s : State) :
    (v = .chipIdReply → vals = [.u32 (storeFields v vals s).chipid]) ∧
      (v = .crc32Reply → vals = [.u32 (storeFields v vals s).crcDevice]) ∧
      (v = .commandStatus → vals = [.status (storeFields v vals s).status]) := by
  refine ⟨?_, ?_, ?_⟩ <;> rintro rfl
  · obtain ⟨x, rfl⟩ := eq_u32_of_haveTypes h; rfl
  · obtain ⟨x, rfl⟩ := eq_u32_of_haveTypes h; rfl
  · obtain ⟨x, rfl⟩ := eq_status_of_haveTypes h; rfl

@[simp] theorem storeFields_rpay (v : Variant) (vals : List FieldValue) (s : State) :
    (storeFields v vals s).rpay = s.rpay := by
  unfold storeFields; split <;> rfl

theorem fieldErrorKind_cases (e : FieldError) :
    e = .tooShort ∧ fieldErrorKind e = .packetTooShort ∨
      ∃ b, e = .badStatus b ∧ fieldErrorKind e = .invalidStatusCode b := by
  cases e with
  | tooShort => exact .inl ⟨rfl, rfl⟩
  | badStatus b => exact .inr ⟨b, rfl, rfl⟩

/-- Settles O12, check by check in PARSE_REPLY's order. -/
theorem parseReplyChecksInOrder : Obligations.ParseReplyChecksInOrder := by
  refine ⟨fun s v ho => ⟨fun z w hr hz => ?nack, fun hz => ?noAck⟩, fun s v z tail ho hz hr => ?acked⟩
  case nack => rw [execParseReply_open ho, parseReply_nack v hz hr]; rfl
  case noAck => rw [execParseReply_open ho, parseReply_nothing v hz]; rfl
  case acked =>
  rw [execParseReply_open ho]
  refine ⟨fun hshort => ?noHeader, fun len cks rest htail => ?header⟩
  case noHeader => rw [parseReply_noHeader v hz hr hshort]; rfl
  case header =>
  subst htail
  refine ⟨fun lo => ?minNotMet, fun hi => ?maxExceeded, fun lo hi hrest => ?truncated, fun lo hi hrest hsum => ?badSum,
    fun lo hi hrest hsum => ?accepted⟩
  case minNotMet => rw [parseReply_header v hz hr, if_pos lo]; rfl
  case maxExceeded =>
    have hmin : minLen v ≤ maxLen v := by cases v <;> decide
    rw [parseReply_header v hz hr, if_neg (by omega), if_pos hi]; rfl
  case truncated => rw [parseReply_inBounds hz hr lo hi, if_pos hrest]; rfl
  case badSum => rw [parseReply_inBounds hz hr lo hi, if_neg (by omega), if_pos hsum]; rfl
  case accepted =>
    have hlen : (rest.take (len.toNat - 2)).length = len.toNat - 2 := List.length_take_of_le hrest
    have hrun := parseReply_inBounds hz hr lo hi
    rw [if_neg (by omega), if_neg (by simpa using hsum), hsum] at hrun
    generalize rest.take (len.toNat - 2) = pay at hlen hrun ⊢
    rw [hrun, ← hlen]
    cases hd : decodeFields (fieldsOf v) pay with
    | ok vals =>
      obtain ⟨hty, -⟩ := encFields_of_decodeFields (fieldsOf_bytesLast v) hd
      rw [acceptPayload_ok hd, Run.finish_done]
      refine ⟨_, rfl, ?_⟩
      rw [State.setResult_rpay, storeFields_rpay]
      exact ⟨laidOver_writeRange _ _, congrArg (State.setResult · _) (storeFields_eq hty _), storeFields_register hty _⟩
    | error e =>
      rw [acceptPayload_error hd, Run.finish_raise]
      exact ⟨_, rfl, laidOver_writeRange _ _, fieldErrorKind e, fieldErrorKind_cases e, rfl⟩

/-! ## The round trip of replies -/

theorem serializeReply_ok {v : Variant} {vals : List FieldValue} {b : List Byte} (h : serializeReply v vals = .ok b) :
    minLen v ≤ 3 + (encFields vals).length ∧ 3 + (encFields vals).length ≤ maxLen v ∧
      b = ackByte :: replyPacket (encFields vals) := by
  unfold serializeReply at h
  split at h
  · cases h
  · cases h; exact ⟨by omega, by omega, rfl⟩

/-- Settles O13: PARSE_REPLY accepts the packet, and typed fields come back from their encoding. -/
theorem replyRoundTrip : Obligations.ReplyRoundTrip := by
  intro s v vals z b w ho hty hb hz hr
  obtain ⟨lo, hi, rfl⟩ := serializeReply_ok hb
  have hrun := parseReply_accepts hz hr lo hi
  simp only [decodeFields_encFields (fieldsOf_bytesLast v) hty] at hrun
  obtain ⟨-, hfault, herr, hsession⟩ := storeFields_steps v vals
    (s.parsed z.length (BitVec.ofNat 8 (2 + (encFields vals).length)) (checksum (encFields vals)) (encFields vals))
  rw [execParseReply_open ho, hrun, Run.finish_done]
  exact ⟨_, rfl, rfl, hsession, hfault, herr⟩

end Sys2Proof.Machine
end

section
/-! SUPPORT. The CRC-32 validator: one byte of the CRC is linear over GF(2) in CRCACC and the byte together
(42_crc32.md R133), so it can be taken apart into the upper bytes, which only shift, and the low one, which is the table
entry (R131); what MemRead finds in an image (20_memory.md R51, 45_image_input.md R200); and the two operations. -/

namespace Sys2Proof.Machine

open Sys2Proof

/-! ## Linearity over GF(2) -/

theorem crcByte_xor (c d : U32) (a b : Byte) : crcByte (c ^^^ d) (a ^^^ b) = crcByte c a ^^^ crcByte d b := by
  unfold crcByte
  rw [← crcShift8_xor, BitVec.setWidth_xor]
  congr 1
  ac_rfl

@[simp] theorem crcRun_cons (c : U32) (b : Byte) (s : List Byte) : crcRun c (b :: s) = crcRun (crcByte c b) s := rfl

/-- Both CRCACC and the bytes are combined: it is the initial value that makes the CRC affine and not linear. -/
theorem crcRun_xor₃ (c d e : U32) (x y z : List Byte) (hxy : x.length = y.length) (hyz : y.length = z.length) :
    crcRun (c ^^^ d ^^^ e) ((x.zip (y.zip z)).map fun p => p.1 ^^^ p.2.1 ^^^ p.2.2) =
      crcRun c x ^^^ crcRun d y ^^^ crcRun e z := by
  induction x generalizing c d e y z with
  | nil =>
    obtain rfl := List.eq_nil_of_length_eq_zero hxy.symm
    obtain rfl := List.eq_nil_of_length_eq_zero hyz.symm
    rfl
  | cons a x ih =>
    obtain ⟨b, y, rfl⟩ := List.exists_cons_of_length_eq_add_one hxy.symm
    obtain ⟨f, z, rfl⟩ := List.exists_cons_of_length_eq_add_one hyz.symm
    simp only [List.zip_cons_cons, List.map_cons, crcRun_cons, crcByte_xor]
    exact ih _ _ _ y z (Nat.succ.inj hxy) (Nat.succ.inj hyz)

/-- Three copies of a word combine to one. -/
theorem xor₃_xor (u v w k : U32) : u ^^^ v ^^^ w ^^^ k = (u ^^^ k) ^^^ (v ^^^ k) ^^^ (w ^^^ k) := by
  have hk : k ^^^ k ^^^ k = k := by rw [BitVec.xor_self, BitVec.zero_xor]
  calc u ^^^ v ^^^ w ^^^ k = u ^^^ v ^^^ w ^^^ (k ^^^ k ^^^ k) := by rw [hk]
    _ = (u ^^^ k) ^^^ (v ^^^ k) ^^^ (w ^^^ k) := by ac_rfl

/-- Settles O24: three equal initial values combine to one, and three equal final ones as well. -/
theorem crcAffine : Obligations.CrcAffine := by
  intro x y z hxy hyz
  have hrun := crcRun_xor₃ 0xFFFFFFFF#32 0xFFFFFFFF#32 0xFFFFFFFF#32 x y z hxy hyz
  rw [show 0xFFFFFFFF#32 ^^^ 0xFFFFFFFF#32 ^^^ 0xFFFFFFFF#32 = 0xFFFFFFFF#32 from by decide] at hrun
  unfold crc32 crcAcc
  rw [hrun, xor₃_xor]

/-! ## The table -/

/-- A word is its upper three bytes and its low one. -/
theorem eq_upper_xor_low (w : U32) : w = (w >>> 8 <<< 8) ^^^ (w.setWidth 8).setWidth 32 := by
  ext i hi
  by_cases h : i < 8
  · simp [h, hi]
  · simp [h, hi, show 8 + (i - 8) = i by omega]

/-- Eight shifts by the table: the upper bytes only shift, and the low one selects the entry
(42_crc32.md R131). -/
theorem crcShift8_eq_table (w : U32) : crcShift8 w = (w >>> 8) ^^^ crcTable (w.setWidth 8) := by
  have hupper : crcShift8 (w >>> 8 <<< 8) = w >>> 8 <<< 8 >>> 8 := crcShift8_low0 _ fun i hi => by simp [hi]
  have hback : w >>> 8 <<< 8 >>> 8 = w >>> 8 := by
    ext i hi
    by_cases h : 8 + i < 32
    · simp [h]
    · simp [h, BitVec.getLsbD_of_ge w (8 + i) (by omega)]
  calc crcShift8 w = crcShift8 ((w >>> 8 <<< 8) ^^^ (w.setWidth 8).setWidth 32) := congrArg _ (eq_upper_xor_low w)
    _ = crcShift8 (w >>> 8 <<< 8) ^^^ crcTable (w.setWidth 8) := crcShift8_xor _ _
    _ = (w >>> 8) ^^^ crcTable (w.setWidth 8) := by rw [hupper, hback]

theorem crcByteByTable_eq (c : U32) (b : Byte) : crcByteByTable c b = crcByte c b := by
  have hbyte : (b.setWidth 32 : U32) >>> 8 = 0#32 := by ext i hi; simp
  rw [crcByte, crcShift8_eq_table, BitVec.ushiftRight_xor_distrib, hbyte, BitVec.xor_zero]
  rfl

/-- Settles O23: byte by byte the two forms write the same CRCACC. -/
theorem crcByTable : Obligations.CrcByTable := by
  intro s
  rw [crc32ByTable, funext₂ crcByteByTable_eq]
  rfl

/-! ## MemRead -/

theorem segmentHolds_iff {g : Segment} {addr n : Nat} :
    segmentHolds g addr n = true ↔ g.start.toNat ≤ addr ∧ addr + n ≤ g.start.toNat + g.data.length := decide_eq_true_iff

theorem length_segmentRead {g : Segment} {addr n : Nat} (h : segmentHolds g addr n = true) :
    (segmentRead g addr n).length = n := by
  obtain ⟨hstart, hend⟩ := segmentHolds_iff.mp h
  unfold segmentRead
  rw [List.length_take, List.length_drop]
  omega

theorem getElem?_segmentRead (g : Segment) (addr : Nat) {n k : Nat} (hk : k < n) :
    (segmentRead g addr n)[k]? = g.data[addr - g.start.toNat + k]? := by
  unfold segmentRead
  rw [List.getElem?_take_of_lt hk, List.getElem?_drop]

theorem memRead_zero (img : Image) (addr : Nat) : memRead img addr 0 = some [] := rfl

theorem memRead_pos (img : Image) (addr : Nat) {n : Nat} (h : n ≠ 0) :
    memRead img addr n = (img.find? fun g => segmentHolds g addr n).map fun g => segmentRead g addr n := if_neg h

/-- What MemRead gives of a range that is not empty is read from a segment that holds it. -/
theorem memRead_some {img : Image} {addr n : Nat} {bytes : List Byte} (hn : n ≠ 0)
    (h : memRead img addr n = some bytes) : ∃ g ∈ img, segmentHolds g addr n = true ∧ bytes = segmentRead g addr n := by
  rw [memRead_pos img addr hn] at h
  obtain ⟨g, hg, rfl⟩ := Option.map_eq_some_iff.mp h
  exact ⟨g, List.mem_of_find?_eq_some hg, List.find?_some (p := fun g => segmentHolds g addr n) hg, rfl⟩

theorem memRead_of_holds {img : Image} {addr n : Nat} {g : Segment} (hg : g ∈ img)
    (h : segmentHolds g addr n = true) : ∃ bytes, memRead img addr n = some bytes := by
  by_cases hn : n = 0
  · exact ⟨[], hn ▸ memRead_zero img addr⟩
  · have hfind : (img.find? fun g => segmentHolds g addr n).isSome := List.find?_isSome.mpr ⟨g, hg, h⟩
    obtain ⟨g', hg'⟩ := Option.isSome_iff_exists.mp hfind
    exact ⟨segmentRead g' addr n, by rw [memRead_pos img addr hn, hg']; rfl⟩

theorem length_of_memRead {img : Image} {addr n : Nat} {bytes : List Byte} (h : memRead img addr n = some bytes) :
    bytes.length = n := by
  by_cases hn : n = 0
  · subst hn
    rw [memRead_zero] at h
    cases h
    rfl
  · obtain ⟨g, -, hheld, rfl⟩ := memRead_some hn h
    exact length_segmentRead hheld

/-! ## CRC32 -/

theorem execCrc32Op_read {img : Image} {addr : U32} {n : Nat} {bytes : List Byte} (hin : imageInBounds img = true)
    (h : memRead img addr.toNat n = some bytes) (s : State) :
    execOp (.crc32 img addr n) s =
      .next ((s.setCrc (crcAcc bytes) (crc32 bytes)).setResult (.value (.word (crc32 bytes)))) := by
  simp only [execOp, execCrc32Op, hin, if_true, h, crc32Op, Run.finish_done]

theorem execCrc32Op_hole {img : Image} {addr : U32} {n : Nat} (hin : imageInBounds img = true)
    (h : memRead img addr.toNat n = none) (s : State) : execOp (.crc32 img addr n) s = .fault (.imageHole addr n) := by
  simp only [execOp, execCrc32Op, hin, if_true, h]

theorem execCrc32Op_outOfBounds {img : Image} (hout : imageInBounds img = false) (addr : U32) (n : Nat) (s : State) :
    execOp (.crc32 img addr n) s = .refused .imageOutOfBounds := if_neg (by simp [hout])

/-- Settles O22: the three ends of the operation, where the shift loop that the statement writes out is `crcAcc` by
evaluation, then what MemRead answers and what it read. -/
theorem crc32Operation : Obligations.Crc32Operation := by
  refine ⟨fun s img addr n bytes hin h => ?read, fun s img addr n hin h => execCrc32Op_hole hin h s,
    fun s img addr n hout => execCrc32Op_outOfBounds hout addr n s, fun img addr n h => ?answers,
    fun img addr n bytes hn h => ?held⟩
  case read => exact ⟨crcAcc bytes, rfl, execCrc32Op_read hin h s⟩
  case answers =>
    have hsome : ∃ bytes, memRead img addr n = some bytes := by
      rcases h with ⟨g, hg, hrange⟩ | rfl
      · exact memRead_of_holds hg (segmentHolds_iff.mpr hrange)
      · exact ⟨[], memRead_zero img addr⟩
    obtain ⟨bytes, hbytes⟩ := hsome
    exact ⟨bytes, hbytes, length_of_memRead hbytes⟩
  case held =>
    obtain ⟨g, hg, hheld, rfl⟩ := memRead_some (by omega) h
    obtain ⟨hstart, hend⟩ := segmentHolds_iff.mp hheld
    exact ⟨length_segmentRead hheld, g, hg, hstart, hend, fun k hk => getElem?_segmentRead g addr hk⟩

/-! ## CRC_COMPARE -/

theorem execCrcCompare_written {s : State} (ho : sessionOpen s.session = true) (hl : s.crcLocalWritten = true)
    (hd : s.crcDeviceWritten = true) :
    execOp .crcCompare s = .next (s.flagMatch.setResult (.value (.bool (decide (s.crcLocal = s.crcDevice))))) :=
  (requireOpen_open ho _).trans (if_pos (by rw [hl, hd]; rfl))

theorem execCrcCompare_unwritten {s : State} (ho : sessionOpen s.session = true)
    (h : s.crcLocalWritten = false ∨ s.crcDeviceWritten = false) : execOp .crcCompare s = .refused .crcUnwritten :=
  (requireOpen_open ho _).trans (if_neg (by rcases h with h | h <;> simp [h]))

/-- Settles O25: words are equal when their bits are. -/
theorem crcCompareOperation : Obligations.CrcCompareOperation := by
  refine fun s ho => ⟨fun hl hd => ⟨decide (s.crcLocal = s.crcDevice), execCrcCompare_written ho hl hd, ?bits⟩,
    execCrcCompare_unwritten ho⟩
  rw [decide_eq_true_iff]
  exact ⟨fun h k _ => by rw [h], BitVec.eq_of_getLsbD_eq⟩

end Sys2Proof.Machine
end

section
/-! SUPPORT. The wire items' own meanings (43_commands.md): what a request's own transfer leaves, with its scan and its reply,
what an item of the target does to the window, and the next state of each item over a working link. -/

namespace Sys2Proof.Machine

open Sys2Proof

/-! ## A request's own transfer -/

section

variable {i : Instr} {v : Variant} {cmd : Byte} {n : Nat}

theorem drop_two_encode (hv : variantOf i = some v) (hc : cmdOf v = some cmd) :
    (encode i).drop 2 = cmd :: payloadOf i := by
  rw [encode_request hv hc]; rfl

theorem length_onWire (hn : n = (encode i).length + idleOf v) : (encode i ++ zeros (idleOf v)).length = n := by
  rw [hn, List.length_append, length_zeros]

/-- Everything a request's own transfer changes, `n` bytes long, the end of its event named by the state after it. -/
theorem State.sent_eq (hv : variantOf i = some v) (hc : cmdOf v = some cmd) (hn : n = (encode i).length + idleOf v)
    (s : State) :
    s.sent cmd v i = { s with
      txbuf := s.txbuf.writeRange 0 (encode i ++ zeros (idleOf v))
      txlen := BitVec.ofNat 16 n
      rxbuf := s.rxbuf.writeRange 0 (s.capture n)
      rxlen := BitVec.ofNat 16 n
      cksacc := checksum ((encode i).drop 2)
      now := (s.sent cmd v i).now
      trace := s.trace ++ [.xfer (encode i ++ zeros (idleOf v)) (s.capture n) s.now (s.sent cmd v i).now]
      env := s.envAfter 1 n 1 } := by
  rw [drop_two_encode hv hc, ← length_onWire hn]
  rfl

/-- How long a request's own transfer took (40_transport.md R90). -/
theorem State.sent_elapsed (hn : n = (encode i).length + idleOf v) (s : State) :
    Elapsed s.now (exchangeMinNs s.cfg n) (s.sent cmd v i).now := by
  rw [← length_onWire hn]
  exact State.exchanged_elapsed (s.setCks _) _

/-- The window of a request's own transfer, `n` bytes long. -/
theorem State.rxBytes_sent_eq (hv : variantOf i = some v) (hc : cmdOf v = some cmd) (hw : WellFormed i)
    (hn : n = (encode i).length + idleOf v) (s : State) : (s.sent cmd v i).rxBytes = s.capture n := by
  rw [State.rxBytes_sent hv hc hw, length_onWire hn]

end

/-! ## Requests without a scan -/

/-- Settles O27: each of the six items is SERIALIZE and TRANSFER of its packet. -/
theorem sendOnlyRequestsComplete : Obligations.SendOnlyRequestsComplete := by
  intro s i p idle n hi ho hl hn
  obtain ⟨v, cmd, hv, hc, hw, rfl, hexec⟩ : ∃ v cmd, variantOf p = some v ∧ cmdOf v = some cmd ∧ WellFormed p ∧
      idleOf v = idle ∧ exec i s = whenOpen (fun _ => .unit) s (sendOnly p s) := by
    rcases hi with ⟨rfl, ⟨d, rfl, lo, hi, rfl⟩ | ⟨a, rfl, rfl⟩ | ⟨a, k, c, rfl, rfl⟩ | ⟨a, len, d, rfl, hd, rfl⟩ |
      ⟨rfl, rfl⟩⟩ | ⟨a, len, r, rfl, rfl, rfl⟩
    · exact ⟨.sendData, _, rfl, rfl, decide_eq_true ⟨lo, hi⟩, rfl, rfl⟩
    · exact ⟨.sectorErase, _, rfl, rfl, rfl, rfl, rfl⟩
    · exact ⟨.memoryRead, _, rfl, rfl, rfl, rfl, rfl⟩
    · exact ⟨.memoryWrite, _, rfl, rfl, decide_eq_true hd, rfl, rfl⟩
    · exact ⟨.bankErase, _, rfl, rfl, rfl, rfl, rfl⟩
    · exact ⟨.crc32, _, rfl, rfl, rfl, rfl, rfl⟩
  rw [whenOpen_open ho, sendOnly_up hv hc hw (hl 0 Nat.one_pos), Run.finish_done, State.sent_eq hv hc hn] at hexec
  exact ⟨_, hexec, rfl, laidOver_writeRange _ _, laidOver_writeRange _ _, State.sent_elapsed hn s⟩

/-- Settles O35: only SendData and MemoryWrite can be ill formed, and SERIALIZE is what both begin with. -/
theorem illFormedRequestsRaise : Obligations.IllFormedRequestsRaise := by
  intro s i hw ho
  obtain ⟨v, cmd, hv, hc, hexec⟩ : ∃ v cmd, variantOf i = some v ∧ cmdOf v = some cmd ∧
      exec i s = whenOpen (fun _ => .unit) s (sendOnly i s) := by
    rcases (not_wellFormed_iff i).mp hw with ⟨d, rfl, -⟩ | ⟨a, n, d, rfl, -⟩
    · exact ⟨.sendData, _, rfl, rfl, rfl⟩
    · exact ⟨.memoryWrite, _, rfl, rfl, rfl⟩
  rw [hexec, whenOpen_open ho, sendOnly_bound hv hc hw, Run.finish_raise]
  rfl

/-! ## Requests with a scan -/

/-- The item is SERIALIZE, TRANSFER and ACK_SCAN, whatever comes after an ACK (44_sequencer.md R170, shapes A and B). -/
def SendsThenScans (i : Instr) (s : State) : Prop :=
  ∃ (α : Type) (value : α → OpValue) (f : Unit → State → Run α),
    exec i s = whenOpen value s ((sendOnly i s).andThen fun _ t => (ackScan t).andThen f)

theorem sendsThenScans_of_bareAck {i : Instr} {s : State}
    (h : exec i s = whenOpen (fun _ => .unit) s (sendBareAck i s)) : SendsThenScans i s := by
  have hdone : sendBareAck i s = (sendOnly i s).andThen fun _ t => (ackScan t).andThen Run.done := by
    simp only [Run.andThen_done_right]; rfl
  exact ⟨_, _, _, hdone ▸ h⟩

theorem sendsThenScans_of_reply {i : Instr} {w : Variant} {s : State}
    (h : exec i s = whenOpen .fields s (sendForReply i w s)) : SendsThenScans i s := by
  simp only [sendForReply, parseThenAck, parseReply, Run.andThen_assoc] at h
  exact ⟨_, _, _, h⟩

/-- Settles O26: the scan finds the ACK in the window of the request's own transfer. -/
theorem bareAckRequestsComplete : Obligations.BareAckRequestsComplete := by
  intro s i idle n z w hi ho hl hn hwin hz
  obtain ⟨v, cmd, hv, hc, hw, rfl, hexec⟩ : ∃ v cmd, variantOf i = some v ∧ cmdOf v = some cmd ∧ WellFormed i ∧
      idleOf v = idle ∧ exec i s = whenOpen (fun _ => .unit) s (sendBareAck i s) := by
    rcases hi with ⟨rfl, rfl⟩ | ⟨a, len, rfl, rfl⟩ | ⟨rfl, rfl⟩
    · exact ⟨.ping, _, rfl, rfl, rfl, rfl, rfl⟩
    · exact ⟨.download, _, rfl, rfl, rfl, rfl, rfl⟩
    · exact ⟨.reset, _, rfl, rfl, rfl, rfl, rfl⟩
  rw [whenOpen_open ho, sendBareAck, sendOnly_up hv hc hw (hl 0 Nat.one_pos), Run.andThen_done,
    ackScan_ack ((State.rxBytes_sent_eq hv hc hw hn s).trans hwin) hz, Run.finish_done, State.sent_eq hv hc hn] at hexec
  exact ⟨_, hexec, rfl, laidOver_writeRange _ _, laidOver_writeRange _ _, State.sent_elapsed hn s⟩

/-- Settles O33: the scan raises its error, and whatever would come after an ACK is not done. -/
theorem requestsWithoutAck : Obligations.RequestsWithoutAck := by
  intro s i idle n hi ho hl hn
  obtain ⟨v, cmd, hv, hc, hw, rfl, α, value, f, hexec⟩ : ∃ v cmd, variantOf i = some v ∧ cmdOf v = some cmd ∧
      WellFormed i ∧ idleOf v = idle ∧ SendsThenScans i s := by
    rcases hi with ⟨rfl, rfl⟩ | ⟨a, len, rfl, rfl⟩ | ⟨rfl, rfl⟩ | ⟨rfl, rfl⟩ | ⟨rfl, rfl⟩
    · exact ⟨.ping, _, rfl, rfl, rfl, rfl, sendsThenScans_of_bareAck rfl⟩
    · exact ⟨.download, _, rfl, rfl, rfl, rfl, sendsThenScans_of_bareAck rfl⟩
    · exact ⟨.reset, _, rfl, rfl, rfl, rfl, sendsThenScans_of_bareAck rfl⟩
    · exact ⟨.getStatus, _, rfl, rfl, rfl, rfl, sendsThenScans_of_reply rfl⟩
    · exact ⟨.getChipId, _, rfl, rfl, rfl, rfl, sendsThenScans_of_reply rfl⟩
  have hwindow := State.rxBytes_sent_eq hv hc hw hn s
  rw [whenOpen_open ho, sendOnly_up hv hc hw (hl 0 Nat.one_pos), Run.andThen_done] at hexec
  refine ⟨fun z w hwin hz => ?nack, fun hz => ?nothing⟩
  case nack =>
    rw [ackScan_nack (hwindow.trans hwin) hz, Run.andThen_raise, Run.finish_raise, State.sent_eq hv hc hn] at hexec
    exact ⟨_, hexec, rfl, laidOver_writeRange _ _, laidOver_writeRange _ _, State.sent_elapsed hn s⟩
  case nothing =>
    rw [ackScan_nothing (hwindow.symm ▸ hz), Run.andThen_raise, Run.finish_raise, State.sent_eq hv hc hn] at hexec
    exact ⟨_, hexec, rfl, laidOver_writeRange _ _, laidOver_writeRange _ _, State.sent_elapsed hn s⟩

/-! ## The replies in a window -/

/-- No reply has a `bytes` field, so each is in its bounds (41_framer.md R113). -/
theorem reply_inBounds {r : Instr} {w : Variant} (hr : variantOf r = some w) (hc : cmdOf w = none) :
    minLen w ≤ 3 + (payloadOf r).length ∧ 3 + (payloadOf r).length ≤ maxLen w := by
  refine (wellFormed_iff_bounds hr).mp (by_contra fun hw => ?_)
  rcases (not_wellFormed_iff r).mp hw with ⟨d, rfl, -⟩ | ⟨a, n, d, rfl, -⟩ <;> cases hr <;> cases hc

theorem decodeFields_payloadOf {r : Instr} {w : Variant} (hr : variantOf r = some w) :
    decodeFields (fieldsOf w) (payloadOf r) = .ok (fieldValues r) :=
  decodeFields_encFields (fieldsOf_bytesLast w) (haveTypes_fieldValues hr)

/-- The state PARSE_REPLY leaves when it accepts the reply `r` after a sentinel at index `p`. -/
def State.tookReply (s : State) (w : Variant) (p : Nat) (r : Instr) : State :=
  storeFields w (fieldValues r)
    (s.parsed p (BitVec.ofNat 8 (2 + (payloadOf r).length)) (checksum (payloadOf r)) (payloadOf r))

section

variable {s : State} {r : Instr} {w : Variant} {z rest : List Byte}

/-- PARSE_REPLY accepts every reply of its variant, whatever comes after it (41_framer.md R116). -/
theorem parseReply_item (hr : variantOf r = some w) (hc : cmdOf w = none) (hz : SentinelFree z)
    (hwin : s.rxBytes = z ++ ackByte :: encode r ++ rest) :
    parseReply w s = Run.done (fieldValues r) (s.tookReply w z.length r) := by
  obtain ⟨lo, hi⟩ := reply_inBounds hr hc
  rw [encode_reply hr hc] at hwin
  rw [parseReply_accepts hz hwin lo hi, decodeFields_payloadOf hr]
  rfl

/-- Shape B with the reply in the window of the request's own transfer (44_sequencer.md R170). -/
theorem sendForReply_item {i : Instr} {v : Variant} {cmd : Byte} {n : Nat} (hv : variantOf i = some v)
    (hc : cmdOf v = some cmd) (hw : WellFormed i) (hn : n = (encode i).length + idleOf v) (hr : variantOf r = some w)
    (hrc : cmdOf w = none) (hz : SentinelFree z) (hwin : s.capture n = z ++ ackByte :: encode r ++ rest)
    (hl : LinkUp s 2) :
    sendForReply i w s =
      Run.done (fieldValues r) (((s.sent cmd v i).tookReply w z.length r).exchanged [ackByte]) := by
  obtain ⟨lo, hi⟩ := reply_inBounds hr hrc
  rw [encode_reply hr hrc, ← length_onWire hn] at hwin
  exact sendForReply_up hv hc hw hz hwin lo hi (decodeFields_payloadOf hr) hl

end

/-! ## Requests with a reply -/

/-- HOST_ACK after a transfer of `n` bytes begun in `s`, whose event is `e`: what the two did together (40_transport.md
R93). -/
theorem State.hostAcked_eq {s t : State} {n : Nat} {e : Event} (hc : t.cfg = s.cfg) (he : t.env = s.envAfter 1 n 1)
    (ht : t.trace = s.trace ++ [e]) :
    t.exchanged [ackByte] = { t with
      txbuf := t.txbuf.writeRange 0 [ackByte]
      txlen := 1#16
      rxbuf := t.rxbuf.writeRange 0 (s.window n 1)
      rxlen := 1#16
      now := (t.exchanged [ackByte]).now
      trace := s.trace ++ [e, .xfer [ackByte] (s.window n 1) t.now (t.exchanged [ackByte]).now]
      env := s.envAfter 2 (n + 1) 2 } := by
  rw [← State.envAfter_envAfter hc he 1 1 1, ← State.capture_of_env he, List.append_cons, ← ht]
  rfl

theorem encode_commandStatus (x : StatusValue) : encode (.commandStatus x) = [3#8, statusCode x, statusCode x] := by
  obtain ⟨-, -, -, -, -, -, -, -, -, hlayout, -⟩ := packetLayouts
  exact hlayout x

/-- Settles O28: the window holds the encoding of a CommandStatus. -/
theorem getStatusCompletes : Obligations.GetStatusCompletes := by
  intro s x z w ho hl hwin hz
  have hreply : s.capture 35 = z ++ ackByte :: encode (.commandStatus x) ++ w := by
    rw [hwin, encode_commandStatus]; rfl
  have hsum : checksum (payloadOf (.commandStatus x)) = statusCode x := checksum_singleton _
  have hexec : exec .getStatus s = whenOpen .fields s (sendForReply .getStatus .commandStatus s) := rfl
  rw [whenOpen_open ho, sendForReply_item (r := .commandStatus x) rfl rfl rfl rfl rfl rfl hz hreply hl, Run.finish_done,
    State.tookReply, hsum, State.hostAcked_eq (s := s) (n := 35) ?cfg ?env ?trace] at hexec
  case cfg | env | trace => rfl
  exact ⟨_, (s.sent 0x23#8 .getStatus .getStatus).now, hexec, rfl, laidOver_twice _ _ _,
    laidOver_twice _ _ _, laidOver_writeRange _ _, State.sent_elapsed rfl s, State.exchanged_elapsed _ [ackByte]⟩

/-- Settles O29: the window holds the encoding of a ChipIdReply. -/
theorem getChipIdCompletes : Obligations.GetChipIdCompletes := by
  intro s x z w ho hl hwin hz
  have hreply : s.capture 45 = z ++ ackByte :: encode (.chipIdReply x) ++ w := hwin
  have hexec : exec .getChipId s = whenOpen .fields s (sendForReply .getChipId .chipIdReply s) := rfl
  rw [whenOpen_open ho, sendForReply_item (r := .chipIdReply x) rfl rfl rfl rfl rfl rfl hz hreply hl, Run.finish_done,
    State.hostAcked_eq (s := s) (n := 45) ?cfg ?env ?trace] at hexec
  case cfg | env | trace => rfl
  exact ⟨_, (s.sent 0x28#8 .getChipId .getChipId).now, hexec, rfl, laidOver_twice _ _ _,
    laidOver_twice _ _ _, laidOver_writeRange _ _, State.sent_elapsed rfl s, State.exchanged_elapsed _ [ackByte]⟩

/-! ## Items of the target -/

/-- Everything the receiving of `n` bytes changes, the end of its event named by the state after it. -/
theorem State.received_eq {bytes : List Byte} {n : Nat} (hn : bytes.length = n) (s : State) :
    s.received bytes = { s with
      txbuf := s.txbuf.writeRange 0 (zeros n)
      txlen := BitVec.ofNat 16 n
      rxbuf := s.rxbuf.writeRange 0 bytes
      rxlen := BitVec.ofNat 16 n
      now := (s.received bytes).now
      trace := s.trace ++ [.xfer (zeros n) bytes s.now (s.received bytes).now]
      env := s.envAfter 1 0 1 } := by
  rw [← hn]
  rfl

theorem State.received_elapsed {bytes : List Byte} {n : Nat} (hn : bytes.length = n) (s : State) :
    Elapsed s.now (exchangeMinNs s.cfg n) (s.received bytes).now := by
  rw [← hn]
  exact endTime_elapsed _ _ _

theorem length_acked_reply {r : Instr} {w : Variant} (hr : variantOf r = some w) (hc : cmdOf w = none) :
    (ackByte :: encode r).length = 3 + (payloadOf r).length := by
  rw [encode_reply hr hc, List.length_cons, length_replyPacket]; omega

/-- A READ of the ACK and a reply over a working link, then PARSE_REPLY (log 11). -/
theorem receiveReply_item {r : Instr} {w : Variant} (hr : variantOf r = some w) (hc : cmdOf w = none) {s : State}
    (hl : s.ioFails 0 = false) :
    receiveReply w (encode r) s =
      Run.done (fieldValues r) ((s.received (ackByte :: encode r)).tookReply w 0 r) := by
  have hlen : (ackByte :: encode r).length < 65536 := by
    have hmax := maxLen_le w
    obtain ⟨-, hi⟩ := reply_inBounds hr hc
    rw [length_acked_reply hr hc]; omega
  rw [receiveReply, receive_up hlen hl, Run.andThen_done]
  exact parseReply_item (z := []) (rest := []) hr hc (by simp [SentinelFree])
    (by rw [State.rxBytes_received s hlen]; simp)

/-- Settles O30: the window holds the ACK and the item itself, which PARSE_REPLY accepts. -/
theorem repliesComplete : Obligations.RepliesComplete := by
  intro s i pay vals ho hl hi
  obtain ⟨w, hr, hc, hpay, hvals, hexec⟩ : ∃ w, variantOf i = some w ∧ cmdOf w = none ∧ payloadOf i = pay ∧
      fieldValues i = vals ∧ exec i s = whenOpen .fields s (receiveReply w (encode i) s) := by
    rcases hi with ⟨v, rfl, rfl, rfl⟩ | ⟨v, rfl, rfl, rfl⟩ | ⟨v, rfl, rfl, rfl⟩
    · exact ⟨.chipIdReply, rfl, rfl, rfl, rfl, rfl⟩
    · exact ⟨.crc32Reply, rfl, rfl, rfl, rfl, rfl⟩
    · exact ⟨.commandStatus, rfl, rfl, rfl, rfl, rfl⟩
  have hlen := length_acked_reply hr hc
  rw [whenOpen_open ho, receiveReply_item hr hc (hl 0 Nat.one_pos), Run.finish_done, State.received_eq hlen] at hexec
  subst hpay hvals
  rcases hi with ⟨v, rfl, -, -⟩ | ⟨v, rfl, -, -⟩ | ⟨v, rfl, -, -⟩ <;> cases hr
  all_goals exact ⟨_, hexec, rfl, laidOver_writeRange _ _, laidOver_writeRange _ _, laidOver_writeRange _ _,
    State.received_elapsed hlen s⟩

theorem State.rxBytes_received_sentinel (s : State) (b : Byte) : (s.received [b]).rxBytes = [] ++ b :: [] :=
  State.rxBytes_received s (by simp)

/-- A READ of one byte over a working link: ACK_SCAN is left to run over the window of it (log 11). -/
theorem receiveSentinel_up {s : State} (b : Byte) (hl : s.ioFails 0 = false) :
    receiveSentinel [b] s = ackScan (s.received [b]) := by
  rw [receiveSentinel, receive_up (by simp) hl, Run.andThen_done]

/-- Settles O31, one clause for each sender. -/
theorem ackCompletes : Obligations.AckCompletes := by
  intro s ho hl
  refine ⟨?target, ?block⟩
  case target =>
    have hexec : exec (.ack .target) s = whenOpen (fun _ => .unit) s (receiveSentinel [ackByte] s) := rfl
    rw [whenOpen_open ho, receiveSentinel_up _ (hl 0 Nat.one_pos),
      ackScan_ack (State.rxBytes_received_sentinel s _) (by simp [SentinelFree])] at hexec
    exact ⟨_, hexec, rfl, laidOver_writeRange _ _, laidOver_writeRange _ _, State.received_elapsed rfl s⟩
  case block =>
    have hexec : exec (.ack .block) s = whenOpen (fun _ => .unit) s (hostAck s) := rfl
    rw [whenOpen_open ho, hostAck_up (hl 0 Nat.one_pos)] at hexec
    exact ⟨_, hexec, rfl, laidOver_writeRange _ _, laidOver_writeRange _ _, s.exchanged_elapsed [ackByte]⟩

/-- Settles O32: the scan finds the NACK at index 0. -/
theorem nackRaisesNack : Obligations.NackRaisesNack := by
  intro s ho hl
  have hexec : exec .nack s = whenOpen (fun _ => .unit) s (receiveSentinel [nackByte] s) := rfl
  rw [whenOpen_open ho, receiveSentinel_up _ (hl 0 Nat.one_pos),
    ackScan_nack (State.rxBytes_received_sentinel s _) (by simp [SentinelFree])] at hexec
  exact ⟨_, hexec, rfl, laidOver_writeRange _ _, laidOver_writeRange _ _, State.received_elapsed rfl s⟩

end Sys2Proof.Machine
end

section
/-! SUPPORT. The procedures of 44_sequencer.md as the controller invokes them: where each is accepted (R191), and what Exchange
command adds to the command's own meaning (R170, 60_exceptions.md R227). -/

namespace Sys2Proof.Machine

open Sys2Proof

/-! ## Acceptance -/

section

variable {p : Procedure} {s : State}

theorem execProcedure_refused (h : procedureAccepted p s.session = false) :
    execProcedure p s = .refused (.sessionState s.session) := if_neg (by simp [h])

theorem execProcedure_badOperand {r : Refusal} (h : procedureAccepted p s.session = true)
    (ho : procedureOperand p = some r) : execProcedure p s = .refused r := by
  simp only [execProcedure, h, if_true, ho]

theorem execProcedure_accepted (h : procedureAccepted p s.session = true) (ho : procedureOperand p = none) :
    execProcedure p s = runProcedure p s := by
  simp only [execProcedure, h, if_true, ho]

theorem runProcedure_next (p : Procedure) (s : State) : ∃ t, runProcedure p s = .next t := by
  cases p <;> exact ⟨_, rfl⟩

theorem execProcedure_runs (h : procedureAccepted p s.session = true) (ho : procedureOperand p = none) :
    ∃ t, execProcedure p s = .next t := by
  rw [execProcedure_accepted h ho]
  exact runProcedure_next p s

theorem execProcedure_operand {t : State} (h : execProcedure p s = .next t) : procedureOperand p = none := by
  obtain ⟨hacc, -⟩ := execProcedure_next h
  cases ho : procedureOperand p with
  | none => rfl
  | some r => rw [execProcedure_badOperand hacc ho] at h; cases h

end

theorem procedureOperand_exchangeCommand {i : Instr} (h : (requestOf i).isSome = true) :
    procedureOperand (.exchangeCommand i) = none := if_pos h

/-- Settles O37, row by row of the table of R191, then the operands and Exchange command. -/
theorem acceptanceOfProcedures : Obligations.AcceptanceOfProcedures := by
  have inBounds : ∀ {b : Bool}, b = true → (if b then none else some Refusal.imageOutOfBounds) = none := fun h => if_pos h
  have outOfBounds : ∀ {b : Bool}, b = false →
      (if b then none else some Refusal.imageOutOfBounds) = some .imageOutOfBounds := fun h => if_neg (by simp [h])
  refine ⟨fun s hx => ?notEntered, fun s hi ho => ?notReady, fun s ho => ?notOperational, fun s hc => ?resetClosed,
    fun s hx => ?entered, fun s hx => ?ready, fun s hx => ?operational, fun s ho => ?resetOpen,
    fun g => decide_eq_true_iff, fun l => List.all_eq_true, fun s hx l hl => ?badImage, fun s hx g hg => ?badSegment,
    fun s hc i => ?exchangeClosed, fun s ho => ⟨fun i hi => ?exchangeRequest, fun i hi => ?exchangeOther⟩⟩
  case notEntered =>
    have h := decide_eq_false hx
    exact ⟨execProcedure_refused h, fun _ => execProcedure_refused h, fun _ => execProcedure_refused h,
      fun _ => execProcedure_refused h⟩
  case notReady =>
    have h := decide_eq_false (not_or.mpr ⟨hi, ho⟩)
    exact ⟨fun _ => execProcedure_refused h, execProcedure_refused h, fun _ => execProcedure_refused h,
      fun _ _ => execProcedure_refused h⟩
  case notOperational =>
    have h := decide_eq_false ho
    exact ⟨fun _ => execProcedure_refused h, execProcedure_refused h⟩
  case resetClosed => exact execProcedure_refused hc
  case entered =>
    have h := decide_eq_true hx
    exact ⟨execProcedure_runs h rfl, fun l hl => ⟨execProcedure_runs h (inBounds hl), execProcedure_runs h (inBounds hl),
      execProcedure_runs h (inBounds hl)⟩⟩
  case ready =>
    have h := decide_eq_true hx
    exact ⟨fun _ => execProcedure_runs h rfl, execProcedure_runs h rfl, fun g hg => execProcedure_runs h (inBounds hg),
      fun _ _ => execProcedure_runs h rfl⟩
  case operational =>
    have h := decide_eq_true hx
    exact ⟨fun _ => execProcedure_runs h rfl, execProcedure_runs h rfl⟩
  case resetOpen => exact execProcedure_runs ho rfl
  case badImage =>
    have h := decide_eq_true hx
    exact ⟨execProcedure_badOperand h (outOfBounds hl), execProcedure_badOperand h (outOfBounds hl),
      execProcedure_badOperand h (outOfBounds hl)⟩
  case badSegment => exact execProcedure_badOperand (decide_eq_true hx) (outOfBounds hg)
  case exchangeClosed => exact execProcedure_refused hc
  case exchangeRequest => exact execProcedure_runs ho (procedureOperand_exchangeCommand hi)
  case exchangeOther => exact execProcedure_badOperand ho (by simp [procedureOperand, hi])

/-! ## The errors of the framer -/

/-- The operation touches neither TRACE nor the configuration, and its errors are those of a scan. -/
structure Run.Quiet {α : Type} (s : State) (r : Run α) : Prop where
  trace : r.state.trace = s.trace
  cfg : r.state.cfg = s.cfg
  error : ∀ k, r.out = .error k → k.ofScan

section

variable {α β : Type} {s t : State}

theorem Run.Quiet.done (a : α) (ht : t.trace = s.trace) (hc : t.cfg = s.cfg) : (Run.done a t).Quiet s := ⟨ht, hc, nofun⟩

theorem Run.Quiet.raise {k : ErrorKind} (hk : k.ofScan) (ht : t.trace = s.trace) (hc : t.cfg = s.cfg) :
    (Run.raise (α := α) k t).Quiet s :=
  ⟨ht, hc, fun _ h => by cases h; exact hk⟩

theorem Run.Quiet.andThen {r : Run α} {f : α → State → Run β} (hr : r.Quiet s)
    (hf : ∀ a t, t.trace = s.trace → t.cfg = s.cfg → (f a t).Quiet s) : (r.andThen f).Quiet s := by
  rcases Run.andThen_cases r f with ⟨k, hk, e⟩ | ⟨a, -, e⟩
  · rw [e]
    exact ⟨hr.trace, hr.cfg, fun _ h => by cases h; exact hr.error k hk⟩
  · rw [e]
    exact hf a _ hr.trace hr.cfg

theorem ackScan_quiet (s : State) : (ackScan s).Quiet s := by
  unfold ackScan
  split
  · exact .done _ rfl rfl
  · exact .raise trivial rfl rfl
  · exact .raise trivial rfl rfl

theorem storeFields_cfg (v : Variant) (vals : List FieldValue) (s : State) : (storeFields v vals s).cfg = s.cfg := by
  unfold storeFields; split <;> rfl

theorem acceptPayload_quiet (v : Variant) (pay : List Byte) (s : State) : (acceptPayload v pay s).Quiet s := by
  unfold acceptPayload
  split
  · exact .done _ (storeFields_trace v _ (s.setPayload pay)) (storeFields_cfg v _ (s.setPayload pay))
  · next e _ => exact .raise (by cases e <;> trivial) rfl rfl

theorem parsePayload_quiet (v : Variant) (p : Nat) (s : State) : (parsePayload v p s).Quiet s := by
  unfold parsePayload
  split
  · exact .raise trivial rfl rfl
  · dsimp only
    split
    · exact .raise trivial rfl rfl
    · obtain ⟨ht, hc, he⟩ := acceptPayload_quiet v (s.rxbuf.readRange (p + 3) (s.rlen.toNat - 2)) (s.setCks _)
      exact ⟨ht, hc, he⟩

theorem parseReply_quiet (v : Variant) (s : State) : (parseReply v s).Quiet s := by
  refine (ackScan_quiet s).andThen fun _ t ht hc => ?_
  split
  · exact .raise trivial ht hc
  · unfold parseBounded
    dsimp only
    split
    · exact .raise trivial ht hc
    · split
      · exact .raise trivial ht hc
      · obtain ⟨ht', hc', he⟩ := parsePayload_quiet v t.scanpos.toNat (t.setHeader _ _)
        exact ⟨ht'.trans ht, hc'.trans hc, he⟩

end

/-! ## Exchange command -/

/-- The operation raises no Verification: what it raises as a procedure is wrapped (60_exceptions.md R227). -/
def Run.Unverified {α : Type} (r : Run α) : Prop := ∀ c, r.out ≠ .error (.verification c)

theorem Run.Quiet.unverified {α : Type} {s : State} {r : Run α} (h : r.Quiet s) : r.Unverified :=
  fun _ hc => h.error _ hc

theorem Run.Unverified.andThen {α β : Type} {r : Run α} {f : α → State → Run β} (hr : r.Unverified)
    (hf : ∀ a s, (f a s).Unverified) : (r.andThen f).Unverified := by
  rcases Run.andThen_cases r f with ⟨k, hk, e⟩ | ⟨a, -, e⟩
  · rw [e]
    exact fun c h => hr c (by cases h; exact hk)
  · rw [e]
    exact hf a _

theorem transfer_unverified (s : State) : (transfer s).Unverified := by
  cases hl : s.ioFails 0
  · rw [transfer_up hl]; nofun
  · rw [transfer_down hl]; nofun

theorem sendOnly_unverified (i : Instr) (s : State) : (sendOnly i s).Unverified := by
  refine .andThen ?_ fun _ t => transfer_unverified t
  unfold serialize
  split
  · nofun
  · split <;> nofun

theorem sendBareAck_unverified (i : Instr) (s : State) : (sendBareAck i s).Unverified :=
  (sendOnly_unverified i s).andThen fun _ t => (ackScan_quiet t).unverified

theorem sendForReply_unverified (i : Instr) (w : Variant) (s : State) : (sendForReply i w s).Unverified :=
  (sendOnly_unverified i s).andThen fun _ t => (parseReply_quiet w t).unverified.andThen fun _ u =>
    Run.Unverified.andThen (transfer_unverified (u.loadTx [ackByte])) fun _ _ => nofun

/-- What the controller receives from Exchange command, where it receives `r` from the command itself (60_exceptions.md
R227). -/
def exchangeResponse : Response → Response
  | .value .unit => .value (.fields [])
  | .error k => .protocol k
  | r => r

theorem Run.wrapped_of_error {α : Type} {value : α → OpValue} {r : Run α} {k : ErrorKind} (h : r.out = .error k)
    (hr : r.Unverified) : r.wrapped value = .protocol k := by
  cases k with
  | verification c => exact absurd h (hr c)
  | _ => simp only [Run.wrapped, h]

/-- A command without fields to return ends as a procedure with none. -/
theorem finishProcedure_withoutFields {r : Run Unit} (hr : r.Unverified) :
    (r.andThen fun _ s => Run.done [] s).finishProcedure .fields =
      .next (r.state.setResult (exchangeResponse (r.response fun _ => .unit))) := by
  rcases Run.andThen_cases r fun _ s => Run.done ([] : List FieldValue) s with ⟨k, hk, e⟩ | ⟨a, ha, e⟩
  · rw [e, Run.finishProcedure, Run.wrapped_of_error (k := k) rfl fun c h => by cases h; exact hr c hk, Run.response, hk]
    rfl
  · rw [e, Run.response, ha]
    rfl

theorem finishProcedure_fields {r : Run (List FieldValue)} (hr : r.Unverified) :
    r.finishProcedure .fields = .next (r.state.setResult (exchangeResponse (r.response .fields))) := by
  cases ho : r.out with
  | ok a => simp only [Run.finishProcedure, Run.wrapped, Run.response, ho, exchangeResponse]
  | error k => simp only [Run.finishProcedure, Run.wrapped_of_error ho hr, Run.response, ho, exchangeResponse]

/-- The wire item and Exchange command of it are the same run, which each returns in its own way. -/
def SharesRun (i : Instr) (s : State) : Prop :=
  ∃ (α : Type) (value : α → OpValue) (r : Run α), exec i s = whenOpen value s r ∧
    (exchangeCommand i s).finishProcedure .fields = .next (r.state.setResult (exchangeResponse (r.response value)))

/-- Settles O38: shapes A and B, and the two that stop after TRANSFER, share the command's own run. -/
theorem exchangeCommandIsItsShape : Obligations.ExchangeCommandIsItsShape := by
  intro s t i hi hexec
  obtain ⟨hreq, α, value, r, hitem, hcommand⟩ : (requestOf i).isSome = true ∧ SharesRun i s := by
    rcases hi with rfl | ⟨a, n, rfl⟩ | rfl | rfl | rfl | ⟨a, k, c, rfl⟩ | ⟨a, n, d, rfl⟩
    · exact ⟨rfl, _, _, _, rfl, finishProcedure_withoutFields (sendBareAck_unverified _ s)⟩
    · exact ⟨rfl, _, _, _, rfl, finishProcedure_withoutFields (sendBareAck_unverified _ s)⟩
    · exact ⟨rfl, _, _, _, rfl, finishProcedure_withoutFields (sendBareAck_unverified _ s)⟩
    · exact ⟨rfl, _, _, _, rfl, finishProcedure_fields (sendForReply_unverified _ _ s)⟩
    · exact ⟨rfl, _, _, _, rfl, finishProcedure_fields (sendForReply_unverified _ _ s)⟩
    · exact ⟨rfl, _, _, _, rfl, finishProcedure_withoutFields (sendOnly_unverified _ s)⟩
    · exact ⟨rfl, _, _, _, rfl, finishProcedure_withoutFields (sendOnly_unverified _ s)⟩
  rw [hitem] at hexec
  obtain ⟨ho, hfinish⟩ := whenOpen_next hexec
  injection hfinish with ht
  subst ht
  have haccepted := execProcedure_accepted (p := .exchangeCommand i) ho (procedureOperand_exchangeCommand hreq)
  exact ⟨_, haccepted.trans hcommand, rfl⟩

/-! ## need_to_update_firmware -/

/-- What the controller receives from need_to_update_firmware, where it receives `r` from Image-matches-device. -/
def negateResponse : Response → Response
  | .value (.bool b) => .value (.bool (!b))
  | r => r

theorem needToUpdate_finish (image : Image) (s : State) :
    (needToUpdate image s).finishProcedure .bool =
      .next ((imageMatches image s).state.setResult (negateResponse ((imageMatches image s).wrapped .bool))) := by
  rcases Run.andThen_cases (imageMatches image s) fun same s => Run.done (!same) s with ⟨k, hk, e⟩ | ⟨same, hsame, e⟩
  · rw [needToUpdate, e, Run.finishProcedure, Run.wrapped, Run.wrapped, hk]
    cases k <;> rfl
  · rw [needToUpdate, e, Run.wrapped, hsame]
    rfl

/-- Settles O50: both are accepted alike, and an error of the one run is the other's. -/
theorem needToUpdateNegatesMatch : Obligations.NeedToUpdateNegatesMatch := by
  intro s t image h
  obtain ⟨hacc, hrun⟩ := execProcedure_next h
  have hoperand : procedureOperand (.needToUpdate image) = none := execProcedure_operand (p := .imageMatches image) h
  injection hrun with ht
  subst ht
  exact ⟨_, (execProcedure_accepted (p := .needToUpdate image) hacc hoperand).trans (needToUpdate_finish image s), rfl⟩

end Sys2Proof.Machine
end

section
/-! SUPPORT. The procedures over a working link whose windows hold what the target should answer: System reset, Check status and
Initialize with their whole run (44_sequencer.md R171, R176, R180). -/

namespace Sys2Proof.Machine

open Sys2Proof

/-- Shape A with the ACK in the window of the request's own transfer (44_sequencer.md R170). -/
theorem sendBareAck_up {i : Instr} {v : Variant} {cmd : Byte} {n : Nat} (hv : variantOf i = some v)
    (hc : cmdOf v = some cmd) (hw : WellFormed i) (hn : n = (encode i).length + idleOf v) {s : State} {z w : List Byte}
    (hwin : s.capture n = z ++ ackByte :: w) (hz : SentinelFree z) (hl : s.ioFails 0 = false) :
    sendBareAck i s = Run.done () ((s.sent cmd v i).flagAck z.length) := by
  rw [sendBareAck, sendOnly_up hv hc hw hl, Run.andThen_done,
    ackScan_ack ((State.rxBytes_sent_eq hv hc hw hn s).trans hwin) hz]

/-! ## The event of a request's own transfer -/

/-- The packet and its IDLE zeros are on the wire, the end of the event named by the state after it. -/
theorem State.sent_trace (s : State) (cmd : Byte) (v : Variant) (i : Instr) :
    (s.sent cmd v i).trace = s.trace ++ [.xfer (encode i ++ zeros (idleOf v))
      (s.capture (encode i ++ zeros (idleOf v)).length) s.now (s.sent cmd v i).now] := rfl

theorem State.tookReply_trace (s : State) (w : Variant) (p : Nat) (r : Instr) :
    (s.tookReply w p r).trace = s.trace := storeFields_trace _ _ _

theorem State.tookReply_now (s : State) (w : Variant) (p : Nat) (r : Instr) : (s.tookReply w p r).now = s.now := by
  unfold State.tookReply storeFields
  split <;> rfl

/-! ## System reset -/

/-- The state System reset leaves when the ACK lies at index `p` of the window of its Reset command. -/
def State.afterReset (s : State) (p : Nat) : State :=
  (waitAtLeast resetWaitNs (((s.sent 0x25#8 .reset .reset).flagAck p).setSession .reset)).setSession .idle

theorem systemReset_up {s : State} {z w : List Byte} (hwin : s.capture 35 = z ++ ackByte :: w) (hz : SentinelFree z)
    (hl : s.ioFails 0 = false) : systemReset s = Run.done () (s.afterReset z.length) := by
  rw [systemReset, sendBareAck_up rfl rfl rfl rfl hwin hz hl]
  rfl

/-- The two events of System reset, their ends named. -/
theorem State.afterReset_trace (s : State) (p : Nat) :
    (s.afterReset p).trace = s.trace ++ [.xfer ([0x03#8, 0x25#8, 0x25#8] ++ zeros 32) (s.capture 35) s.now
        (s.sent 0x25#8 .reset .reset).now,
      .sleep 20000000#64 (s.sent 0x25#8 .reset .reset).now (s.afterReset p).now] := by
  have hsent := s.sent_trace 0x25#8 .reset .reset
  have hwait := waitAtLeast_trace resetWaitNs (((s.sent 0x25#8 .reset .reset).flagAck p).setSession .reset)
  rw [State.setSession_trace, State.flagAck_trace, hsent, List.append_assoc] at hwait
  exact hwait

/-- How long the wait of System reset took (44_sequencer.md R176). -/
theorem State.afterReset_elapsed (s : State) (p : Nat) :
    Elapsed (s.sent 0x25#8 .reset .reset).now 20000000 (s.afterReset p).now :=
  waitAtLeast_elapsed resetWaitNs (((s.sent 0x25#8 .reset .reset).flagAck p).setSession .reset)

/-- Everything System reset changes. -/
theorem State.afterReset_eq (s : State) (p : Nat) :
    s.afterReset p = { s with
      txbuf := s.txbuf.writeRange 0 ([0x03#8, 0x25#8, 0x25#8] ++ zeros 32), txlen := 35#16
      rxbuf := s.rxbuf.writeRange 0 (s.capture 35), rxlen := 35#16
      cksacc := 0x25#8
      ackf := true, nackf := false, scanpos := BitVec.ofNat 16 p
      session := .idle
      now := (s.afterReset p).now
      trace := (s.afterReset p).trace
      env := s.envAfter 1 35 2 } := by
  rw [← State.envAfter_envAfter (s := s) (t := (s.sent 0x25#8 .reset .reset).flagAck p) (a := 1) (b := 35) (c := 1)
    rfl rfl 0 0 1, State.afterReset, waitAtLeast_eq]
  rfl

/-- Settles O42: the command's window holds the ACK, and the wait is all that follows. -/
theorem systemResetEndsIdle : Obligations.SystemResetEndsIdle := by
  intro s z w ho hl hwin hz
  have hrun : execProcedure .systemReset s = .next ((s.afterReset z.length).setResult (.value .unit)) := by
    rw [execProcedure_accepted (p := .systemReset) ho rfl, runProcedure, systemReset_up hwin hz (hl 0 Nat.one_pos)]
    rfl
  rw [State.afterReset_eq, State.afterReset_trace] at hrun
  exact ⟨_, (s.sent 0x25#8 .reset .reset).now, hrun, rfl, laidOver_writeRange _ _, laidOver_writeRange _ _,
    State.sent_elapsed rfl s, s.afterReset_elapsed z.length⟩

/-! ## Check status -/

/-- The state GetStatus leaves when the reply `x` lies after the ACK at index `p`, the host ACK sent. -/
def State.statusRead (s : State) (p : Nat) (x : StatusValue) : State :=
  ((s.sent 0x23#8 .getStatus .getStatus).tookReply .commandStatus p (.commandStatus x)).exchanged [ackByte]

theorem State.statusRead_trace (s : State) (p : Nat) (x : StatusValue) :
    (s.statusRead p x).trace = s.trace ++ [.xfer ([0x03#8, 0x23#8, 0x23#8] ++ zeros 32) (s.capture 35) s.now
        (s.sent 0x23#8 .getStatus .getStatus).now,
      .xfer [0xCC#8] ((s.sent 0x23#8 .getStatus .getStatus).capture 1) (s.sent 0x23#8 .getStatus .getStatus).now
        (s.statusRead p x).now] :=
  List.append_assoc _ _ _

/-- A CommandStatus in the window of GetStatus: only the comparison with Success is left to Check status. -/
theorem checkStatus_up {s : State} {x : StatusValue} {z w : List Byte}
    (hwin : s.capture 35 = z ++ [0xCC#8, 3#8, statusCode x, statusCode x] ++ w) (hz : SentinelFree z) (hl : LinkUp s 2) :
    checkStatus s =
      if x = .success then Run.done () (s.statusRead z.length x)
      else Run.raise (.verification (.statusNotSuccess x)) (s.statusRead z.length x) := by
  have hreply : s.capture 35 = z ++ ackByte :: encode (.commandStatus x) ++ w := by
    rw [hwin, encode_commandStatus]; rfl
  rw [checkStatus, sendForReply_item (r := .commandStatus x) rfl rfl rfl rfl rfl rfl hz hreply hl]
  rfl

/-- Settles O40: the host ACK is on the wire whichever way the comparison ends. -/
theorem checkStatusRequiresSuccess : Obligations.CheckStatusRequiresSuccess := by
  intro s x z w hx hl hwin hz
  have hrun := execProcedure_accepted (p := .checkStatus) (decide_eq_true hx) rfl
  rw [runProcedure, checkStatus_up hwin hz hl] at hrun
  by_cases hv : x = .success
  · rw [if_pos hv] at hrun
    exact ⟨_, _, _, _, hrun, s.statusRead_trace z.length x, rfl, rfl, rfl, fun _ => ⟨rfl, hx, rfl, rfl⟩,
      fun h => absurd hv h⟩
  · rw [if_neg hv] at hrun
    exact ⟨_, _, _, _, hrun, s.statusRead_trace z.length x, rfl, rfl, rfl, fun h => absurd h hv,
      fun _ => ⟨rfl, rfl, rfl, rfl⟩⟩

/-! ## Initialize -/

/-- The state Initialize leaves before its comparison: Ping was ACKed at index `p`, and GetChipId answered with `x` after an
ACK at index `q`. -/
def State.chipIdRead (s : State) (p q : Nat) (x : U32) : State :=
  ((((s.sent 0x20#8 .ping .ping).flagAck p).sent 0x28#8 .getChipId .getChipId).tookReply .chipIdReply q
    (.chipIdReply x)).exchanged [ackByte]

theorem initialise_up {s : State} {x : U32} {z w z' w' : List Byte} (hl : LinkUp s 3)
    (hping : s.capture 39 = z ++ 0xCC#8 :: w) (hz : SentinelFree z)
    (hchip : s.window 39 45 = z' ++ (0xCC#8 :: 6#8 :: checksum (be32 x) :: be32 x) ++ w') (hz' : SentinelFree z') :
    initialise s =
      if x = s.cfg.expectedChipId then Run.done () ((s.chipIdRead z.length z'.length x).setSession .initialized)
      else Run.raise (.verification (.chipIdMismatch x s.cfg.expectedChipId)) (s.chipIdRead z.length z'.length x) := by
  have henv : ((s.sent 0x20#8 .ping .ping).flagAck z.length).env = s.envAfter 1 39 1 := rfl
  have hreply : ((s.sent 0x20#8 .ping .ping).flagAck z.length).capture 45 =
      z' ++ ackByte :: encode (.chipIdReply x) ++ w' := (State.capture_of_env henv 45).trans hchip
  have hlink : LinkUp ((s.sent 0x20#8 .ping .ping).flagAck z.length) 2 := fun k hk =>
    (State.ioFails_of_env (s := s) (t := (s.sent 0x20#8 .ping .ping).flagAck z.length) rfl henv k).trans
      (hl (1 + k) (by omega))
  rw [initialise, sendBareAck_up rfl rfl rfl rfl hping hz (hl 0 (by decide)), Run.andThen_done,
    sendForReply_item (r := .chipIdReply x) rfl rfl rfl rfl rfl rfl hz' hreply hlink]
  rfl

theorem State.chipIdRead_trace (s : State) (p q : Nat) (x : U32) :
    ∃ r0 r1 r2 t1 t2, (s.chipIdRead p q x).trace = s.trace ++ [.xfer ([0x03#8, 0x20#8, 0x20#8] ++ zeros 36) r0 s.now t1,
      .xfer ([0x03#8, 0x28#8, 0x28#8] ++ zeros 42) r1 t1 t2, .xfer [0xCC#8] r2 t2 (s.chipIdRead p q x).now] := by
  have hping := s.sent_trace 0x20#8 .ping .ping
  have hchip := ((s.sent 0x20#8 .ping .ping).flagAck p).sent_trace 0x28#8 .getChipId .getChipId
  have hack := ((((s.sent 0x20#8 .ping .ping).flagAck p).sent 0x28#8 .getChipId .getChipId).tookReply .chipIdReply q
    (.chipIdReply x)).exchanged_trace [ackByte]
  rw [State.tookReply_trace, State.tookReply_now, hchip, State.flagAck_trace, State.flagAck_now, hping,
    List.append_assoc, List.append_assoc] at hack
  exact ⟨_, _, _, _, _, hack⟩

/-- What else Initialize's two commands leave: CHIPID, and the lines and the error as they were. -/
theorem State.chipIdRead_fields (s : State) (p q : Nat) (x : U32) :
    (s.chipIdRead p q x).chipid = x ∧ (s.chipIdRead p q x).resetN = s.resetN ∧ (s.chipIdRead p q x).blEnN = s.blEnN ∧
      (s.chipIdRead p q x).fault = s.fault ∧ (s.chipIdRead p q x).err = s.err := ⟨rfl, rfl, rfl, rfl, rfl⟩

/-- Settles O41: both commands ran, and only the comparison decides. -/
theorem initializeVerifiesChipId : Obligations.InitializeVerifiesChipId := by
  intro s x z w z' w' hx hl hping hz hchip hz'
  have hrun := execProcedure_accepted (p := .initialise) (decide_eq_true hx) rfl
  rw [runProcedure, initialise_up hl hping hz hchip hz'] at hrun
  obtain ⟨r0, r1, r2, t1, t2, htrace⟩ := s.chipIdRead_trace z.length z'.length x
  obtain ⟨hx', hreset, hbl, hfault, herr⟩ := s.chipIdRead_fields z.length z'.length x
  -- The run's state is opaque from here on: only these facts of it are needed.
  generalize s.chipIdRead z.length z'.length x = u at *
  by_cases hv : x = s.cfg.expectedChipId
  · rw [if_pos hv] at hrun
    exact ⟨_, r0, r1, r2, t1, t2, hrun, htrace, hx', hreset, hbl, fun _ => ⟨rfl, rfl, hfault, herr⟩,
      fun h => absurd hv h⟩
  · rw [if_neg hv] at hrun
    refine ⟨_, r0, r1, r2, t1, t2, hrun, htrace, hx', hreset, hbl, fun h => absurd h hv, fun _ => ⟨rfl, rfl, rfl, ?_⟩⟩
    rw [State.errAfter, ← herr]
    rfl

end Sys2Proof.Machine
end

section
/-! SUPPORT. The procedures of 44_sequencer.md that completed, one TRACE event after another: the shapes with a wait (R170, R174,
R175), Check status (R180) and the erases (R172, R173). -/

namespace Sys2Proof.Machine

open Sys2Proof

/-! ## Shape C -/

theorem encode_append_idle {i : Instr} {v : Variant} (hidle : idleOf v = 0) : encode i ++ zeros (idleOf v) = encode i := by
  rw [hidle]
  exact List.append_nil _

/-- The state right after the window that follows a request and its wait (44_sequencer.md R170, shape C). -/
def State.waited (s : State) (cmd : Byte) (v : Variant) (i : Instr) (d : U64) (n : Nat) : State :=
  (waitAtLeast d (s.sent cmd v i)).exchanged (zeros n)

/-- The three events of shape C before its scan, the end of each named by the state after it. -/
theorem State.waited_trace {v : Variant} (hidle : idleOf v = 0) (s : State) (cmd : Byte) (i : Instr) (d : U64) (n : Nat) :
    (s.waited cmd v i d n).trace = s.trace ++ [.xfer (encode i) (s.capture (encode i).length) s.now (s.sent cmd v i).now,
      .sleep d (s.sent cmd v i).now (waitAtLeast d (s.sent cmd v i)).now,
      .xfer (zeros n) ((waitAtLeast d (s.sent cmd v i)).capture n) (waitAtLeast d (s.sent cmd v i)).now
        (s.waited cmd v i d n).now] := by
  rw [State.waited, State.exchanged_trace, waitAtLeast_trace, s.sent_trace, encode_append_idle hidle, length_zeros,
    List.append_assoc, List.append_assoc]
  rfl

/-- What shape C with a bare ACK did between `s` and `t`: the packet, the wait, and a window of `n` bytes that holds the ACK
(44_sequencer.md R170). -/
structure WaitedForAck (packet : List Byte) (d n : Nat) (s t : State) : Prop where
  session : t.session = s.session
  events : ∃ r0 r1 t1 t2 z b, t.trace = s.trace ++ [.xfer packet r0 s.now t1, .sleep (BitVec.ofNat 64 d) t1 t2,
      .xfer (zeros n) r1 t2 t.now] ∧
    Elapsed t1 d t2 ∧ r1 = z ++ 0xCC#8 :: b ∧ SentinelFree z

theorem sendWaitAck_waited {i : Instr} {v : Variant} {cmd : Byte} (hv : variantOf i = some v) (hc : cmdOf v = some cmd)
    (hidle : idleOf v = 0) {d : U64} {n : Nat} (hn : n < 65536) {s : State} (h : (sendWaitAck i d n s).out = .ok ()) :
    WellFormed i ∧ WaitedForAck (encode i) d.toNat n s (sendWaitAck i d n s).state := by
  obtain ⟨hw, z, b, hz, hwin, e⟩ := sendWaitAck_completed hv hc hn h
  have hstate : (sendWaitAck i d n s).state = (s.waited cmd v i d n).flagAck z.length := by rw [e]; rfl
  have hsession : (s.waited cmd v i d n).session = s.session := rfl
  have htrace := s.waited_trace hidle cmd i d n
  rw [hstate]
  generalize s.waited cmd v i d n = u at *
  refine ⟨hw, hsession, ?_⟩
  rw [BitVec.ofNat_toNat, BitVec.setWidth_eq]
  exact ⟨_, _, _, _, z, b, htrace, waitAtLeast_elapsed d _, hwin, hz⟩

/-! ## The CRC query -/

/-- The state Crc32 leaves with its wait when the reply `v` lies after an ACK at index `p` of its window, the host ACK sent. -/
def State.crcRead (s : State) (a n : U32) (p : Nat) (v : U32) : State :=
  ((s.waited 0x27#8 .crc32 (.crc32 a n 0#32) (crc32Wait n) crc32Window).tookReply .crc32Reply p
    (.crc32Reply v)).exchanged [ackByte]

theorem State.crcRead_trace (s : State) (a n : U32) (p : Nat) (v : U32) :
    ∃ r0 r2 t1 t2 t3, (s.crcRead a n p v).trace = s.trace ++ [.xfer (encode (.crc32 a n 0#32)) r0 s.now t1,
        .sleep (BitVec.ofNat 64 (n.toNat * 500)) t1 t2,
        .xfer (zeros 16) ((waitAtLeast (crc32Wait n) (s.sent 0x27#8 .crc32 (.crc32 a n 0#32))).capture 16) t2 t3,
        .xfer [0xCC#8] r2 t3 (s.crcRead a n p v).now] ∧
      Elapsed t1 (n.toNat * 500) t2 := by
  have helapsed := waitAtLeast_elapsed (crc32Wait n) (s.sent 0x27#8 .crc32 (.crc32 a n 0#32))
  have htrace := ((s.waited 0x27#8 .crc32 (.crc32 a n 0#32) (crc32Wait n) crc32Window).tookReply .crc32Reply p
    (.crc32Reply v)).exchanged_trace [ackByte]
  rw [crc32Wait_toNat] at helapsed
  rw [State.tookReply_trace, State.tookReply_now, State.waited_trace rfl, List.append_assoc] at htrace
  rw [← crc32Wait_eq]
  exact ⟨_, _, _, _, _, htrace, helapsed⟩

/-- What Crc32 with its wait did between `s` and `t`: the packet with repeat 0, at least 500 ns for each byte, a window of 16
bytes that holds a reply of `v`, and the host ACK (44_sequencer.md R175). -/
structure AskedCrc (a n v : U32) (s t : State) : Prop where
  session : t.session = s.session
  crcLocal : t.crcLocal = s.crcLocal
  crcDevice : t.crcDevice = v
  events : ∃ r0 r1 r2 t1 t2 t3, t.trace = s.trace ++ [.xfer (encode (.crc32 a n 0#32)) r0 s.now t1,
      .sleep (BitVec.ofNat 64 (n.toNat * 500)) t1 t2, .xfer (zeros 16) r1 t2 t3, .xfer [0xCC#8] r2 t3 t.now] ∧
    Elapsed t1 (n.toNat * 500) t2 ∧
    ∃ z b, r1 = z ++ (0xCC#8 :: 6#8 :: checksum (be32 v) :: be32 v) ++ b ∧ SentinelFree z

theorem sendWaitReply_askedCrc {a n : U32} {s : State} {vals : List FieldValue}
    (h : (sendWaitReply (.crc32 a n 0#32) (crc32Wait n) crc32Window .crc32Reply s).out = .ok vals) :
    ∃ v, vals = [.u32 v] ∧
      AskedCrc a n v s (sendWaitReply (.crc32 a n 0#32) (crc32Wait n) crc32Window .crc32Reply s).state := by
  obtain ⟨z, pay, b, hz, hwin, lo, hi, hd, e⟩ :=
    sendWaitReply_completed (v := .crc32) (cmd := 0x27#8) rfl rfl (by decide) h
  obtain ⟨v, rfl, rfl⟩ := decodeFields_word hd (by simp only [minLen, maxLen] at lo hi; omega)
  have hstate : (sendWaitReply (.crc32 a n 0#32) (crc32Wait n) crc32Window .crc32Reply s).state =
      s.crcRead a n z.length v := by rw [e]; rfl
  obtain ⟨r0, r2, t1, t2, t3, htrace, helapsed⟩ := s.crcRead_trace a n z.length v
  rw [hstate]
  exact ⟨v, rfl, rfl, rfl, rfl, r0, _, r2, t1, t2, t3, htrace, helapsed, z, b, hwin, hz⟩

/-- The same as CRC query makes it, which moves SESSION first and returns CRC_DEVICE (44_sequencer.md R175). -/
theorem crcQuery_askedCrc {a n v : U32} {s : State} (h : (crcQuery a n s).out = .ok v) :
    AskedCrc a n v (s.setSession .operational) (crcQuery a n s).state := by
  obtain ⟨vals, hvals, e, hdone⟩ := Run.andThen_ok h
  obtain ⟨x, -, hasked⟩ := sendWaitReply_askedCrc hvals
  have hx := hasked.crcDevice
  have hstate := congrArg Run.state e
  injection hdone with hdone
  rw [Run.done_state] at hstate
  rw [← hdone, hx]
  exact hstate ▸ hasked

/-! ## Check status -/

/-- What a successful Check status did between `s` and `t`: GetStatus, whose window holds Success, and the host ACK
(44_sequencer.md R180). -/
structure CheckedStatus (s t : State) : Prop where
  session : t.session = s.session
  status : t.status = .success
  crcLocal : t.crcLocal = s.crcLocal
  crcDevice : t.crcDevice = s.crcDevice
  crcMatch : t.crcMatch = s.crcMatch
  events : ∃ r0 r1 t1 z b, t.trace = s.trace ++ [.xfer ([0x03#8, 0x23#8, 0x23#8] ++ zeros 32) r0 s.now t1,
    .xfer [0xCC#8] r1 t1 t.now] ∧ r0 = z ++ [0xCC#8, 0x03#8, 0x40#8, 0x40#8] ++ b ∧ SentinelFree z

theorem checkStatus_checked {s : State} (h : (checkStatus s).out = .ok ()) : CheckedStatus s (checkStatus s).state := by
  obtain ⟨z, b, hz, hwin, e⟩ := checkStatus_completed h
  have hstate : (checkStatus s).state = s.statusRead z.length .success := by rw [e]; rfl
  rw [hstate]
  exact ⟨rfl, rfl, rfl, rfl, rfl, _, _, _, z, b, s.statusRead_trace z.length .success, hwin, hz⟩

/-! ## The procedures -/

theorem encode_sendData (d : List Byte) :
    encode (.sendData d) = BitVec.ofNat 8 (3 + d.length) :: checksum (0x24#8 :: d) :: 0x24#8 :: d := by
  rw [encode, payloadOf_sendData]
  rfl

/-- A chunk that completed was well formed, so its wait is the product. -/
theorem sendWaitAck_sendData {d : List Byte} {s : State}
    (h : (sendWaitAck (.sendData d) (sendDataWait d.length) sendDataWindow s).out = .ok ()) :
    1 ≤ d.length ∧ d.length ≤ 252 ∧ WaitedForAck (encode (.sendData d)) (d.length * 6500) 32 s
      (sendWaitAck (.sendData d) (sendDataWait d.length) sendDataWindow s).state := by
  obtain ⟨hw, hwaited⟩ := sendWaitAck_waited (v := .sendData) (cmd := 0x24#8) rfl rfl rfl (by decide) h
  obtain ⟨lo, hi⟩ : 1 ≤ d.length ∧ d.length ≤ 252 := of_decide_eq_true hw
  rw [sendDataWait_toNat hi] at hwaited
  exact ⟨lo, hi, hwaited⟩

/-- Settles O44: a chunk sent is shape C in Operational. -/
theorem sendChunkWaitsPerByte : Obligations.SendChunkWaitsPerByte := by
  intro s t d h hv
  obtain ⟨hacc, hrun⟩ := execProcedure_next h
  obtain ⟨_, hout, -, rfl⟩ := Run.finishProcedure_value hrun hv
  obtain ⟨lo, hi, hsession, r0, r1, t1, t2, z, b, hevents, helapsed, hwin, hz⟩ := sendWaitAck_sendData hout
  rw [encode_sendData] at hevents
  exact ⟨lo, hi, hsession.trans (of_decide_eq_true hacc), r0, r1, t1, t2, hevents, helapsed, z, b, hwin, hz⟩

/-- Settles O45: CRC query returns what it asked for. -/
theorem crcQueryReturnsDeviceCrc : Obligations.CrcQueryReturnsDeviceCrc := by
  intro s t a n v h hv
  obtain ⟨-, hrun⟩ := execProcedure_next h
  obtain ⟨u, hu, heq, rfl⟩ := Run.finishProcedure_value hrun hv
  injection heq with heq
  subst heq
  have hasked := crcQuery_askedCrc hu
  generalize (crcQuery a n s).state = w at *
  exact ⟨hasked.crcDevice, hasked.session, hasked.events⟩

/-- What a completed erase did: shape C from Operational on, then Check status (44_sequencer.md R172, R173). -/
theorem erase_completed {i : Instr} {v : Variant} {cmd : Byte} (hv : variantOf i = some v) (hc : cmdOf v = some cmd)
    (hidle : idleOf v = 0) {d : U64} {s : State}
    (h : ((sendWaitAck i d eraseWindow (s.setSession .operational)).andThen fun _ s => checkStatus s).out = .ok ()) :
    ∃ u, WaitedForAck (encode i) d.toNat 28 (s.setSession .operational) u ∧ CheckedStatus u
      ((sendWaitAck i d eraseWindow (s.setSession .operational)).andThen fun _ s => checkStatus s).state := by
  obtain ⟨_, hwait, e, hcheck⟩ := Run.andThen_ok h
  obtain ⟨-, hwaited⟩ := sendWaitAck_waited hv hc hidle (by decide) hwait
  rw [e]
  exact ⟨_, hwaited, checkStatus_checked hcheck⟩

/-- Settles O43: shape C with the wait of each erase, then Check status. -/
theorem erasesWaitThenCheck : Obligations.ErasesWaitThenCheck := by
  intro s t p packet d hp h hv
  obtain ⟨-, hrun⟩ := execProcedure_next h
  obtain ⟨u, v, rfl, hwaited, hchecked⟩ : ∃ u v, t = v.setResult (.value .unit) ∧
      WaitedForAck packet d 28 (s.setSession .operational) u ∧ CheckedStatus u v := by
    rcases hp with ⟨a, rfl, rfl, rfl⟩ | ⟨rfl, rfl, rfl⟩ <;>
      obtain ⟨_, hout, -, ht⟩ := Run.finishProcedure_value hrun hv
    · obtain ⟨u, hu⟩ := erase_completed (v := .sectorErase) rfl rfl rfl hout
      exact ⟨u, _, ht, hu⟩
    · obtain ⟨u, hu⟩ := erase_completed (v := .bankErase) rfl rfl rfl hout
      exact ⟨u, _, ht, hu⟩
  obtain ⟨hsession, r0, r1, t1, t2, z, b, hevents, helapsed, hwin, hz⟩ := hwaited
  obtain ⟨hsession', hstatus, -, -, -, r2, r3, t4, z', b', hevents', hwin', hz'⟩ := hchecked
  rw [hevents, List.append_assoc] at hevents'
  exact ⟨hsession'.trans hsession, hstatus, r0, r1, r2, r3, t1, t2, u.now, t4, hevents', helapsed, ⟨z, b, hwin, hz⟩,
    z', b', hwin', hz'⟩

/-- Exchange command of a command without fields to return completes when the command's shape does. -/
theorem withoutFields_completed {r : Run Unit} {vals : List FieldValue}
    (h : (r.andThen fun _ s => Run.done [] s).out = .ok vals) :
    vals = [] ∧ r.out = .ok () ∧ (r.andThen fun _ s => Run.done ([] : List FieldValue) s).state = r.state := by
  obtain ⟨_, hr, e, hdone⟩ := Run.andThen_ok h
  injection hdone with hdone
  exact ⟨hdone.symm, hr, congrArg Run.state e⟩

/-- Settles O39: the three commands with a bare ACK, then Crc32. -/
theorem exchangeCommandWaits : Obligations.ExchangeCommandWaits := by
  intro s t i p d w v hi h hv
  obtain ⟨-, hrun⟩ := execProcedure_next h
  obtain ⟨vals, hvals, rfl, rfl⟩ := Run.finishProcedure_value hrun hv
  rcases hi with ⟨rfl, hack⟩ | ⟨a, n, r, rfl, rfl, rfl, rfl⟩
  case inl =>
    obtain ⟨hne, rfl, hsession, r0, r1, t1, t2, z, b, hevents, helapsed, hwin, hz⟩ : (∀ a n r, p ≠ .crc32 a n r) ∧
        vals = [] ∧ WaitedForAck (encode p) d w s (exchangeCommand p s).state := by
      rcases hack with ⟨l, rfl, rfl, rfl⟩ | ⟨a, rfl, rfl, rfl⟩ | ⟨rfl, rfl, rfl⟩ <;>
        obtain ⟨hnil, hout, hstate⟩ := withoutFields_completed hvals <;>
        refine ⟨nofun, hnil, hstate ▸ ?_⟩
      · obtain ⟨-, -, hwaited⟩ := sendWaitAck_sendData hout
        exact hwaited
      · exact (sendWaitAck_waited (v := .sectorErase) rfl rfl rfl (by decide) hout).2
      · exact (sendWaitAck_waited (v := .bankErase) rfl rfl rfl (by decide) hout).2
    exact ⟨hsession, r0, r1, t1, t2, _, [], z, b, by rw [List.append_nil]; exact hevents, helapsed, hwin, hz,
      fun _ => ⟨rfl, rfl⟩, fun a n r h => absurd h (hne a n r)⟩
  case inr =>
    obtain ⟨x, rfl, hasked⟩ := sendWaitReply_askedCrc hvals
    change AskedCrc a n x s (exchangeCommand (.crc32 a n r) s).state at hasked
    generalize (exchangeCommand (.crc32 a n r) s).state = u at *
    obtain ⟨hsession, -, rfl, r0, r1, r2, t1, t2, t3, hevents, helapsed, z, b, hwin, hz⟩ := hasked
    refine ⟨hsession, r0, r1, t1, t2, t3, [.xfer [0xCC#8] r2 t3 _], z, _, ?_, helapsed, ?_, hz,
      fun hne => absurd rfl (hne a n r), fun _ _ _ _ => ⟨rfl, ⟨b, rfl⟩, r2, rfl⟩⟩
    · rw [List.append_assoc]
      exact hevents
    · rw [hwin, List.append_assoc]
      rfl

end Sys2Proof.Machine
end

section
/-! SUPPORT. The chunk split of 44_sequencer.md R177. -/

namespace Sys2Proof.Machine

open Sys2Proof

section

variable {k : Nat}

theorem length_drop_le_of_cons {b : Byte} {rest : List Byte} {fuel : Nat} (hk : 1 ≤ k) (h : (b :: rest).length ≤ fuel + 1) :
    ((b :: rest).drop k).length ≤ fuel := by
  rw [List.length_drop]; omega

theorem flatten_chunksFuel (hk : 1 ≤ k) {fuel : Nat} {data : List Byte} (h : data.length ≤ fuel) :
    (chunksFuel k fuel data).flatten = data := by
  induction fuel generalizing data with
  | zero => rw [List.eq_nil_of_length_eq_zero (Nat.le_zero.mp h)]; rfl
  | succ fuel ih =>
    cases data with
    | nil => rfl
    | cons b rest =>
      rw [chunksFuel, List.flatten_cons, ih (length_drop_le_of_cons hk h), List.take_append_drop]

theorem length_chunksFuel (hk : 1 ≤ k) {fuel : Nat} {data : List Byte} (h : data.length ≤ fuel) :
    (chunksFuel k fuel data).length = (data.length + (k - 1)) / k := by
  induction fuel generalizing data with
  | zero =>
    rw [List.eq_nil_of_length_eq_zero (Nat.le_zero.mp h)]
    exact (Nat.div_eq_of_lt (by simp; omega)).symm
  | succ fuel ih =>
    cases data with
    | nil => exact (Nat.div_eq_of_lt (by simp; omega)).symm
    | cons b rest =>
      rw [chunksFuel, List.length_cons, ih (length_drop_le_of_cons hk h), List.length_drop, List.length_cons,
        Nat.div_eq_sub_div (a := rest.length + 1 + (k - 1)) hk (by omega)]
      rcases Nat.lt_or_ge (rest.length + 1) k with hlt | hge
      · rw [Nat.div_eq_of_lt (by omega), Nat.div_eq_of_lt (by omega)]
      · congr 2
        omega

theorem chunksFuel_length_bounds (hk : 1 ≤ k) {fuel : Nat} {data c : List Byte} (hc : c ∈ chunksFuel k fuel data) :
    1 ≤ c.length ∧ c.length ≤ k := by
  induction fuel generalizing data with
  | zero => cases hc
  | succ fuel ih =>
    cases data with
    | nil => cases hc
    | cons b rest =>
      rcases List.mem_cons.mp hc with rfl | hc
      · rw [List.length_take, List.length_cons]; omega
      · exact ih hc

/-- A chunk before the last is full. -/
theorem chunksFuel_full {fuel : Nat} {data c : List Byte} {j : Nat} (hc : (chunksFuel k fuel data)[j]? = some c)
    (hj : j + 1 < (chunksFuel k fuel data).length) : c.length = k := by
  induction fuel generalizing data j with
  | zero => cases hc
  | succ fuel ih =>
    cases data with
    | nil => cases hc
    | cons b rest =>
      rw [chunksFuel] at hc hj
      cases j with
      | succ j => exact ih hc (Nat.lt_of_succ_lt_succ hj)
      | zero =>
        rw [List.getElem?_cons_zero, Option.some.injEq] at hc
        subst hc
        have hrest : (b :: rest).drop k ≠ [] := fun hnil => by
          rw [hnil] at hj
          cases fuel <;> simp [chunksFuel] at hj
        rw [List.length_take]
        have := List.length_pos_of_ne_nil hrest
        rw [List.length_drop] at this
        omega

end

/-- Settles O46, by induction on the rounds. -/
theorem chunkingLaw : Obligations.ChunkingLaw := fun _ _ hk =>
  ⟨flatten_chunksFuel hk le_rfl, length_chunksFuel hk le_rfl, fun _ hc => chunksFuel_length_bounds hk hc,
    fun _ _ hc hj => chunksFuel_full hc hj⟩

end Sys2Proof.Machine
end

section
/-! SUPPORT. What a procedure puts on the wire: each follows a script of byte sequences, whole when it completes and from its
beginning up to where it failed otherwise (44_sequencer.md R170 to R178, 60_exceptions.md R230). -/

namespace Sys2Proof.Machine

open Sys2Proof

/-! ## Scripts -/

/-- The run keeps the configuration and sends the byte sequences of the script in their order: all of them when it completes,
and otherwise the first ones. -/
structure Run.Follows {α : Type} (s : State) (script : List (List Byte)) (r : Run α) : Prop where
  cfg : r.state.cfg = s.cfg
  sends : ∃ l, r.state.trace = s.trace ++ l ∧ sentBytes l <+: script ∧ ∀ a, r.out = .ok a → sentBytes l = script

theorem sentBytes_append (l m : List Event) : sentBytes (l ++ m) = sentBytes l ++ sentBytes m := List.filterMap_append

section

variable {α β : Type} {s t : State} {A B : List (List Byte)}

theorem Run.Follows.andThen {r : Run α} {f : α → State → Run β} (hr : r.Follows s A)
    (hf : ∀ a, r.out = .ok a → (f a r.state).Follows r.state B) : (r.andThen f).Follows s (A ++ B) := by
  obtain ⟨hc, l, ht, hpre, hall⟩ := hr
  rcases Run.andThen_cases r f with ⟨k, hk, e⟩ | ⟨a, ha, e⟩
  · rw [e]
    exact ⟨hc, l, ht, hpre.trans (List.prefix_append A B), nofun⟩
  · obtain ⟨hc', m, ht', hpre', hall'⟩ := hf a ha
    rw [e]
    refine ⟨hc'.trans hc, l ++ m, ?_, ?_, fun b hb => ?_⟩
    · rw [ht', ht, List.append_assoc]
    · rw [sentBytes_append, hall a ha]
      exact (List.prefix_append_right_inj A).mpr hpre'
    · rw [sentBytes_append, hall a ha, hall' b hb]

/-- The script is told from any state with the same TRACE and configuration. -/
theorem Run.Follows.congr {r : Run α} (ht : t.trace = s.trace) (hc : t.cfg = s.cfg) (h : r.Follows t A) :
    r.Follows s A := by
  obtain ⟨hcfg, hsends⟩ := h
  rw [ht] at hsends
  exact ⟨hcfg.trans hc, hsends⟩

/-- An operation that adds no transfer to TRACE. -/
theorem Run.Follows.silent {r : Run α} {l : List Event} (ht : r.state.trace = s.trace ++ l) (hl : sentBytes l = [])
    (hc : r.state.cfg = s.cfg) : r.Follows s [] :=
  ⟨hc, l, ht, by rw [hl], fun _ _ => hl⟩

theorem Run.Quiet.follows {r : Run α} (h : r.Quiet s) : r.Follows s [] :=
  .silent (by rw [h.trace, List.append_nil]) rfl h.cfg

theorem Run.Follows.done (a : α) (ht : t.trace = s.trace) (hc : t.cfg = s.cfg) : (Run.done a t).Follows s [] :=
  .silent (by rw [List.append_nil]; exact ht) rfl hc

theorem Run.Follows.raise (k : ErrorKind) (s : State) : (Run.raise (α := α) k s).Follows s [] :=
  .silent (List.append_nil _).symm rfl rfl

theorem wait_follows (d : U64) (s : State) : (wait d s).Follows s [] := .silent (waitAtLeast_trace d s) rfl rfl

theorem transfer_loadTx_follows {tx : List Byte} (hl : tx.length < 65536) (s : State) :
    (transfer (s.loadTx tx)).Follows s [tx] := by
  cases hf : s.ioFails 0
  · rw [transfer_loadTx_up hl hf]
    exact ⟨rfl, _, s.exchanged_trace tx, List.prefix_refl _, fun _ _ => rfl⟩
  · rw [transfer_loadTx_down hf]
    exact ⟨rfl, [], (List.append_nil _).symm, List.nil_prefix, nofun⟩

theorem readWindow_follows {n : Nat} (hn : n < 65536) (s : State) : (readWindow n s).Follows s [zeros n] :=
  transfer_loadTx_follows (by simpa using hn) s

end

/-! ## The shapes of 44_sequencer.md R170 -/

section

variable {i : Instr} {v : Variant} {cmd : Byte}

theorem sendOnly_follows (hv : variantOf i = some v) (hc : cmdOf v = some cmd) (s : State) :
    (sendOnly i s).Follows s [encode i ++ zeros (idleOf v)] := by
  by_cases hw : WellFormed i
  · obtain ⟨-, -, hl⟩ := onWire_length hv hc hw
    rw [sendOnly, serialize_ok hv hc hw, Run.andThen_done]
    exact .congr (t := s.setCks (checksum (cmd :: payloadOf i))) rfl rfl (transfer_loadTx_follows (by omega) _)
  · rw [sendOnly_bound hv hc hw]
    exact ⟨rfl, [], (List.append_nil _).symm, List.nil_prefix, nofun⟩

theorem sendBareAck_follows (hv : variantOf i = some v) (hc : cmdOf v = some cmd) (s : State) :
    (sendBareAck i s).Follows s [encode i ++ zeros (idleOf v)] :=
  (sendOnly_follows hv hc s).andThen fun _ _ => (ackScan_quiet _).follows

theorem parseThenAck_follows (w : Variant) (s : State) : (parseThenAck w s).Follows s [[0xCC#8]] :=
  (parseReply_quiet w s).follows.andThen fun _ _ =>
    (transfer_loadTx_follows (tx := [ackByte]) (by decide) _).andThen fun _ _ => .done _ rfl rfl

theorem sendForReply_follows (hv : variantOf i = some v) (hc : cmdOf v = some cmd) (w : Variant) (s : State) :
    (sendForReply i w s).Follows s [encode i ++ zeros (idleOf v), [0xCC#8]] :=
  (sendOnly_follows hv hc s).andThen fun _ _ => parseThenAck_follows w _

theorem sendWaitAck_follows (hv : variantOf i = some v) (hc : cmdOf v = some cmd) (hidle : idleOf v = 0) (d : U64) {n : Nat}
    (hn : n < 65536) (s : State) : (sendWaitAck i d n s).Follows s [encode i, zeros n] := by
  have hsend := sendOnly_follows hv hc s
  rw [encode_append_idle hidle] at hsend
  exact hsend.andThen fun _ _ => (wait_follows d _).andThen fun _ _ =>
    (readWindow_follows hn _).andThen fun _ _ => (ackScan_quiet _).follows

theorem sendWaitReply_follows (hv : variantOf i = some v) (hc : cmdOf v = some cmd) (hidle : idleOf v = 0) (d : U64) {n : Nat}
    (hn : n < 65536) (w : Variant) (s : State) :
    (sendWaitReply i d n w s).Follows s [encode i, zeros n, [0xCC#8]] := by
  have hsend := sendOnly_follows hv hc s
  rw [encode_append_idle hidle] at hsend
  exact hsend.andThen fun _ _ => (wait_follows d _).andThen fun _ _ =>
    (readWindow_follows hn _).andThen fun _ _ => parseThenAck_follows w _

end

/-! ## The procedures -/

/-- GetStatus and the host ACK (44_sequencer.md R180). -/
def statusScript : List (List Byte) := [encode .getStatus ++ zeros 32, [0xCC#8]]

/-- Ping, GetChipId and the host ACK (44_sequencer.md R171). -/
def initialiseScript : List (List Byte) := [encode .ping ++ zeros 36, encode .getChipId ++ zeros 42, [0xCC#8]]

/-- BankErase, its window, and Check status (44_sequencer.md R173). -/
def bankEraseScript : List (List Byte) := [encode .bankErase, zeros 28] ++ statusScript

/-- Crc32 of a segment's range, its window and the host ACK (44_sequencer.md R175). -/
def crcScript (g : Segment) : List (List Byte) :=
  [encode (.crc32 g.start (BitVec.ofNat 32 g.data.length) 0#32), zeros 16, [0xCC#8]]

/-- The chunks of at most `k` bytes, each with its window (44_sequencer.md R174). -/
def chunksScript (chunks : List (List Byte)) : List (List Byte) := chunks.flatMap fun c => [encode (.sendData c), zeros 32]

/-- Write one segment (44_sequencer.md R177). -/
def segmentScript (k : Nat) (g : Segment) : List (List Byte) :=
  [encode (.download g.start (BitVec.ofNat 32 g.data.length)) ++ zeros 24] ++ chunksScript (chunksOf k g.data) ++
    (statusScript ++ crcScript g ++ statusScript)

/-- The segments that the RAM aperture leaves to the device (44_sequencer.md R178). -/
def flashedSegments (mask : U32) (image : Image) : Image := image.filter fun g => decide (g.start &&& mask = 0#32)

/-- Write one segment, for every segment outside the aperture (44_sequencer.md R178). -/
def segmentsScript (c : Configuration) (image : Image) : List (List Byte) :=
  (flashedSegments c.ramApertureMask image).flatMap (segmentScript c.maxPayload.toNat)

theorem checkStatus_follows (s : State) : (checkStatus s).Follows s statusScript := by
  refine (sendForReply_follows (i := .getStatus) rfl rfl .commandStatus s).andThen (B := []) fun _ _ => ?_
  split
  · exact .done _ rfl rfl
  · exact .raise _ _

theorem initialise_follows (s : State) : (initialise s).Follows s initialiseScript := by
  refine (sendBareAck_follows (i := .ping) rfl rfl s).andThen (B := [_, _]) fun _ _ =>
    (sendForReply_follows (i := .getChipId) rfl rfl .chipIdReply _).andThen (B := []) fun _ _ => ?_
  split
  · exact .done _ rfl rfl
  · exact .raise _ _

theorem bankErase_follows (s : State) : (bankErase s).Follows s bankEraseScript :=
  .congr (t := s.setSession .operational) rfl rfl
    ((sendWaitAck_follows (i := .bankErase) rfl rfl rfl _ (by decide) _).andThen fun _ _ => checkStatus_follows _)

theorem sendChunks_follows (chunks : List (List Byte)) (s : State) :
    (sendChunks chunks s).Follows s (chunksScript chunks) := by
  induction chunks generalizing s with
  | nil => exact .done _ rfl rfl
  | cons c rest ih =>
    exact (sendWaitAck_follows (i := .sendData c) rfl rfl rfl _ (by decide) s).andThen fun _ _ => ih _

theorem crcQuery_follows (g : Segment) (s : State) : (crcQuery g.start (segmentSize g) s).Follows s (crcScript g) :=
  .congr (t := s.setSession .operational) rfl rfl
    ((sendWaitReply_follows (i := .crc32 g.start (segmentSize g) 0#32) rfl rfl rfl _ (by decide) _ _).andThen (B := [])
      fun _ _ => .done _ rfl rfl)

theorem crcCompare_follows (s : State) : (crcCompare s).Follows s [] := .done _ rfl rfl

theorem verifySegment_follows (g : Segment) (s : State) : (verifySegment g s).Follows s (crcScript g) := by
  refine .congr (t := s.setCrcLocal g.crc) rfl rfl ((crcQuery_follows g _).andThen (B := []) fun _ _ =>
    (crcCompare_follows _).andThen (B := []) fun _ _ => ?_)
  split
  · exact .done _ rfl rfl
  · exact .raise _ _

theorem writeSegment_follows (g : Segment) (s : State) :
    (writeSegment g s).Follows s (segmentScript s.cfg.maxPayload.toNat g) := by
  have hdownload := sendBareAck_follows (i := .download g.start (segmentSize g)) rfl rfl (s.setSession .operational)
  have hk : (sendBareAck (.download g.start (segmentSize g)) (s.setSession .operational)).state.cfg = s.cfg := hdownload.cfg
  refine .congr (t := s.setSession .operational) rfl rfl ?_
  rw [segmentScript, List.append_assoc]
  refine hdownload.andThen fun _ _ => ?_
  rw [hk]
  exact (sendChunks_follows _ _).andThen fun _ _ => (checkStatus_follows _).andThen fun _ _ =>
    (verifySegment_follows g _).andThen fun _ _ => checkStatus_follows _

theorem inAperture_eq_false_iff {mask : U32} {g : Segment} : inAperture mask g = false ↔ g.start &&& mask = 0#32 := by
  simp [inAperture]

theorem segmentsScript_cons_skipped {c : Configuration} {g : Segment} (h : inAperture c.ramApertureMask g = true)
    (rest : Image) : segmentsScript c (g :: rest) = segmentsScript c rest := by
  have hg : ¬ g.start &&& c.ramApertureMask = 0#32 := of_decide_eq_true h
  rw [segmentsScript, flashedSegments, List.filter_cons_of_neg (by simpa using hg)]
  rfl

theorem segmentsScript_cons_flashed {c : Configuration} {g : Segment} (h : inAperture c.ramApertureMask g = false)
    (rest : Image) : segmentsScript c (g :: rest) = segmentScript c.maxPayload.toNat g ++ segmentsScript c rest := by
  have hg : g.start &&& c.ramApertureMask = 0#32 := inAperture_eq_false_iff.mp h
  rw [segmentsScript, flashedSegments, List.filter_cons_of_pos (by simpa using hg), List.flatMap_cons]
  rfl

theorem writeSegments_follows (image : Image) (s : State) :
    (writeSegments image s).Follows s (segmentsScript s.cfg image) := by
  induction image generalizing s with
  | nil => exact .done _ rfl rfl
  | cons g rest ih =>
    rw [writeSegments]
    cases hg : inAperture s.cfg.ramApertureMask g with
    | true =>
      rw [if_pos rfl, segmentsScript_cons_skipped hg]
      exact ih s
    | false =>
      rw [if_neg Bool.false_ne_true, segmentsScript_cons_flashed hg]
      have hwrite := writeSegment_follows g s
      have hrest := ih (writeSegment g s).state
      rw [hwrite.cfg] at hrest
      exact hwrite.andThen fun _ _ => hrest

theorem systemReset_follows (s : State) : (systemReset s).Follows s [encode .reset ++ zeros 32] := by
  refine (sendBareAck_follows (i := .reset) rfl rfl s).andThen (B := []) fun _ _ => ?_
  refine .congr (t := State.setSession _ .reset) rfl rfl ((wait_follows resetWaitNs _).andThen (B := []) fun _ _ => ?_)
  exact .done _ rfl rfl

/-- Flash whole image up to its System reset (44_sequencer.md R178). -/
def writeImage (image : Image) (s : State) : Run Unit :=
  (initialise s).andThen fun _ s => (bankErase s).andThen fun _ s => writeSegments image s

theorem flashImage_eq (image : Image) (s : State) :
    flashImage image s = (writeImage image s).andThen fun _ s => systemReset s := by
  simp only [flashImage, writeImage, Run.andThen_assoc]

/-- The byte sequences of Flash whole image up to its System reset. -/
def imageScript (c : Configuration) (image : Image) : List (List Byte) :=
  initialiseScript ++ bankEraseScript ++ segmentsScript c image

theorem writeImage_follows (image : Image) (s : State) : (writeImage image s).Follows s (imageScript s.cfg image) := by
  have hinit := initialise_follows s
  have herase := bankErase_follows (initialise s).state
  have hwrite := writeSegments_follows image (bankErase (initialise s).state).state
  rw [herase.cfg, hinit.cfg] at hwrite
  rw [imageScript, List.append_assoc]
  exact hinit.andThen fun _ _ => herase.andThen fun _ _ => hwrite

theorem flashImage_follows (image : Image) (s : State) :
    (flashImage image s).Follows s (imageScript s.cfg image ++ [encode .reset ++ zeros 32]) := by
  rw [flashImage_eq]
  exact (writeImage_follows image s).andThen fun _ _ => systemReset_follows _

end Sys2Proof.Machine
end

section
/-! SUPPORT. Write one segment, Flash whole image and Image-matches-device (44_sequencer.md R177 to R179): what a completed run
verified, compared and sent. -/

namespace Sys2Proof.Machine

open Sys2Proof

/-! ## Write one segment -/

/-- The verification of a segment completes only when the device's CRC is the segment's (44_sequencer.md R177). -/
theorem verifySegment_verified {g : Segment} {s : State} (h : (verifySegment g s).out = .ok ()) :
    (verifySegment g s).state.session = .operational ∧ (verifySegment g s).state.crcLocal = g.crc ∧
      (verifySegment g s).state.crcDevice = g.crc ∧ (verifySegment g s).state.crcMatch = true := by
  obtain ⟨v, hquery, e, hcompare⟩ := Run.andThen_ok h
  have e : verifySegment g s = _ := e
  obtain ⟨hsession, hlocal, -, -⟩ := crcQuery_askedCrc hquery
  rw [e]
  generalize (crcQuery g.start (segmentSize g) (s.setCrcLocal g.crc)).state = u at *
  simp only [crcCompare, Run.andThen_done] at hcompare ⊢
  split at hcompare
  next hsame =>
    have hdevice : u.crcLocal = u.crcDevice := of_decide_eq_true hsame
    rw [if_pos hsame]
    exact ⟨hsession, hlocal, hdevice.symm.trans hlocal, hsame⟩
  next => cases hcompare

/-- Settles O47: the last Check status leaves what the verification found. -/
theorem writeSegmentVerifies : Obligations.WriteSegmentVerifies := by
  intro s t g _ h hv
  obtain ⟨-, hrun⟩ := execProcedure_next h
  obtain ⟨_, hout, -, rfl⟩ := Run.finishProcedure_value hrun hv
  obtain ⟨-, l, htrace, -, hsent⟩ := writeSegment_follows g s
  obtain ⟨u, hverify, hchecked⟩ : ∃ u, (verifySegment g u).out = .ok () ∧
      CheckedStatus (verifySegment g u).state (writeSegment g s).state := by
    obtain ⟨_, -, e₁, hout⟩ := Run.andThen_ok hout
    obtain ⟨_, -, e₂, hout⟩ := Run.andThen_ok hout
    obtain ⟨_, -, e₃, hout⟩ := Run.andThen_ok hout
    obtain ⟨_, hverify, e₄, hout⟩ := Run.andThen_ok hout
    refine ⟨_, hverify, ?_⟩
    rw [writeSegment, e₁, e₂, e₃, e₄]
    exact checkStatus_checked hout
  obtain ⟨hsession, hlocal, hdevice, hmatch⟩ := verifySegment_verified hverify
  have hall := hsent () hout
  generalize (writeSegment g s).state = w at *
  exact ⟨hchecked.crcLocal.trans hlocal, hchecked.crcDevice.trans hdevice, hchecked.crcMatch.trans hmatch,
    hchecked.status, hchecked.session.trans hsession, l, htrace, hall⟩

/-! ## The System reset at the end -/

/-- A completed System reset: its two events, SESSION Idle, and the CRC registers as they were (44_sequencer.md R176). -/
structure EndedWithReset (s t : State) : Prop where
  session : t.session = .idle
  crcLocal : t.crcLocal = s.crcLocal
  crcDevice : t.crcDevice = s.crcDevice
  events : ∃ r t1 t2, t.trace = s.trace ++ [.xfer ([0x03#8, 0x25#8, 0x25#8] ++ zeros 32) r t1 t2,
    .sleep 20000000#64 t2 t.now] ∧ Elapsed t2 20000000 t.now

theorem systemReset_ended {s : State} (h : (systemReset s).out = .ok ()) : EndedWithReset s (systemReset s).state := by
  obtain ⟨_, hsend, -, -⟩ := Run.andThen_ok h
  obtain ⟨z, -, -, -, e⟩ := sendBareAck_completed (i := .reset) rfl rfl hsend
  have hstate : (systemReset s).state = s.afterReset z.length := by rw [systemReset, e]; rfl
  rw [hstate]
  exact ⟨rfl, rfl, rfl, _, _, _, s.afterReset_trace z.length, s.afterReset_elapsed z.length⟩

/-! ## Flash whole image -/

/-- The byte sequences of Flash whole image that belong to no segment. -/
def commonBytes : List (List Byte) :=
  [encode .ping ++ zeros 36, encode .getChipId ++ zeros 42, encode .getStatus ++ zeros 32, encode .bankErase,
    encode .reset ++ zeros 32, [0xCC#8], zeros 16, zeros 28, zeros 32]

/-- A byte sequence of Write one segment for this segment alone. -/
def OfSegment (k : Nat) (g : Segment) (tx : List Byte) : Prop :=
  tx = encode (.download g.start (BitVec.ofNat 32 g.data.length)) ++ zeros 24 ∨
    tx = encode (.crc32 g.start (BitVec.ofNat 32 g.data.length) 0#32) ∨
    ∃ c ∈ chunksOf k g.data, tx = encode (.sendData c)

theorem statusScript_subset : statusScript ⊆ commonBytes := by
  simp [statusScript, commonBytes]

theorem initialiseScript_subset : initialiseScript ⊆ commonBytes := by
  simp [initialiseScript, commonBytes]

theorem bankEraseScript_subset : bankEraseScript ⊆ commonBytes := by
  simp [bankEraseScript, statusScript, commonBytes]

theorem mem_segmentScript {k : Nat} {g : Segment} {tx : List Byte} (h : tx ∈ segmentScript k g) :
    tx ∈ commonBytes ∨ OfSegment k g tx := by
  simp only [segmentScript, List.mem_append] at h
  rcases h with (hdownload | hchunk) | (hstatus | hcrc) | hstatus
  · exact .inr (.inl (List.mem_singleton.mp hdownload))
  · obtain ⟨c, hc, htx⟩ := List.mem_flatMap.mp hchunk
    rcases List.mem_pair.mp htx with rfl | rfl
    · exact .inr (.inr (.inr ⟨c, hc, rfl⟩))
    · exact .inl (by simp [commonBytes])
  · exact .inl (statusScript_subset hstatus)
  · rcases List.mem_cons.mp hcrc with rfl | hreply
    · exact .inr (.inr (.inl rfl))
    · rcases List.mem_pair.mp hreply with rfl | rfl <;> exact .inl (by simp [commonBytes])
  · exact .inl (statusScript_subset hstatus)

theorem mem_segmentsScript {c : Configuration} {image : Image} {tx : List Byte} (h : tx ∈ segmentsScript c image) :
    tx ∈ commonBytes ∨ ∃ g ∈ image, g.start &&& c.ramApertureMask = 0#32 ∧ OfSegment c.maxPayload.toNat g tx := by
  obtain ⟨g, hg, htx⟩ := List.mem_flatMap.mp h
  obtain ⟨hmem, hout⟩ := List.mem_filter.mp hg
  exact (mem_segmentScript htx).imp_right fun hof => ⟨g, hmem, of_decide_eq_true hout, hof⟩

theorem mem_flashScript {c : Configuration} {image : Image} {tx : List Byte}
    (h : tx ∈ imageScript c image ++ [encode .reset ++ zeros 32]) :
    tx ∈ commonBytes ∨ ∃ g ∈ image, g.start &&& c.ramApertureMask = 0#32 ∧ OfSegment c.maxPayload.toNat g tx := by
  simp only [imageScript, List.mem_append] at h
  rcases h with ((hinit | herase) | hsegments) | hreset
  · exact .inl (initialiseScript_subset hinit)
  · exact .inl (bankEraseScript_subset herase)
  · exact mem_segmentsScript hsegments
  · rw [List.mem_singleton.mp hreset]
    exact .inl (by simp [commonBytes])

/-- Settles O48: the script of the whole run has no packet of an aperture segment, and a completed run sent all of it. -/
theorem flashNeverSendsAperture : Obligations.FlashNeverSendsAperture := by
  intro s t image h
  obtain ⟨-, hrun⟩ := execProcedure_next h
  refine ⟨?always, fun hv => ?completed⟩
  case always =>
    injection hrun with ht
    subst ht
    obtain ⟨-, l, htrace, hprefix, -⟩ := flashImage_follows image s
    exact ⟨l, htrace, fun tx htx => mem_flashScript (hprefix.subset htx)⟩
  case completed =>
    obtain ⟨_, hout, -, rfl⟩ := Run.finishProcedure_value hrun hv
    rw [flashImage_eq] at hout
    obtain ⟨_, hwrite, e, hreset⟩ := Run.andThen_ok hout
    obtain ⟨-, l, htrace, -, hsent⟩ := writeImage_follows image s
    obtain ⟨hsession, -, -, r, t1, t2, hevents, hwaited⟩ := systemReset_ended hreset
    have hall := hsent _ hwrite
    rw [flashImage_eq, e]
    rw [htrace] at hevents
    generalize (systemReset (writeImage image s).state).state = u at *
    exact ⟨hsession, fun _ => ⟨l, r, t1, t2, hevents, hwaited, hall⟩⟩

/-! ## Image-matches-device -/

/-- The events show the question for a segment's CRC and its stored CRC in a 16-byte window (44_sequencer.md R179). -/
def AskedAndHeld (g : Segment) (l : List Event) : Prop :=
  encode (.crc32 g.start (BitVec.ofNat 32 g.data.length) 0#32) ∈ sentBytes l ∧
    ∃ z w t3 t4, SentinelFree z ∧ Event.xfer (zeros 16)
      (z ++ (0xCC#8 :: 6#8 :: checksum (be32 g.crc) :: be32 g.crc) ++ w) t3 t4 ∈ l

theorem AskedAndHeld.append_right {g : Segment} {l : List Event} (h : AskedAndHeld g l) (m : List Event) :
    AskedAndHeld g (l ++ m) := by
  obtain ⟨hasked, z, w, t3, t4, hz, hheld⟩ := h
  rw [AskedAndHeld, sentBytes_append]
  exact ⟨List.mem_append_left _ hasked, z, w, t3, t4, hz, List.mem_append_left _ hheld⟩

theorem AskedAndHeld.append_left {g : Segment} {l : List Event} (h : AskedAndHeld g l) (m : List Event) :
    AskedAndHeld g (m ++ l) := by
  obtain ⟨hasked, z, w, t3, t4, hz, hheld⟩ := h
  rw [AskedAndHeld, sentBytes_append]
  exact ⟨List.mem_append_right _ hasked, z, w, t3, t4, hz, List.mem_append_right _ hheld⟩

/-- What the comparison of an image between `s` and `t` with the result `b` means (44_sequencer.md R179). -/
structure Compared (image : Image) (b : Bool) (s t : State) : Prop where
  cfg : t.cfg = s.cfg
  mismatch : b = false → ∃ g ∈ image, g.start &&& s.cfg.ramApertureMask = 0#32 ∧ t.crcLocal = g.crc ∧ t.crcDevice ≠ g.crc
  events : ∃ l, t.trace = s.trace ++ l ∧
    (b = true → ∀ g ∈ image, g.start &&& s.cfg.ramApertureMask = 0#32 → AskedAndHeld g l)

theorem AskedCrc.askedAndHeld {g : Segment} {s t : State} (h : AskedCrc g.start (segmentSize g) g.crc s t) :
    ∃ l, t.trace = s.trace ++ l ∧ AskedAndHeld g l := by
  obtain ⟨-, -, -, r0, r1, r2, t1, t2, t3, hevents, -, z, b, rfl, hz⟩ := h
  exact ⟨_, hevents, List.mem_cons_self, z, b, t2, t3, hz, by simp⟩

section

variable {g : Segment} {rest : Image} {b : Bool} {s u t : State}

theorem Compared.cons_skipped (hg : inAperture s.cfg.ramApertureMask g = true) (h : Compared rest b s t) :
    Compared (g :: rest) b s t := by
  obtain ⟨hcfg, hmismatch, l, htrace, hheld⟩ := h
  refine ⟨hcfg, fun hb => ?_, l, htrace, fun hb g' hmem hout => ?_⟩
  · obtain ⟨g', hmem, hdiffers⟩ := hmismatch hb
    exact ⟨g', List.mem_cons_of_mem g hmem, hdiffers⟩
  · rcases List.mem_cons.mp hmem with rfl | hmem
    · exact absurd hout (of_decide_eq_true hg)
    · exact hheld hb g' hmem hout

/-- The segment at the head was found in the device, and the comparison went on from there. -/
theorem Compared.cons_matched {l : List Event} (htrace : u.trace = s.trace ++ l) (hcfg : u.cfg = s.cfg)
    (hhead : AskedAndHeld g l) (h : Compared rest b u t) : Compared (g :: rest) b s t := by
  obtain ⟨hcfg', hmismatch, m, htrace', hheld⟩ := h
  rw [hcfg] at hmismatch hheld
  refine ⟨hcfg'.trans hcfg, fun hb => ?_, l ++ m, ?_, fun hb g' hmem hout => ?_⟩
  · obtain ⟨g', hmem, hdiffers⟩ := hmismatch hb
    exact ⟨g', List.mem_cons_of_mem g hmem, hdiffers⟩
  · rw [htrace', htrace, List.append_assoc]
  · rcases List.mem_cons.mp hmem with rfl | hmem
    · exact hhead.append_right m
    · exact (hheld hb g' hmem hout).append_left l

/-- The segment at the head was not found, and its comparison is the last. -/
theorem Compared.cons_differs {l : List Event} (htrace : u.trace = s.trace ++ l) (hcfg : u.cfg = s.cfg)
    (hg : inAperture s.cfg.ramApertureMask g = false) (hlocal : u.crcLocal = g.crc) (hdevice : u.crcDevice ≠ g.crc) :
    Compared (g :: rest) false s u :=
  ⟨hcfg, fun _ => ⟨g, List.mem_cons_self, inAperture_eq_false_iff.mp hg, hlocal, hdevice⟩, l, htrace, nofun⟩

end

theorem compareSegments_compared {image : Image} {b : Bool} {s : State} (h : (compareSegments image s).out = .ok b) :
    Compared image b s (compareSegments image s).state := by
  induction image generalizing s with
  | nil =>
    injection h with h
    subst h
    exact ⟨rfl, nofun, [], (List.append_nil _).symm, fun _ _ hg => nomatch hg⟩
  | cons g rest ih =>
    rw [compareSegments] at h ⊢
    cases hg : inAperture s.cfg.ramApertureMask g with
    | true =>
      rw [hg, if_pos rfl] at h
      rw [if_pos rfl]
      exact .cons_skipped hg (ih h)
    | false =>
      rw [hg, if_neg Bool.false_ne_true] at h
      rw [if_neg Bool.false_ne_true]
      obtain ⟨v, hquery, e, hcompare⟩ := Run.andThen_ok h
      have hasked := crcQuery_askedCrc hquery
      have hcfg := (crcQuery_follows g (s.setCrcLocal g.crc)).cfg
      rw [e]
      generalize (crcQuery g.start (segmentSize g) (s.setCrcLocal g.crc)).state = u at *
      have hlocal : u.crcLocal = g.crc := hasked.crcLocal
      simp only [crcCompare, Run.andThen_done] at hcompare ⊢
      split at hcompare
      next hsame =>
        have hv : v = g.crc := hasked.crcDevice.symm.trans ((of_decide_eq_true hsame).symm.trans hlocal)
        subst hv
        obtain ⟨l, htrace, hhead⟩ := hasked.askedAndHeld
        rw [if_pos hsame]
        exact .cons_matched (u := u.flagMatch) htrace hcfg hhead (ih hcompare)
      next hdiffers =>
        injection hcompare with hb
        subst hb
        obtain ⟨-, -, -, r0, r1, r2, t1, t2, t3, htrace, -⟩ := hasked
        have hne : u.crcDevice ≠ g.crc := fun heq => hdiffers (decide_eq_true (hlocal.trans heq.symm))
        rw [if_neg hdiffers]
        exact .cons_differs (u := u.flagMatch) htrace hcfg hg hlocal hne

/-- Image-matches-device up to its System reset (44_sequencer.md R179). -/
def compareImage (image : Image) (s : State) : Run Bool := (initialise s).andThen fun _ s => compareSegments image s

theorem imageMatches_eq (image : Image) (s : State) :
    imageMatches image s =
      (compareImage image s).andThen fun same s => (systemReset s).andThen fun _ s => Run.done same s := by
  simp only [imageMatches, compareImage, Run.andThen_assoc]

theorem imageMatches_completed {image : Image} {b : Bool} {s : State} (h : (imageMatches image s).out = .ok b) :
    ∃ u v, u.cfg = s.cfg ∧ (∃ l, u.trace = s.trace ++ l) ∧ Compared image b u v ∧
      EndedWithReset v (imageMatches image s).state := by
  rw [imageMatches_eq] at h ⊢
  obtain ⟨same, hcompare, e, hend⟩ := Run.andThen_ok h
  obtain ⟨_, hreset, e', hdone⟩ := Run.andThen_ok hend
  injection hdone with hdone
  subst hdone
  obtain ⟨_, hinit, e'', hsegments⟩ := Run.andThen_ok hcompare
  have e'' : compareImage image s = _ := e''
  have hended := systemReset_ended hreset
  obtain ⟨hcfg, l, htrace, -⟩ := initialise_follows s
  rw [e''] at hended e'
  rw [e, e'', e', Run.done_state]
  exact ⟨_, _, hcfg, ⟨l, htrace⟩, compareSegments_compared hsegments, hended⟩

/-- Settles O49: the comparison's result outlives the System reset after it. -/
theorem imageMatchesEndsWithReset : Obligations.ImageMatchesEndsWithReset := by
  intro s t image b h hv
  obtain ⟨hacc, hrun⟩ := execProcedure_next h
  obtain ⟨b', hout, heq, rfl⟩ := Run.finishProcedure_value hrun hv
  injection heq with heq
  subst heq
  have hx : s.session ≠ .faulted := sessionOpen_ne_faulted (procedureAccepted_open hacc)
  obtain ⟨hfault, herr, -⟩ := (imageMatches_tracks image hx).ok _ hout
  obtain ⟨u, v, hcfg, ⟨l, htrace⟩, hcompared, hended⟩ := imageMatches_completed hout
  obtain ⟨-, hmismatch, m, htrace', hheld⟩ := hcompared
  obtain ⟨hsession, hlocal, hdevice, r, t1, t2, hevents, -⟩ := hended
  rw [hcfg] at hmismatch hheld
  rw [htrace', htrace, List.append_assoc s.trace] at hevents
  generalize (imageMatches image s).state = w at *
  refine ⟨hsession, hfault, herr, l ++ m, r, t1, t2, hevents, fun hb => ?_, fun hb g hmem hout =>
    (hheld hb g hmem hout).append_left l⟩
  obtain ⟨g, hmem, hout, hlocal', hdevice'⟩ := hmismatch hb
  exact ⟨g, hmem, hout, hlocal.trans hlocal', fun heq => hdevice' (hdevice.symm.trans heq)⟩

end Sys2Proof.Machine
end

section
/-! SUPPORT. The errors as the controller sees them (60_exceptions.md R226, R227, R230, R231): every accepted request is answered
and off the queue, only procedures wrap, and where TRACE ends when a wire item or a procedure ends in an error. -/

namespace Sys2Proof.Machine

open Sys2Proof

/-! ## The queue -/

/-- Settles O52: a step only serves the queue. -/
theorem idleStepHoldsState : Obligations.IdleStepHoldsState := by
  intro s h
  simp only [step, stepRequest, h]

theorem Micro.pending_eq {s t : State} (m : Micro s t) : t.pending = s.pending := by
  cases m <;> rfl

theorem Steps.pending_eq {s t : State} (h : Steps s t) : t.pending = s.pending :=
  h.keep (P := fun u => u.pending = s.pending) (fun m h => m.pending_eq.trans h) rfl

/-! ## ENTER_BOOTLOADER -/

/-- ERR is cleared before the first I/O primitive, and no step of the mode entry touches the queue. -/
theorem State.entryAt_frame (s : State) (k : Nat) : (s.entryAt k).err = 0#4 ∧ (s.entryAt k).pending = s.pending :=
  match k with
  | 0 | 1 | 2 | 3 | _ + 4 => ⟨rfl, rfl⟩

/-- Mode entry raises Transport with ERR cleared before, or opens the session (40_transport.md R96, 60_exceptions.md
R231). -/
theorem enterBootloader_raises_or_enters (s : State) :
    (∃ t, enterBootloader s = Run.raise .transport t ∧ t.err = 0#4 ∧ t.pending = s.pending) ∨
      enterBootloader s = Run.done () s.entry5 := by
  rcases enterBootloader_cases s with ⟨k, -, -, -, e⟩ | ⟨-, e⟩
  · exact .inl ⟨_, e, s.entryAt_frame k⟩
  · exact .inr e

/-! ## Values -/

theorem Response.no_error_of_value {x : Response} {v : OpValue} {k : ErrorKind} (h : x = .value v) :
    ¬ (x = .error k ∨ x = .protocol k) := by
  subst h
  rintro (h | h) <;> cases h

/-- A response carries one error kind, wrapped or not. -/
theorem Response.kind_unique {x : Response} {k k' : ErrorKind} (h : x = .error k ∨ x = .protocol k)
    (h' : x = .error k' ∨ x = .protocol k') : k = k' := by
  rcases h with rfl | rfl <;> rcases h' with h' | h' <;> cases h' <;> rfl

/-- Settles O59: micro steps touch neither the queue nor, without an error, FAULT and ERR; mode entry clears both. -/
theorem valuesRaiseNothing : Obligations.ValuesRaiseNothing := by
  intro s t r rest hq hstep
  rw [step_of_pending hq] at hstep
  rcases execRequest_cases hstep with ⟨rfl, rfl⟩ | ⟨hne, tracked⟩
  · rcases enterBootloader_raises_or_enters (s.setPending rest) with ⟨u, e, -, hpending⟩ | e
    · rw [e]
      exact ⟨hpending, .inr ⟨_, .inl rfl⟩, nofun, nofun⟩
    · rw [e]
      exact ⟨rfl, .inl ⟨_, rfl⟩, fun _ _ hne => absurd rfl hne, fun _ _ _ => ⟨rfl, rfl, rfl⟩⟩
  · refine ⟨tracked.steps.pending_eq, ?_⟩
    rcases tracked.response with ⟨v, hv, hfault, herr, -⟩ | ⟨k, hk, -⟩
    · exact ⟨.inl ⟨v, hv⟩, fun _ _ _ => ⟨hfault, herr⟩, fun _ _ h => absurd h hne⟩
    · exact ⟨.inr ⟨k, hk⟩, fun v hv => absurd hk (Response.no_error_of_value hv), fun _ _ h => absurd h hne⟩

/-! ## The answer of a request -/

/-- No error reached the controller wrapped, as after an operation or a wire item (60_exceptions.md R227). -/
def Unwrapped (t : State) : Prop := ∀ k, t.result ≠ .protocol k

/-- Every error reached the controller wrapped but Verification, as after a procedure (60_exceptions.md R227). -/
structure Wrapped (t : State) : Prop where
  bare : ∀ k, t.result = .error k → ∃ c, k = .verification c
  protocol : ∀ k, t.result = .protocol k → ∀ c, k ≠ .verification c

/-- TRACE ends where the error that the controller received says. -/
def EndsAsAnswered (tr : List Event) (t : State) : Prop :=
  ∀ k, t.result = .error k ∨ t.result = .protocol k → EndsAt tr k t

section

variable {tr : List Event} {Q : State → Prop} {α : Type} {value : α → OpValue} {r : Run α} {t : State}

theorem Run.response_eq_error {k : ErrorKind} (h : r.response value = .error k) : r.out = .error k := by
  unfold Run.response at h
  split at h
  · cases h
  · next ho => cases h; exact ho

theorem Run.response_ne_protocol (k : ErrorKind) : r.response value ≠ .protocol k := by
  unfold Run.response
  split <;> nofun

/-- A procedure returns only Verification as it is (60_exceptions.md R227). -/
theorem Run.wrapped_eq_error {k : ErrorKind} (h : r.wrapped value = .error k) :
    r.out = .error k ∧ ∃ c, k = .verification c := by
  unfold Run.wrapped at h
  split at h
  · cases h
  · next c ho => cases h; exact ⟨ho, c, rfl⟩
  · cases h

/-- A procedure wraps every other error (60_exceptions.md R227). -/
theorem Run.wrapped_eq_protocol {k : ErrorKind} (h : r.wrapped value = .protocol k) :
    r.out = .error k ∧ ∀ c, k ≠ .verification c := by
  unfold Run.wrapped at h
  split at h
  · cases h
  · cases h
  · next hne ho => cases h; exact ⟨ho, fun c hc => hne c hc⟩

theorem Run.finish_unwrapped (h : r.finish value = .next t) : Unwrapped t := by
  injection h with h
  subst h
  exact fun k => Run.response_ne_protocol k

theorem Run.finishProcedure_wrapped (h : r.finishProcedure value = .next t) : Wrapped t := by
  injection h with h
  subst h
  exact ⟨fun _ hk => (Run.wrapped_eq_error hk).2, fun _ hk => (Run.wrapped_eq_protocol hk).2⟩

theorem Run.Ends.finish (h : Run.Ends tr Q r) (e : r.finish value = .next t) : EndsAsAnswered tr t := by
  injection e with e
  subst e
  rintro k (hk | hk)
  · exact (h.error k (Run.response_eq_error hk)).setResult _
  · exact absurd hk (Run.response_ne_protocol k)

theorem Run.Ends.finishProcedure (h : Run.Ends tr Q r) (e : r.finishProcedure value = .next t) :
    EndsAsAnswered tr t := by
  injection e with e
  subst e
  rintro k (hk | hk)
  · exact (h.error k (Run.wrapped_eq_error hk).1).setResult _
  · exact (h.error k (Run.wrapped_eq_protocol hk).1).setResult _

end

/-! ## Wire items -/

/-- How a wire item, or bytes handed in for one, answers the request: unwrapped, with nothing after what failed. -/
structure WireAnswer (tr : List Event) (t : State) : Prop where
  unwrapped : Unwrapped t
  ends : EndsAsAnswered tr t

section

variable {tr : List Event} {Q : State → Prop} {s t : State}

theorem Run.Ends.wireAnswer {α : Type} {value : α → OpValue} {r : Run α} (h : Run.Ends tr Q r)
    (e : r.finish value = .next t) : WireAnswer tr t :=
  ⟨Run.finish_unwrapped e, h.finish e⟩

theorem receiveReply_ends (v : Variant) {packet : List Byte} (h : tr <+: s.trace) (hl : packet.length + 1 < 65536) :
    Run.Ends tr (fun _ => True) (receiveReply v packet s) :=
  (receive_ends h (by simpa using hl)).andThen fun _ _ _ w => parseReply_ends v w

theorem receiveSentinel_ends {bytes : List Byte} (h : tr <+: s.trace) (hl : bytes.length < 65536) :
    Run.Ends tr (fun t => EndsInWindow tr t ∧ AckFirst t) (receiveSentinel bytes s) :=
  (receive_ends h hl).andThen fun _ _ _ w => ackScan_ends w

theorem badLength_ends (len : Byte) (h : tr <+: s.trace) : Run.Ends tr (fun _ => True) (badLength len s) :=
  .raise h (.other id (by simp) _)

theorem whenOpen_wireAnswer {α : Type} {value : α → OpValue} {r : Run α} (h : Run.Ends tr Q r)
    (e : whenOpen value s r = .next t) : WireAnswer tr t :=
  h.wireAnswer (whenOpen_next e).2

theorem exec_wireAnswer {i : Instr} (h : tr <+: s.trace) (e : exec i s = .next t) : WireAnswer tr t := by
  cases i with
  | ping => exact whenOpen_wireAnswer (sendBareAck_ends isRequest_ping h) e
  | download a n => exact whenOpen_wireAnswer (sendBareAck_ends (isRequest_download a n) h) e
  | getStatus => exact whenOpen_wireAnswer (sendForReply_ends isRequest_getStatus _ h) e
  | sendData d => exact whenOpen_wireAnswer (sendOnly_ends (isRequest_sendData d) h) e
  | reset => exact whenOpen_wireAnswer (sendBareAck_ends isRequest_reset h) e
  | sectorErase a => exact whenOpen_wireAnswer (sendOnly_ends (isRequest_sectorErase a) h) e
  | crc32 a n r => exact whenOpen_wireAnswer (sendOnly_ends (isRequest_crc32 a n 0#32) h) e
  | getChipId => exact whenOpen_wireAnswer (sendForReply_ends isRequest_getChipId _ h) e
  | memoryRead a x c => exact whenOpen_wireAnswer (sendOnly_ends (isRequest_memoryRead a x c) h) e
  | memoryWrite a n d => exact whenOpen_wireAnswer (sendOnly_ends (isRequest_memoryWrite a n d) h) e
  | bankErase => exact whenOpen_wireAnswer (sendOnly_ends isRequest_bankErase h) e
  | chipIdReply v =>
    exact whenOpen_wireAnswer (receiveReply_ends _ h (by simp [encode, length_payloadOf, payloadWidth])) e
  | crc32Reply v =>
    exact whenOpen_wireAnswer (receiveReply_ends _ h (by simp [encode, length_payloadOf, payloadWidth])) e
  | commandStatus v =>
    exact whenOpen_wireAnswer (receiveReply_ends _ h (by simp [encode, length_payloadOf, payloadWidth])) e
  | ack sender =>
    cases sender with
    | target => exact whenOpen_wireAnswer (receiveSentinel_ends h (by simp)) e
    | block => exact whenOpen_wireAnswer (hostAck_ends h) e
  | nack => exact whenOpen_wireAnswer (receiveSentinel_ends h (by simp)) e

theorem execReplyBytes_wireAnswer {v : Variant} {bytes : List Byte} (h : tr <+: s.trace)
    (e : execReplyBytes v bytes s = .next t) : WireAnswer tr t := by
  obtain ⟨-, e⟩ := requireOpen_next e
  obtain ⟨-, hi, e⟩ := requireLength_next e
  have hcap := bufCap_le s.cfg
  exact (receiveReply_ends v h (by omega)).wireAnswer e

theorem execSentinelBytes_wireAnswer {bytes : List Byte} (h : tr <+: s.trace)
    (e : execSentinelBytes bytes s = .next t) : WireAnswer tr t := by
  obtain ⟨-, e⟩ := requireOpen_next e
  obtain ⟨-, hi, e⟩ := requireLength_next e
  have hcap := bufCap_le s.cfg
  exact (receiveSentinel_ends h (by omega)).wireAnswer e

theorem execBadRequest_wireAnswer {d : DecodeError} (h : tr <+: s.trace) (e : execBadRequest d s = .next t) :
    WireAnswer tr t := by
  cases d with
  | lenTooSmall len => exact whenOpen_wireAnswer (badLength_ends len h) e
  | lenTooLarge len => exact whenOpen_wireAnswer (badLength_ends len h) e
  | _ => cases e

theorem execWire_wireAnswer {x : Expectation} {bytes : List Byte} (h : tr <+: s.trace)
    (e : execWire x bytes s = .next t) : WireAnswer tr t := by
  unfold execWire at e
  split at e
  · exact exec_wireAnswer h e
  · cases x with
    | request => exact execBadRequest_wireAnswer h e
    | chipIdReply => exact execReplyBytes_wireAnswer h e
    | crc32Reply => exact execReplyBytes_wireAnswer h e
    | commandStatus => exact execReplyBytes_wireAnswer h e
    | sentinel => exact execSentinelBytes_wireAnswer h e
    | hostAck => cases e

end

/-! ## Block operations -/

theorem execOp_unwrapped {o : BlockOp} {s t : State} (e : execOp o s = .next t) : Unwrapped t := by
  cases o with
  | loadTx bytes =>
    simp only [execOp, execLoadTx] at e
    split at e
    · cases e
    · exact Run.finish_unwrapped e
  | transfer => exact Run.finish_unwrapped (requireLength_next (requireOpen_next e).2).2.2
  | read n => exact Run.finish_unwrapped (requireLength_next (requireOpen_next e).2).2.2
  | hostAck => exact Run.finish_unwrapped (requireOpen_next e).2
  | wait d => exact Run.finish_unwrapped e
  | enterBootloader => exact Run.finish_unwrapped e
  | checksum bytes => exact Run.finish_unwrapped e
  | serialize i =>
    simp only [execOp, execSerialize] at e
    split at e
    · exact Run.finish_unwrapped e
    · cases e
  | ackScan => exact Run.finish_unwrapped (requireOpen_next e).2
  | parseReply v => exact Run.finish_unwrapped (requireOpen_next e).2
  | crc32 image addr n =>
    simp only [execOp, execCrc32Op] at e
    split at e
    · split at e
      · exact Run.finish_unwrapped e
      · cases e
    · cases e
  | crcCompare =>
    obtain ⟨-, e⟩ := requireOpen_next e
    split at e
    · exact Run.finish_unwrapped e
    · cases e

/-! ## Procedures -/

section

variable {tr : List Event} {s t : State}

theorem checkStatus_ends (h : tr <+: s.trace) : Run.Ends tr (fun _ => True) (checkStatus s) := by
  refine (sendForReply_ends isRequest_getStatus _ h).andThen fun _ s h w => ?_
  split
  · exact .done h trivial
  · exact .verification w

theorem initialise_ends (h : tr <+: s.trace) : Run.Ends tr (fun _ => True) (initialise s) := by
  refine (sendBareAck_ends isRequest_ping h).andThen fun _ s h _ =>
    (sendForReply_ends isRequest_getChipId _ h).andThen fun _ s h w => ?_
  split
  · exact .done h trivial
  · exact .verification w

theorem eraseSector_ends (a : U32) (h : tr <+: s.trace) : Run.Ends tr (fun _ => True) (eraseSector a s) :=
  (sendWaitAck_ends (s := s.setSession .operational) (isRequest_sectorErase a) _ (by decide) h).andThen
    fun _ _ h _ => checkStatus_ends h

theorem bankErase_ends (h : tr <+: s.trace) : Run.Ends tr (fun _ => True) (bankErase s) :=
  (sendWaitAck_ends (s := s.setSession .operational) isRequest_bankErase _ (by decide) h).andThen
    fun _ _ h _ => checkStatus_ends h

theorem sendChunk_ends (d : List Byte) (h : tr <+: s.trace) : Run.Ends tr (fun _ => True) (sendChunk d s) :=
  sendWaitAck_ends (isRequest_sendData d) _ (by decide) h

theorem crcQuery_ends (a n : U32) (h : tr <+: s.trace) : Run.Ends tr (EndsInHostAck tr) (crcQuery a n s) :=
  (sendWaitReply_ends (s := s.setSession .operational) (isRequest_crc32 a n 0#32) _ (by decide) _ h).andThen
    fun _ _ h w => .done h w

theorem systemReset_ends (h : tr <+: s.trace) : Run.Ends tr (fun _ => True) (systemReset s) :=
  (sendBareAck_ends isRequest_reset h).andThen fun _ s h _ =>
    (wait_ends (s := s.setSession .reset) h _).andThen fun _ _ h _ => .done h trivial

theorem sendChunks_ends (l : List (List Byte)) (h : tr <+: s.trace) :
    Run.Ends tr (fun _ => True) (sendChunks l s) := by
  induction l generalizing s with
  | nil => exact .done h trivial
  | cons d rest ih => exact (sendChunk_ends d h).andThen fun _ _ h _ => ih h

/-- CRC_COMPARE leaves TRACE as it is. -/
theorem crcCompare_ends (h : tr <+: s.trace) (w : EndsInHostAck tr s) :
    Run.Ends tr (EndsInHostAck tr) (crcCompare s) :=
  .done (s := s.flagMatch) h (w.congr rfl rfl)

theorem verifySegment_ends (g : Segment) (h : tr <+: s.trace) : Run.Ends tr (fun _ => True) (verifySegment g s) := by
  refine (crcQuery_ends (s := s.setCrcLocal g.crc) _ _ h).andThen fun _ _ h w =>
    (crcCompare_ends h w).andThen fun _ _ h w => ?_
  split
  · exact .done h trivial
  · exact .verification w

theorem writeSegment_ends (g : Segment) (h : tr <+: s.trace) : Run.Ends tr (fun _ => True) (writeSegment g s) :=
  (sendBareAck_ends (s := s.setSession .operational) (isRequest_download _ _) h).andThen fun _ _ h _ =>
    (sendChunks_ends _ h).andThen fun _ _ h _ => (checkStatus_ends h).andThen fun _ _ h _ =>
    (verifySegment_ends g h).andThen fun _ _ h _ => checkStatus_ends h

theorem writeSegments_ends (image : Image) (h : tr <+: s.trace) :
    Run.Ends tr (fun _ => True) (writeSegments image s) := by
  induction image generalizing s with
  | nil => exact .done h trivial
  | cons g rest ih =>
    rw [writeSegments]
    split
    · exact ih h
    · exact (writeSegment_ends g h).andThen fun _ _ h _ => ih h

theorem flashImage_ends (image : Image) (h : tr <+: s.trace) : Run.Ends tr (fun _ => True) (flashImage image s) :=
  (initialise_ends h).andThen fun _ _ h _ => (bankErase_ends h).andThen fun _ _ h _ =>
    (writeSegments_ends image h).andThen fun _ _ h _ => systemReset_ends h

theorem compareSegments_ends (image : Image) (h : tr <+: s.trace) :
    Run.Ends tr (fun _ => True) (compareSegments image s) := by
  induction image generalizing s with
  | nil => exact .done h trivial
  | cons g rest ih =>
    rw [compareSegments]
    split
    · exact ih h
    · refine (crcQuery_ends (s := s.setCrcLocal g.crc) _ _ h).andThen fun _ _ h w =>
        (crcCompare_ends h w).andThen fun _ _ h _ => ?_
      split
      · exact ih h
      · exact .done h trivial

theorem imageMatches_ends (image : Image) (h : tr <+: s.trace) :
    Run.Ends tr (fun _ => True) (imageMatches image s) :=
  (initialise_ends h).andThen fun _ _ h _ => (compareSegments_ends image h).andThen fun _ _ h _ =>
    (systemReset_ends h).andThen fun _ _ h _ => .done h trivial

theorem needToUpdate_ends (image : Image) (h : tr <+: s.trace) :
    Run.Ends tr (fun _ => True) (needToUpdate image s) :=
  (imageMatches_ends image h).andThen fun _ _ h _ => .done h trivial

theorem exchangeCommand_ends (i : Instr) (h : tr <+: s.trace) :
    Run.Ends tr (fun _ => True) (exchangeCommand i s) := by
  have withoutFields : ∀ {Q : State → Prop} {r : Run Unit}, Run.Ends tr Q r →
      Run.Ends tr (fun _ => True) (r.andThen fun _ s => Run.done ([] : List FieldValue) s) :=
    fun hr => hr.andThen fun _ _ h _ => .done h trivial
  cases i with
  | ping => exact withoutFields (sendBareAck_ends isRequest_ping h)
  | download a n => exact withoutFields (sendBareAck_ends (isRequest_download a n) h)
  | getStatus => exact (sendForReply_ends isRequest_getStatus _ h).mono fun _ _ => trivial
  | sendData d => exact withoutFields (sendWaitAck_ends (isRequest_sendData d) _ (by decide) h)
  | reset => exact withoutFields (sendBareAck_ends isRequest_reset h)
  | sectorErase a => exact withoutFields (sendWaitAck_ends (isRequest_sectorErase a) _ (by decide) h)
  | crc32 a n r =>
    exact (sendWaitReply_ends (isRequest_crc32 a n 0#32) _ (by decide) _ h).mono fun _ _ => trivial
  | getChipId => exact (sendForReply_ends isRequest_getChipId _ h).mono fun _ _ => trivial
  | memoryRead a x c => exact withoutFields (sendOnly_ends (isRequest_memoryRead a x c) h)
  | memoryWrite a n d => exact withoutFields (sendOnly_ends (isRequest_memoryWrite a n d) h)
  | bankErase => exact withoutFields (sendWaitAck_ends isRequest_bankErase _ (by decide) h)
  | _ => exact .done h trivial

/-- How a procedure answers the request: wrapped, with nothing after what failed. -/
structure ProcedureAnswer (tr : List Event) (t : State) : Prop where
  wrapped : Wrapped t
  ends : EndsAsAnswered tr t

theorem Run.Ends.procedureAnswer {α : Type} {Q : State → Prop} {value : α → OpValue} {r : Run α}
    (h : Run.Ends tr Q r) (e : r.finishProcedure value = .next t) : ProcedureAnswer tr t :=
  ⟨Run.finishProcedure_wrapped e, h.finishProcedure e⟩

theorem execProcedure_answer {p : Procedure} (h : tr <+: s.trace) (e : execProcedure p s = .next t) :
    ProcedureAnswer tr t := by
  obtain ⟨-, e⟩ := execProcedure_next e
  cases p with
  | exchangeCommand i => exact (exchangeCommand_ends i h).procedureAnswer e
  | checkStatus => exact (checkStatus_ends h).procedureAnswer e
  | initialise => exact (initialise_ends h).procedureAnswer e
  | eraseSector a => exact (eraseSector_ends a h).procedureAnswer e
  | bankErase => exact (bankErase_ends h).procedureAnswer e
  | sendChunk d => exact (sendChunk_ends d h).procedureAnswer e
  | crcQuery a n => exact (crcQuery_ends a n h).procedureAnswer e
  | systemReset => exact (systemReset_ends h).procedureAnswer e
  | writeSegment g => exact (writeSegment_ends g h).procedureAnswer e
  | flashImage image => exact (flashImage_ends image h).procedureAnswer e
  | imageMatches image => exact (imageMatches_ends image h).procedureAnswer e
  | needToUpdate image => exact (needToUpdate_ends image h).procedureAnswer e

end

/-! ## The error entry -/

/-- Which requests answer wrapped, and that all but the block operations end TRACE where their error says. -/
theorem execRequest_answer {r : Request} {s t : State} (e : execRequest r s = .next t) :
    ((∃ p, r = .procedure p) ∧ Wrapped t ∨ (∀ p, r ≠ .procedure p) ∧ Unwrapped t) ∧
      ((∀ o, r ≠ .op o) → EndsAsAnswered s.trace t) := by
  have self : s.trace <+: s.trace := List.prefix_refl _
  cases r with
  | wire x bytes =>
    obtain ⟨unwrapped, ends⟩ := execWire_wireAnswer self e
    exact ⟨.inr ⟨nofun, unwrapped⟩, fun _ => ends⟩
  | item i =>
    obtain ⟨unwrapped, ends⟩ := exec_wireAnswer self e
    exact ⟨.inr ⟨nofun, unwrapped⟩, fun _ => ends⟩
  | op o => exact ⟨.inr ⟨nofun, execOp_unwrapped e⟩, fun h => absurd rfl (h o)⟩
  | procedure p =>
    obtain ⟨wrapped, ends⟩ := execProcedure_answer self e
    exact ⟨.inl ⟨⟨p, rfl⟩, wrapped⟩, fun _ => ends⟩

/-- A request that ends in an error made the error entry with a kind that leaves the block (60_exceptions.md R226,
R230). -/
theorem execRequest_error {r : Request} {s t : State} {k : ErrorKind} (e : execRequest r s = .next t)
    (hk : t.result = .error k ∨ t.result = .protocol k) :
    k.raised ∧ t.fault = true ∧ t.session = .faulted ∧ (s.err = 0#4 → t.err = errorCode k) := by
  rcases execRequest_cases e with ⟨-, rfl⟩ | ⟨-, tracked⟩
  · rcases enterBootloader_raises_or_enters s with ⟨u, hrun, herr, -⟩ | hrun
    · rw [hrun] at hk ⊢
      obtain rfl := Response.kind_unique (.inl rfl) hk
      exact ⟨trivial, rfl, rfl, fun _ => if_pos herr⟩
    · rw [hrun] at hk
      exact absurd hk (Response.no_error_of_value rfl)
  · rcases tracked.response with ⟨v, hv, -⟩ | ⟨k', hk', raised, hsession, hfault, herr⟩
    · exact absurd hk (Response.no_error_of_value hv)
    · obtain rfl := Response.kind_unique hk' hk
      exact ⟨raised, hfault, hsession, fun h => herr.trans (if_pos h)⟩

/-- A kind that is raised has none of the reserved codes, nor that of an image parser's kind (60_exceptions.md R220,
R226). -/
theorem errorCode_of_raised {k : ErrorKind} (h : k.raised) :
    errorCode k ∉ [0#4, 5#4, 8#4, 10#4, 11#4, 12#4, 14#4, 15#4] := by
  cases k with
  | badCmdByte | invalidCmdStatus | hexParse | imageStructure => exact h.elim
  | _ => simp [errorCode]

/-- The kinds of the scan and of the parse, listed (41_framer.md R114, R116, R117). -/
theorem ErrorKind.ofScan_of_listed {k : ErrorKind}
    (h : k = .noAck ∨ (∃ p, k = .nack p) ∨ k = .packetTooShort ∨ (∃ a b, k = .badChecksum a b) ∨
      (∃ b, k = .invalidStatusCode b) ∨ (∃ n, k = .boundViolation .minPayloadNotMet n) ∨
      ∃ n, k = .boundViolation .maxPayloadExceeded n) : k.ofScan := by
  rcases h with rfl | ⟨_, rfl⟩ | rfl | ⟨_, _, rfl⟩ | ⟨_, rfl⟩ | ⟨_, rfl⟩ | ⟨_, rfl⟩ <;> trivial

/-- Settles O58: the error entry is known of every tracked request, the wrapping of how it answers, and the end of TRACE of
the operation that failed. -/
theorem errorsAreTaken : Obligations.ErrorsAreTaken := by
  intro s t r rest k hq hstep hk
  rw [step_of_pending hq] at hstep
  obtain ⟨raised, hfault, hsession, herr⟩ := execRequest_error hstep hk
  obtain ⟨wrapping, ends⟩ := execRequest_answer hstep
  refine ⟨hfault, hsession, herr, errorCode_of_raised raised, fun hp => ?protocol, fun hr he => ?bare,
    fun hop => ⟨fun hscan => ?window, fun c hc => ?hostAck⟩⟩
  case protocol =>
    rcases wrapping with ⟨hr, wrapped⟩ | ⟨-, unwrapped⟩
    · exact ⟨hr, wrapped.protocol k hp⟩
    · exact absurd hp (unwrapped k)
  case bare =>
    rcases wrapping with ⟨-, wrapped⟩ | ⟨hne, -⟩
    · exact wrapped.bare k he
    · obtain ⟨p, hp⟩ := hr
      exact absurd hp (hne p)
  case window =>
    obtain ⟨⟨l, tx, rx, t0, htrace, hne, rfl⟩, scanned⟩ := (ends hop k hk).1 (ErrorKind.ofScan_of_listed hscan)
    exact ⟨l, tx, _, t0, htrace, hne, rfl, scanned⟩
  case hostAck => exact (ends hop k hk).2 c hc

end Sys2Proof.Machine
end
